-- ==== Sys2Proof/Word.lean ====
section
/-! DEFINITION. The word types of LZWC and nothing else (00_scope.md R10, 10_state.md R21, R38, 20_memory.md R44).
All values are unsigned. -/

namespace Sys2Proof

/-- A 32-bit register, command word or memory-port address (R21, R43, R55). -/
abbrev Word := BitVec 32

/-- One byte of memory, one input symbol, the packer's partial byte (R34, R44). -/
abbrev Byte := BitVec 8

/-- A 16-bit code field (R29, R31, R38). -/
abbrev Code := BitVec 16

end Sys2Proof
end

