-- ==== Sys2Proof/Config.lean ====
section
/-! DEFINITION. What one implementation fixes and the spec leaves open (00_scope.md R8,
93_implementation_defined.md M1, M2), and the free values a model draws where the spec says "any value"
(10_state.md R39, 70_reset_and_hazards.md R192). No free value has a body, so no proof can see one. -/

namespace Sys2Proof.Config

/-- `P_MAXW - 12`. R8: P_MAXW is OPEN with 12 ≤ P_MAXW ≤ 16; the five values are the five of `Fin 5`. -/
opaque extraWidth : Fin 5

/-- `P_MAXW`, the largest code width the table storage supports (R8, M1). -/
def pMaxw : Nat := extraWidth.val + 12

/-- `P_CSR_BASE`, the bus address of the register block (R8, R21, M2). -/
opaque csrBase : Word

/-- Free value: what a register that R39 leaves unspecified reads as while the engine is busy
(93_implementation_defined.md U1, U2). The argument numbers the draws of a run. -/
opaque busyValue : Nat → Word

/-- Free value: what a byte of the DST region reads as to the host while the engine is busy
(93_implementation_defined.md U7). The first argument numbers the draws of a run, the second is the address. -/
opaque busyByte : Nat → Nat → Byte

/-- Free value: how many of the bytes of the engine step under way are in memory when a reset aborts it
(R192, 93_implementation_defined.md U4). The argument numbers the draws of a run. -/
opaque abortCut : Nat → Nat

end Sys2Proof.Config
end

