-- ==== Sys2Proof/Syntax.lean ====
section
/-! DEFINITION. The commands of LZWC: one constructor for each row of spec/opcode_table.json.
A command word carries no operand (30_encoding.md R55); operands come from registers (R58). -/

namespace Sys2Proof

/-- The twelve commands of 30_encoding.md R56, in the order of their opcodes. -/
inductive Instr where
  | nop
  | dinit
  | dlookup
  | dinsert
  | dread
  | pinit
  | pwrite
  | pflush
  | uinit
  | uread
  | encode
  | decode
  deriving DecidableEq, Repr

end Sys2Proof
end

