-- ==== Sys2Proof/WellFormed.lean ====
section
/-! DEFINITION. Well-formed commands. A command has no operand field (30_encoding.md R55), so every term of `Instr`
is well formed; the one-line check per constructor keeps that explicit. What CAN be ill formed on this hardware is a
host operation (20_memory.md, 10_state.md R21): its check is `HostOp.wf` in Machine/Ops.lean. -/

namespace Sys2Proof

/-- Every command of R56 is well formed: the word has no field left to constrain (R55). -/
def Instr.wf (i : Instr) : Bool :=
  match i with
  | .nop | .dinit | .dlookup | .dinsert | .dread => true
  | .pinit | .pwrite | .pflush => true
  | .uinit | .uread => true
  | .encode | .decode => true

end Sys2Proof
end

