-- ==== Sys2Proof/Decode.lean ====
section
/-! DEFINITION. Decoding and encoding of the command word (30_encoding.md R55, R56, R57). -/

namespace Sys2Proof

/-- Why R57 refuses a command word. The reserved bits are checked before the opcode. -/
inductive IllegalWord where
  /-- `w[31:4] ≠ 0`: IllegalCommand(2). -/
  | reservedBits
  /-- `w[31:4] = 0` and `w[3:0] ≥ 0xC`: IllegalCommand(1). -/
  | unassignedOpcode
  deriving DecidableEq, Repr

/-- The OP field, bits 3:0 (R55). -/
def opField (w : Word) : BitVec 4 := w.extractLsb' 0 4

/-- The RSVD field, bits 31:4 (R55). -/
def rsvdField (w : Word) : BitVec 28 := w.extractLsb' 4 28

/-- The opcode map of R56, read from the opcode to the command. -/
def instrOfOp (op : BitVec 4) : Option Instr :=
  match op.toNat with
  | 0x0 => some .nop
  | 0x1 => some .dinit
  | 0x2 => some .dlookup
  | 0x3 => some .dinsert
  | 0x4 => some .dread
  | 0x5 => some .pinit
  | 0x6 => some .pwrite
  | 0x7 => some .pflush
  | 0x8 => some .uinit
  | 0x9 => some .uread
  | 0xA => some .encode
  | 0xB => some .decode
  | _ => none

/-- `decode_cmd` of R57: total on every 32-bit word, refusing by name. -/
def decode (w : Word) : Except IllegalWord Instr :=
  if rsvdField w ≠ 0 then .error .reservedBits
  else
    match instrOfOp (opField w) with
    | some i => .ok i
    | none => .error .unassignedOpcode

/-- The opcode map of R56, read from the command to the opcode. -/
def opOfInstr (i : Instr) : BitVec 4 :=
  match i with
  | .nop => 0x0
  | .dinit => 0x1
  | .dlookup => 0x2
  | .dinsert => 0x3
  | .dread => 0x4
  | .pinit => 0x5
  | .pwrite => 0x6
  | .pflush => 0x7
  | .uinit => 0x8
  | .uread => 0x9
  | .encode => 0xA
  | .decode => 0xB

/-- The word of a command: `zext_32(OP)`, RSVD all zero (R55, R60). -/
def encode (i : Instr) : Word := (opOfInstr i).setWidth 32

/-- The decoder on a word numbered as spec/opcode_table.json numbers it: one 32-bit word, bit 0 least significant
(R55). The word has no operand words after it, so only its low `nbits` bits are the row's. -/
def decodeTableWord (nbits w : Nat) : Option Instr :=
  match decode (BitVec.ofNat 32 (w % 2 ^ nbits)) with
  | .ok i => some i
  | .error _ => none

end Sys2Proof
end

