-- ==== Sys2Proof/Machine/State.lean ====
section
/-! DEFINITION. The state of LZWC as plain data (10_state.md R20 to R38), the platform memory it reaches
(20_memory.md R43), and the host side: the accesses the host has still to make and what it has read (30_encoding.md R60).
INVENTORY.md lists every field with its rule and its reset value. -/

namespace Sys2Proof.Machine

/-- The error kinds of 60_exceptions.md R166. Kind 0, no error, is the absence of one. -/
inductive ErrKind where
  | invalidConfiguration
  | truncatedStream
  | corruptStream
  | lengthMismatch
  | outputOverflow
  | illegalCommand
  deriving DecidableEq, Repr

/-- What a `raise E(info)` carries (R11, R168). -/
structure Err where
  kind : ErrKind
  info : Word
  deriving DecidableEq, Repr

/-- A configuration word, CFG or ACFG (R26, R27): its three fields. Every other bit is reserved (R23). -/
structure CfgFields where
  maxWidth  : BitVec 5
  initWidth : BitVec 5
  ctrl      : Bool
  deriving DecidableEq, Repr

/-- A non-singleton dictionary entry (R29): the source's `prefix` and `symbol`. -/
structure Entry where
  pre : Code
  sym : Byte
  deriving DecidableEq, Repr

/-- The engine's state-machine state (R33), which takes the place of a program counter. -/
inductive Phase where
  | idle
  | exec
  | encStart
  | encFirst
  | encNext
  | encLookup
  | encEmit
  | encGrow
  | encFinal
  | encEnd
  | encFlush
  | decStart
  | decTest
  | decRead
  | decClassify
  | decWrite
  | decGrow
  deriving DecidableEq, Repr

/-- The memory the port reaches (R43): its listed cells, in the canonical form of `Memory.wf` (Machine/Ops.lean). -/
abbrev Memory := List Host.Cell

/-- One access by the host or the platform (R60, R190). A register access names the byte offset from P_CSR_BASE;
`busRead` and `busWrite` name the bus address instead (R21). -/
inductive HostOp where
  /-- `csrw`: one 32-bit write at a register offset (R60). -/
  | csrWrite (off : BitVec 8) (v : Word)
  /-- `csrr`: one 32-bit read at a register offset; its value is an observation (R60). -/
  | csrRead (off : BitVec 8)
  /-- A 32-bit write at a bus address (R21, R60). -/
  | busWrite (a : Word) (v : Word)
  /-- A 32-bit read at a bus address (R21, R60). -/
  | busRead (a : Word)
  /-- A register access of `bytes` bytes, fewer than four: outside the port's contract (R21, R195 item 4). -/
  | csrNarrow (off : BitVec 8) (bytes : Nat)
  /-- `memw`: the host writes bytes at `a`, `a+1`, … (R60). -/
  | memWrite (a : Word) (bytes : List Byte)
  /-- `memr`: the host reads `n` bytes from `a` (R60). -/
  | memRead (a : Word) (n : Nat)
  /-- `wait`: `csrr STATUS` until BUSY = 0 (R60). -/
  | wait
  /-- The platform's reset input is asserted (R190 item 1). -/
  | hardReset
  deriving DecidableEq, Repr

/-- A host access with its place in the schedule: if the engine is busy, `after` engine steps pass before the access
is made (R174: accesses and engine steps are serialised in one order). -/
structure HostEvent where
  after : Nat
  op    : HostOp
  deriving DecidableEq, Repr

/-- What the host has learnt from one read (R60). -/
inductive Observation where
  | reg (off : BitVec 8) (v : Word)
  | mem (a : Word) (bytes : List Byte)
  deriving DecidableEq, Repr

/-- The state of LZWC, the memory it reaches and the host's side of the two ports. -/
structure State where
  /-- CTRL.IE (R25). -/
  ie : Bool
  /-- STATUS.DONE (R28). -/
  done : Bool
  /-- STATUS.HIT (R28). -/
  hit : Bool
  /-- STATUS.ERR (R28, R166); `none` is the code 0. -/
  err : Option ErrKind
  /-- CFG (R26). -/
  cfg : CfgFields
  /-- ACFG, the active configuration (R27). -/
  acfg : CfgFields
  /-- CMD: the command word last accepted (R22, R75). It reads as 0 to the host. -/
  cmd : Word
  /-- ARG0 (R31). -/
  arg0 : Word
  /-- ARG1 (R31). -/
  arg1 : Word
  /-- RES (R31, R59). -/
  res : Word
  /-- SRC_ADDR (R32). -/
  srcAddr : Word
  /-- SRC_LEN (R32). -/
  srcLen : Word
  /-- DST_ADDR (R32). -/
  dstAddr : Word
  /-- DST_CAP (R32). -/
  dstCap : Word
  /-- TARGET_LEN (R32). -/
  targetLen : Word
  /-- The non-singleton entries of the dictionary table, code FIRST_FREE first (R29). `D.size` is the view
  `State.dsize` (Machine/Operands.lean): FIRST_FREE plus the number of entries. -/
  dict : List Entry
  /-- PACC, the pending bits of the partial byte, most significant first (R34). -/
  pacc : Byte
  /-- PNB, the number of pending bits (R34). -/
  pnb : BitVec 3
  /-- OUT_LEN (R34). -/
  outLen : Word
  /-- SRC_POS (R35). -/
  srcPos : Word
  /-- SRC_BIT (R35). -/
  srcBit : BitVec 3
  /-- CODE_COUNT (R36). -/
  codeCount : Word
  /-- ERR_INFO (R37). -/
  errInfo : Word
  /-- The engine phase (R33). -/
  phase : Phase
  /-- The encoder's current matched code (R38). -/
  cur : Code
  /-- The encoder's input byte (R38). -/
  b : Byte
  /-- The decoder's previous code (R38). -/
  prev : Code
  /-- Whether there is a previous code (R38). -/
  prevValid : Bool
  /-- The code the decoder has just read (R38). -/
  code : Code
  /-- The decoder's expansion scratch (R38). -/
  seq : List Byte
  /-- The platform memory (R43). -/
  mem : Memory
  /-- The host's accesses still to be made, next one first (R60). The model's input. -/
  host : List HostEvent
  /-- What the host has read, latest first (R60). The model's own. -/
  obs : List Observation
  /-- How many free values have been drawn (R39, R192). The model's own. -/
  draws : Nat
  deriving DecidableEq, Repr

/-- The configuration after reset: 0x0000090C, MAX_WIDTH 12, INIT_WIDTH 9, CTRL 0 (R26, R41). -/
def resetCfg : CfgFields := ⟨12, 9, false⟩

/-- The machine right after reset (10_state.md R41): every field at the value R41 gives it. Memory is not LZWC's (R20) and
starts with nothing listed, the host has nothing to do and has read nothing: those three are the model's (log entries 1, 3). -/
def State.reset : State where
  ie := false
  done := false
  hit := false
  err := none
  cfg := resetCfg
  acfg := resetCfg
  cmd := 0
  arg0 := 0
  arg1 := 0
  res := 0
  srcAddr := 0
  srcLen := 0
  dstAddr := 0
  dstCap := 0
  targetLen := 0
  dict := []
  pacc := 0
  pnb := 0
  outLen := 0
  srcPos := 0
  srcBit := 0
  codeCount := 0
  errInfo := 0
  phase := .idle
  cur := 0
  b := 0
  prev := 0
  prevValid := false
  code := 0
  seq := []
  mem := []
  host := []
  obs := []
  draws := 0

/-- Why a step stops with a fault. LZWC itself has no fault (60_exceptions.md R165, 70_reset_and_hazards.md R200: "There is no
stuck state and no halt"); the one constructor is the model's guard on its own step bound. -/
inductive Fault where
  /-- Raised by `State.runEngine` if a command were still running when its step bound is used up.
  Safe: the machine stops where the hardware goes on. R79 says it cannot happen (Obligations.EveryCommandTerminates). -/
  | engineOverrun
  deriving DecidableEq, Repr

/-- Why a step has no meaning. No command is ever refused (R200); a refusal is always a breach of a host duty, or an access
that is not LZWC's. -/
inductive Refusal where
  /-- A command that the model gives no meaning. No arm of `exec` answers with it. Safe. -/
  | notModelled (mnemonic : String)
  /-- Raised by `State.hostAccess` on a register access narrower than 32 bits (R21, R195 item 4,
  93_implementation_defined.md P1: refuse). Safe. -/
  | narrowAccess
  /-- Raised by `State.portWrite` and `State.portRead` on a 32-bit register access whose offset is no multiple of 4 (R195 item 4: the
  model takes no step for it; log entry 13). Safe. -/
  | misalignedAccess
  /-- Raised by `State.hostAccess` when the host writes a byte of the SRC or DST region, or reads a byte of the SRC region,
  while the engine is busy (R51 clause 2, R195 item 2, 93_implementation_defined.md P2: refuse). Safe. -/
  | handsOff
  /-- Raised by `State.hostAccess` on a bus access outside the register block: no register of LZWC is there (R21, R177). Safe. -/
  | outsideBlock
  deriving DecidableEq, Repr

/-- The outcome of one step of this machine. -/
abbrev Outcome := Host.Outcome State Fault Refusal

end Sys2Proof.Machine
end

