-- ==== Sys2Proof/Machine/Ops.lean ====
section
/-! DEFINITION. The shared operations: the memory port (20_memory.md R43, R44), well-formed host operations (R21), the start of
a command (40_command.md R75), its completion (R76) and the ONE operation that takes an error (60_exceptions.md R168).
LZWC has no return from an error (R171): the next accepted command clears it, which is `State.accept`. -/

namespace Sys2Proof.Machine

/-! ### Bits -/

/-- `x[k] <- v`: one bit of a byte (R10, R106). -/
def setBit (x : Byte) (k : Nat) (v : Bool) : Byte :=
  let m : Byte := 1#8 <<< k
  bif v then x ||| m else x &&& ~~~m

/-- A Boolean as a 0 or 1 (R10). -/
def bitOf (v : Bool) : Nat := bif v then 1 else 0

/-! ### Memory -/

/-- What an address that no cell lists reads as. The spec leaves the initial contents OPEN (R8 `Mem`, M3): the byte 0 is a
DESIGN CHOICE (log entry 1), and every other contents is a state with the cells listed. -/
def Memory.unlisted (_a : Nat) : Byte := 0

/-- The cells from address `lo` on are in strictly rising order, inside the space of 2^32 bytes (R43), and list nothing that
an unlisted address already reads as. -/
def Memory.wfFrom : Nat → Memory → Bool
  | _, [] => true
  | lo, (k, v) :: rest =>
    decide (lo ≤ k) && decide (k < 2 ^ 32) && decide (v ≠ Memory.unlisted k) && Memory.wfFrom (k + 1) rest

/-- The canonical form of a memory: equal memories are equal lists. -/
def Memory.wf (m : Memory) : Bool := Memory.wfFrom 0 m

/-- The byte at an address. -/
def Memory.read : Memory → Nat → Byte
  | [], a => Memory.unlisted a
  | (k, v) :: rest, a => if k = a then v else Memory.read rest a

/-- A memory with one byte changed, kept in canonical form. -/
def Memory.write : Memory → Nat → Byte → Memory
  | [], a, v => if v = Memory.unlisted a then [] else [(a, v)]
  | (k, x) :: rest, a, v =>
    if a < k then (if v = Memory.unlisted a then (k, x) :: rest else (a, v) :: (k, x) :: rest)
    else if a = k then (if v = Memory.unlisted a then rest else (a, v) :: rest)
    else (k, x) :: Memory.write rest a v

/-- `MemRead(a, 1)` (R44). The address is 32 bits wide, so it is already taken modulo 2^32. -/
def State.memRead (s : State) (a : Word) : Byte := s.mem.read a.toNat

/-- `MemWrite(a, 1, v)` (R44). -/
def State.memWrite (s : State) (a : Word) (v : Byte) : State := { s with mem := s.mem.write a.toNat v }

/-- Bytes written at `a`, `a+1`, … in order (R60 `memw`). Past address 0xFFFFFFFF the bytes go on at address 0: a DESIGN CHOICE (log
entry 20), since R60 does not say it and R44 wraps only LZWC's own port. -/
def State.memWriteList (s : State) (a : Word) : List Byte → State
  | [] => s
  | v :: vs => State.memWriteList (s.memWrite a v) (a + 1) vs

/-- The `n` bytes at `a`, `a+1`, … (R60 `memr`). Past address 0xFFFFFFFF they go on at address 0: a DESIGN CHOICE (log entry 20). -/
def State.memReadList (s : State) (a : Word) : Nat → List Byte
  | 0 => []
  | n + 1 => s.memRead a :: State.memReadList s (a + 1) n

/-- One byte appended to the DST region: `MemWrite(DST_ADDR + OUT_LEN, 1, v) ; OUT_LEN <- OUT_LEN + 1` (R106, R107, R141, R148). -/
def State.putByte (s : State) (v : Byte) : State :=
  { s with mem := s.mem.write (s.dstAddr + s.outLen).toNat v, outLen := s.outLen + 1 }

/-- Bytes appended to the DST region in order (R141 DEC_WRITE, R148). -/
def State.putBytes (s : State) : List Byte → State
  | [] => s
  | v :: vs => State.putBytes (s.putByte v) vs

/-! ### Host operations -/

/-- A register offset that is a multiple of 4 (R195 item 4). -/
def wordAligned (off : BitVec 8) : Bool := decide (off.toNat % 4 = 0)

/-- A host operation inside the port's contract (R21, R195 item 4): no register access narrower than 32 bits, and none at an offset
from P_CSR_BASE that is no multiple of 4. -/
def HostOp.wf (op : HostOp) : Bool :=
  match op with
  | .csrNarrow _ _ => false
  | .csrWrite off _ | .csrRead off => wordAligned off
  | .busWrite a _ | .busRead a => wordAligned ((a - Config.csrBase).setWidth 8)
  | .memWrite _ _ | .memRead _ _ | .wait | .hardReset => true

/-! ### The life of a command -/

/-- The phase a command starts in (R75). -/
def firstPhase (i : Instr) : Phase :=
  match i with
  | .encode => .encStart
  | .decode => .decStart
  | .nop | .dinit | .dlookup | .dinsert | .dread => .exec
  | .pinit | .pwrite | .pflush | .uinit | .uread => .exec

/-- What R75 does for every accepted word, before it is decoded: DONE, ERR, HIT and ERR_INFO are cleared, CMD holds the word,
and the engine leaves IDLE. -/
def State.accept (s : State) (w : Word) (p : Phase) : State :=
  { s with done := false, err := none, hit := false, errInfo := 0, cmd := w, phase := p }

/-- The engine is busy: STATUS.BUSY (R28). -/
def State.busy (s : State) : Bool := decide (s.phase ≠ .idle)

/-- `complete` (R76). -/
def State.complete (s : State) : State := { s with phase := .idle, done := true }

/-- `raise E(info)` (R168): the four writes, and nothing else changes. -/
def State.raise (s : State) (e : Err) : State :=
  { s with err := some e.kind, errInfo := e.info, phase := .idle, done := true }

/-- The end of a command that runs in one step: it completes, or it takes the error raised before anything changed (R76, R168, R169). -/
def State.finish (s : State) (r : Except Err State) : State :=
  match r with
  | .ok t => t.complete
  | .error e => s.raise e

/-- The next phase of a command that goes on, or the error raised before anything changed in this step (R128, R151, R168, R169). -/
def State.goOn (s : State) (p : Phase) (r : Except Err State) : State :=
  match r with
  | .ok t => { t with phase := p }
  | .error e => s.raise e

/-- A write of a primitive command's word to CMD (R75, R77): ignored while the engine is busy (R40); accepted when it is idle, and
then the whole command runs in its one engine step. -/
def State.runPrimitive (s : State) (i : Instr) (body : State → State) : Outcome :=
  if s.phase = .idle then .next (body (s.accept (encode i) (firstPhase i))) else .next s

/-- A reset (R191): every piece of LZWC state takes its value of 10_state.md R41. Memory `m` is what the reset leaves in memory
(R190: a reset does not change memory; R192 says what an aborted command has written). The host's own lists stay. -/
def State.resetTo (s : State) (m : Memory) : State :=
  { State.reset with mem := m, host := s.host, obs := s.obs, draws := s.draws }

/-- One more observation of the host (R60). -/
def State.observe (s : State) (o : Observation) : State := { s with obs := o :: s.obs }

/-- One more free value drawn (R39, R192). -/
def State.drawn (s : State) : State := { s with draws := s.draws + 1 }

end Sys2Proof.Machine
end

