-- ==== Sys2Proof/Machine/Operands.lean ====
section
/-! DEFINITION. Every operand form of LZWC (30_encoding.md R58), the configuration fields (10_state.md R26, R27; 00_scope.md R9),
the views of the dictionary (R29, R30) and the region operands (R13, R32, 20_memory.md R48). -/

namespace Sys2Proof.Machine

/-! ### Operands of the primitive commands -/

/-- A code operand, `ARG0[15:0]` (R31, R58). -/
def State.codeArg (s : State) : Code := s.arg0.extractLsb' 0 16

/-- A symbol operand, `ARG1[7:0]` (R31, R58). -/
def State.symbolArg (s : State) : Byte := s.arg1.extractLsb' 0 8

/-- A width operand, `ARG1[4:0]` (R31, R58). -/
def State.widthArg (s : State) : BitVec 5 := s.arg1.extractLsb' 0 5

/-- The widths that PWRITE and UREAD accept, 1 to 16 (R58, R110, R119). -/
def widthOk (w : BitVec 5) : Bool := decide (1 ≤ w.toNat ∧ w.toNat ≤ 16)

/-! ### Configuration -/

/-- CFG as the host reads it (R26): reserved bits read 0 (R23). -/
def CfgFields.toWord (c : CfgFields) : Word :=
  c.maxWidth.setWidth 32 ||| (c.initWidth.setWidth 32 <<< 8) ||| ((BitVec.ofBool c.ctrl).setWidth 32 <<< 16)

/-- CFG as a write stores it (R26): any value of a field, legal or not, and no reserved bit (R23). -/
def CfgFields.ofWord (w : Word) : CfgFields :=
  ⟨w.extractLsb' 0 5, w.extractLsb' 8 5, w.getLsbD 16⟩

/-- MAXW of a configuration (R9). -/
def CfgFields.maxw (c : CfgFields) : Nat := c.maxWidth.toNat

/-- INITW of a configuration (R9). -/
def CfgFields.initw (c : CfgFields) : Nat := c.initWidth.toNat

/-- `max_size = 2^MAXW` (R9). -/
def CfgFields.maxSize (c : CfgFields) : Nat := 2 ^ c.maxw

/-- FIRST_FREE (R9): 256, or 258 when the two control codes are in use. -/
def CfgFields.firstFree (c : CfgFields) : Nat := bif c.ctrl then 258 else 256

/-- The legal configurations (R8, R26): 9 ≤ MAX_WIDTH ≤ P_MAXW and 9 ≤ INIT_WIDTH ≤ MAX_WIDTH. -/
def CfgFields.legal (c : CfgFields) : Bool :=
  decide (9 ≤ c.maxw ∧ c.maxw ≤ Config.pMaxw ∧ 9 ≤ c.initw ∧ c.initw ≤ c.maxw)

/-- CLEAR (R9, R63; the value is the spec's decision D3). -/
def clearCode : Code := 256

/-- END (R9, R63; the value is the spec's decision D3). -/
def endCode : Code := 257

/-! ### Views of the dictionary -/

/-- `D.size`, the next code the table will assign (R29). -/
def State.dsize (s : State) : Nat := s.acfg.firstFree + s.dict.length

/-- The entry of a non-singleton code, if the code is allocated (R29). -/
def State.entry? (s : State) (c : Nat) : Option Entry :=
  if c < s.acfg.firstFree then none else s.dict[c - s.acfg.firstFree]?

/-- `p ≤ 255 or FIRST_FREE ≤ p < D.size`: the code is allocated and is no reserved code (R95, R96). -/
def State.isEntry (s : State) (c : Nat) : Bool :=
  decide (c ≤ 255 ∨ (s.acfg.firstFree ≤ c ∧ c < s.dsize))

/-- `bitlen(n)`, the number of bits of `n` without leading zeros: the least `w` with `2^w > n` (R10). -/
def bitlen (n : Nat) : Nat := if n = 0 then 0 else Nat.log2 n + 1

/-- `width_of(n) = min(MAXW, max(INITW, bitlen(n)))` (41_dictionary.md R85). -/
def CfgFields.widthOf (c : CfgFields) (n : Nat) : Nat := min c.maxw (max c.initw (bitlen n))

/-! ### Regions -/

/-- The byte `a` lies in the region of `len` bytes from `base` (R13). Addresses are taken modulo 2^32 (R44, R49). -/
def inRegion (base len a : Word) : Bool := decide ((a - base).toNat < len.toNat)

/-- The engine is running DECODE (R33). -/
def Phase.isDecode (p : Phase) : Bool :=
  match p with
  | .decStart | .decTest | .decRead | .decClassify | .decWrite | .decGrow => true
  | .idle | .exec => false
  | .encStart | .encFirst | .encNext | .encLookup | .encEmit | .encGrow | .encFinal | .encEnd | .encFlush => false

/-- The length of the DST region: TARGET_LEN for DECODE, DST_CAP for every other command (R13, R32). -/
def State.dstLen (s : State) : Word := bif s.phase.isDecode then s.targetLen else s.dstCap

/-- `a` is a byte of the SRC region (R13). -/
def State.inSrc (s : State) (a : Word) : Bool := inRegion s.srcAddr s.srcLen a

/-- `a` is a byte of the DST region (R13). -/
def State.inDst (s : State) (a : Word) : Bool := inRegion s.dstAddr s.dstLen a

end Sys2Proof.Machine
end

