-- ==== Sys2Proof/Machine/Flags.lean ====
section
/-! DEFINITION. The STATUS register and what feeds it (10_state.md R28), the error codes (60_exceptions.md R166), the error
detail values (R167), and the interrupt output (R172). DONE, HIT and ERR are fields of State; BUSY, FULL and IRQ are views. -/

namespace Sys2Proof.Machine

/-- The code of an error kind in STATUS.ERR (R166). -/
def ErrKind.toCode (k : ErrKind) : BitVec 4 :=
  match k with
  | .invalidConfiguration => 1
  | .truncatedStream => 2
  | .corruptStream => 3
  | .lengthMismatch => 4
  | .outputOverflow => 5
  | .illegalCommand => 6

/-- STATUS.ERR: 0 when the last command raised nothing (R28, R166). -/
def errField (e : Option ErrKind) : BitVec 4 :=
  match e with
  | none => 0
  | some k => k.toCode

/-- `is_full()`, shown as STATUS.FULL: `D.size = max_size` (R28, 41_dictionary.md R91). -/
def State.isFull (s : State) : Bool := decide (s.dsize = s.acfg.maxSize)

/-- The layout of STATUS (R28): BUSY 0, DONE 1, HIT 2, FULL 3, ERR 11:8, the rest reserved and 0. -/
def statusLayout (busy done hit full : Bool) (err : BitVec 4) : Word :=
  (BitVec.ofBool busy).setWidth 32 ||| ((BitVec.ofBool done).setWidth 32 <<< 1)
    ||| ((BitVec.ofBool hit).setWidth 32 <<< 2) ||| ((BitVec.ofBool full).setWidth 32 <<< 3)
    ||| (err.setWidth 32 <<< 8)

/-- STATUS while the engine is idle (R28). -/
def State.statusWord (s : State) : Word :=
  statusLayout s.busy s.done s.hit s.isFull (errField s.err)

/-- STATUS while the engine is busy (R39): BUSY = 1, DONE = 0, ERR = 0; HIT and FULL are bits 2 and 3 of the free value `v`. -/
def busyStatusWord (v : Word) : Word := statusLayout true false (v.getLsbD 2) (v.getLsbD 3) 0

/-- The interrupt output `IRQ = CTRL.IE AND STATUS.DONE` (R172). -/
def State.irq (s : State) : Bool := s.ie && s.done

/-! ### The errors by cause (R167) -/

/-- MAX_WIDTH out of range. -/
def Err.maxWidth : Err := ⟨.invalidConfiguration, 1⟩
/-- INIT_WIDTH out of range. -/
def Err.initWidth : Err := ⟨.invalidConfiguration, 2⟩
/-- The SRC region wraps. -/
def Err.srcWraps : Err := ⟨.invalidConfiguration, 3⟩
/-- The DST region wraps. -/
def Err.dstWraps : Err := ⟨.invalidConfiguration, 4⟩
/-- The regions overlap. -/
def Err.overlap : Err := ⟨.invalidConfiguration, 5⟩
/-- A read of `w` bits past the end of the source. -/
def Err.truncated (w : Nat) : Err := ⟨.truncatedStream, BitVec.ofNat 32 w⟩
/-- A code that is no entry. -/
def Err.corrupt (c : Code) : Err := ⟨.corruptStream, c.setWidth 32⟩
/-- END too early, or a string past the target. -/
def Err.length (c : Code) : Err := ⟨.lengthMismatch, c.setWidth 32⟩
/-- A packed byte at or past DST_CAP, with the value passed to `pack_write`. -/
def Err.overflow (v : Code) : Err := ⟨.outputOverflow, v.setWidth 32⟩
/-- A partial byte at or past DST_CAP in `pack_flush`. -/
def Err.flushOverflow : Err := ⟨.outputOverflow, 0⟩
/-- IllegalCommand with its sub-code. -/
def Err.illegal (n : Word) : Err := ⟨.illegalCommand, n⟩

/-- The sub-code of a command word that R57 refuses. -/
def illegalWordErr (r : IllegalWord) : Err :=
  match r with
  | .unassignedOpcode => Err.illegal 1
  | .reservedBits => Err.illegal 2

end Sys2Proof.Machine
end

