-- ==== Sys2Proof/Machine/Dictionary.lean ====
section
/-! DEFINITION. The dictionary table: the configuration check and latch (41_dictionary.md R87), its subroutines (R88 to R91)
and the commands DINIT, DLOOKUP, DINSERT and DREAD (R93 to R96). -/

namespace Sys2Proof.Machine

/-! ### Subroutines -/

/-- `cfg_check()` (R87): MAX_WIDTH first, then INIT_WIDTH. -/
def State.cfgCheck (s : State) : Except Err Unit :=
  if s.cfg.maxw < 9 ∨ s.cfg.maxw > Config.pMaxw then .error Err.maxWidth
  else if s.cfg.initw < 9 ∨ s.cfg.initw > s.cfg.maxw then .error Err.initWidth
  else .ok ()

/-- `latch_cfg() ; dict_init()` (R87, R88): ACFG takes CFG, and the table keeps only what every table has. The spec calls the
two together wherever it latches (R93, R126, R141), and the entries of one configuration mean nothing under another. -/
def State.latchAndInit (s : State) : State := { s with acfg := s.cfg, dict := [] }

/-- `dict_init()` (R88). -/
def State.dictInit (s : State) : State := { s with dict := [] }

/-- The place of the first entry that holds the pair (R89). -/
def findPair (p : Code) (y : Byte) : List Entry → Option Nat
  | [] => none
  | e :: es => if e.pre = p ∧ e.sym = y then some 0 else (findPair p y es).map (· + 1)

/-- `lookup(p, s)` (R89): the least code that holds the pair, among the non-singleton entries. -/
def State.lookup (s : State) (p : Code) (y : Byte) : Option Code :=
  (findPair p y s.dict).map fun n => BitVec.ofNat 16 (s.acfg.firstFree + n)

/-- `insert(p, s)` (R90): the entry takes the code `D.size`, which grows by 1. -/
def State.insert (s : State) (p : Code) (y : Byte) : State := { s with dict := s.dict ++ [⟨p, y⟩] }

/-! ### DINIT (R93) -/

/-- The work of DINIT. -/
def State.dinitBody (s : State) : State :=
  s.finish (match s.cfgCheck with
    | .error e => .error e
    | .ok () => .ok s.latchAndInit)

/-! ### DLOOKUP (R94) -/

/-- The work of DLOOKUP. -/
def State.dlookupBody (s : State) : State :=
  match s.lookup s.codeArg s.symbolArg with
  | some r => ({ s with res := r.setWidth 32, hit := true }).complete
  | none => ({ s with res := 0, hit := false }).complete

/-! ### DINSERT (R95) -/

/-- The work of DINSERT: the full check comes before the check of the code (R170). -/
def State.dinsertBody (s : State) : State :=
  s.finish
    (if s.isFull then .error (Err.illegal 3)
     else if s.isEntry s.codeArg.toNat = false then .error (Err.illegal 4)
     else .ok { s.insert s.codeArg s.symbolArg with res := BitVec.ofNat 32 s.dsize })

/-! ### DREAD (R96) -/

/-- RES after a DREAD of a singleton: bit 24, and the code in bits 23:16 (R59, R96). -/
def singletonRes (c : Code) : Word := 0x01000000#32 ||| (c.setWidth 32 <<< 16)

/-- RES after a DREAD of a non-singleton: the symbol in bits 23:16, the prefix in bits 15:0 (R59, R96). -/
def entryRes (e : Entry) : Word := (e.sym.setWidth 32 <<< 16) ||| e.pre.setWidth 32

/-- The work of DREAD. -/
def State.dreadBody (s : State) : State :=
  s.finish
    (if s.codeArg.toNat ≤ 255 then .ok { s with res := singletonRes s.codeArg }
     else
      match s.entry? s.codeArg.toNat with
      | some e => .ok { s with res := entryRes e }
      | none => .error (Err.illegal 5))

/-- DINIT (R93). -/
def execDinit (s : State) : Outcome := s.runPrimitive .dinit State.dinitBody

/-- DLOOKUP (R94). -/
def execDlookup (s : State) : Outcome := s.runPrimitive .dlookup State.dlookupBody

/-- DINSERT (R95). -/
def execDinsert (s : State) : Outcome := s.runPrimitive .dinsert State.dinsertBody

/-- DREAD (R96). -/
def execDread (s : State) : Outcome := s.runPrimitive .dread State.dreadBody

end Sys2Proof.Machine
end

