-- ==== Sys2Proof/Machine/Packer.lean ====
section
/-! DEFINITION. The bit packer: its subroutines (42_bitpack.md R105 to R107) and the commands PINIT, PWRITE and PFLUSH
(R109 to R111). -/

namespace Sys2Proof.Machine

/-! ### Subroutines -/

/-- `pack_init()` (R105). -/
def State.packInit (s : State) : State := { s with pacc := 0, pnb := 0, outLen := 0, codeCount := 0 }

/-- One turn of R106's loop: the bit goes to place `7 - n` of the partial byte, which is written to memory when it is full. -/
def State.packBit (s : State) (bit : Bool) : State :=
  let acc := setBit s.pacc (7 - s.pnb.toNat) bit
  if s.pnb.toNat + 1 = 8 then { s.putByte acc with pacc := 0, pnb := 0 }
  else { s with pacc := acc, pnb := s.pnb + 1 }

/-- R106's loop, `for i = w-1 downto 0`. -/
def State.packBits (s : State) (v : Code) : Nat → State
  | 0 => s
  | i + 1 => State.packBits (s.packBit (v.getLsbD i)) v i

/-- `pack_write(v, w)` (R106): everything, or OutputOverflow(v) with nothing changed. -/
def State.packWrite (s : State) (v : Code) (w : Nat) : Except Err State :=
  if s.outLen.toNat + (s.pnb.toNat + w) / 8 > s.dstCap.toNat then .error (Err.overflow v)
  else .ok { s.packBits v w with codeCount := s.codeCount + 1 }

/-- `pack_flush()` (R107): the partial byte goes out, or OutputOverflow(0) with nothing changed. -/
def State.packFlush (s : State) : Except Err State :=
  if s.pnb = 0 then .ok s
  else if s.outLen.toNat + 1 > s.dstCap.toNat then .error Err.flushOverflow
  else .ok { s.putByte s.pacc with pacc := 0, pnb := 0 }

/-! ### Commands -/

/-- The work of PINIT (R109). -/
def State.pinitBody (s : State) : State := s.packInit.complete

/-- The work of PWRITE (R110): the width is checked before the capacity (R170). -/
def State.pwriteBody (s : State) : State :=
  s.finish
    (if widthOk s.widthArg = false then .error (Err.illegal 6)
     else s.packWrite s.codeArg s.widthArg.toNat)

/-- The work of PFLUSH (R111). -/
def State.pflushBody (s : State) : State := s.finish s.packFlush

/-- PINIT (R109). -/
def execPinit (s : State) : Outcome := s.runPrimitive .pinit State.pinitBody

/-- PWRITE (R110). -/
def execPwrite (s : State) : Outcome := s.runPrimitive .pwrite State.pwriteBody

/-- PFLUSH (R111). -/
def execPflush (s : State) : Outcome := s.runPrimitive .pflush State.pflushBody

end Sys2Proof.Machine
end

