-- ==== Sys2Proof/Machine/Encoder.lean ====
section
/-! DEFINITION. The region check (20_memory.md R48) and the encoder state machine (44_encoder.md R123 to R128): one definition
for each row of R128's table, one engine step each. -/

namespace Sys2Proof.Machine

/-- `regions_ok(dst_len)` (R48), on unbounded integers: SRC wrap, DST wrap, then overlap (R170). -/
def State.regionsOk (s : State) (dstLen : Word) : Except Err Unit :=
  if s.srcAddr.toNat + s.srcLen.toNat > 2 ^ 32 then .error Err.srcWraps
  else if s.dstAddr.toNat + dstLen.toNat > 2 ^ 32 then .error Err.dstWraps
  else if s.srcLen.toNat > 0 ∧ dstLen.toNat > 0 ∧ s.srcAddr.toNat < s.dstAddr.toNat + dstLen.toNat
      ∧ s.dstAddr.toNat < s.srcAddr.toNat + s.srcLen.toNat then .error Err.overlap
  else .ok ()

/-- The checks that ENCODE and DECODE make when they start: the configuration, then the regions (R48, R126, R141, R170). -/
def State.startCheck (s : State) (dstLen : Word) : Except Err Unit :=
  match s.cfgCheck with
  | .error e => .error e
  | .ok () => s.regionsOk dstLen

/-- `emit(c, width_of(n))` (R125, R64). -/
def State.emit (s : State) (c : Code) (n : Nat) : Except Err State := s.packWrite c (s.acfg.widthOf n)

/-- ENC_START (R126, R128). -/
def State.encStartStep (s : State) : State :=
  match s.startCheck s.dstCap with
  | .error e => s.raise e
  | .ok () =>
    { s.latchAndInit.packInit with
      srcPos := 0, srcBit := 0, phase := if s.srcLen = 0 then .encFlush else .encFirst }

/-- ENC_FIRST (R126, R128): the code of the first byte is the byte itself (90_conflicts.md C11). -/
def State.encFirstStep (s : State) : State :=
  { s with cur := (s.memRead s.srcAddr).setWidth 16, srcPos := 1, phase := .encNext }

/-- ENC_NEXT (R126, R128). -/
def State.encNextStep (s : State) : State :=
  if s.srcPos = s.srcLen then { s with phase := .encFinal }
  else { s with b := s.memRead (s.srcAddr + s.srcPos), srcPos := s.srcPos + 1, phase := .encLookup }

/-- ENC_LOOKUP (R123, R126, R128). -/
def State.encLookupStep (s : State) : State :=
  match s.lookup s.cur s.b with
  | some r => { s with cur := r, phase := .encNext }
  | none => { s with phase := .encEmit }

/-- ENC_EMIT (R126, R128). -/
def State.encEmitStep (s : State) : State := s.goOn .encGrow (s.emit s.cur s.dsize)

/-- The table after a mismatch (R92 item 1, R126 ENC_GROW): the pair is inserted while the table is not full; else CLEAR is
emitted if CTRL = 1, and the table is emptied. -/
def State.growTable (s : State) : Except Err State :=
  if s.dsize < s.acfg.maxSize then .ok (s.insert s.cur s.b)
  else if s.acfg.ctrl then
    match s.emit clearCode s.dsize with
    | .error e => .error e
    | .ok t => .ok t.dictInit
  else .ok s.dictInit

/-- ENC_GROW (R126, R128). -/
def State.encGrowStep (s : State) : State :=
  s.goOn .encNext (match s.growTable with
    | .error e => .error e
    | .ok t => .ok { t with cur := s.b.setWidth 16 })

/-- ENC_FINAL (R126, R128). -/
def State.encFinalStep (s : State) : State := s.goOn .encEnd (s.emit s.cur s.dsize)

/-- ENC_END (R126, R128): END is written at `width_of(D.size + 1)` (R64). -/
def State.encEndStep (s : State) : State :=
  s.goOn .encFlush (if s.acfg.ctrl then s.emit endCode (s.dsize + 1) else .ok s)

/-- ENC_FLUSH (R126, R128). -/
def State.encFlushStep (s : State) : State := s.finish s.packFlush

end Sys2Proof.Machine
end

