-- ==== Sys2Proof/Machine/Unpacker.lean ====
section
/-! DEFINITION. The bit unpacker: its subroutines (43_bitunpack.md R115, R116) and the commands UINIT and UREAD (R118, R119). -/

namespace Sys2Proof.Machine

/-! ### Subroutines -/

/-- `unpack_init()` (R115). -/
def State.unpackInit (s : State) : State := { s with srcPos := 0, srcBit := 0, codeCount := 0 }

/-- The bit at the read position: `byte[7 - SRC_BIT]` of the byte at `SRC_ADDR + SRC_POS` (R116). -/
def State.nextBit (s : State) : Bool := (s.memRead (s.srcAddr + s.srcPos)).getLsbD (7 - s.srcBit.toNat)

/-- The read position moved by one bit (R116). -/
def State.skipBit (s : State) : State :=
  if s.srcBit.toNat = 7 then { s with srcBit := 0, srcPos := s.srcPos + 1 }
  else { s with srcBit := s.srcBit + 1 }

/-- R116's loop over the `w` bits still to read, `v` being the value of those already read. -/
def State.unpackBits (s : State) (v : Nat) : Nat → Nat × State
  | 0 => (v, s)
  | w + 1 => State.unpackBits s.skipBit (2 * v + bitOf s.nextBit) w

/-- `unpack_read(w)` (R116): the value read and the state after, or TruncatedStream(w) with nothing changed. -/
def State.unpackRead (s : State) (w : Nat) : Except Err (Code × State) :=
  if 8 * s.srcPos.toNat + s.srcBit.toNat + w > 8 * s.srcLen.toNat then .error (Err.truncated w)
  else
    let r := s.unpackBits 0 w
    .ok (BitVec.ofNat 16 r.1, { r.2 with codeCount := s.codeCount + 1 })

/-! ### Commands -/

/-- The work of UINIT (R118). -/
def State.uinitBody (s : State) : State := s.unpackInit.complete

/-- The work of UREAD (R119): the width is checked before the length (R170). -/
def State.ureadBody (s : State) : State :=
  s.finish
    (if widthOk s.widthArg = false then .error (Err.illegal 6)
     else
      match s.unpackRead s.widthArg.toNat with
      | .error e => .error e
      | .ok (v, t) => .ok { t with res := v.setWidth 32 })

/-- UINIT (R118). -/
def execUinit (s : State) : Outcome := s.runPrimitive .uinit State.uinitBody

/-- UREAD (R119). -/
def execUread (s : State) : Outcome := s.runPrimitive .uread State.ureadBody

end Sys2Proof.Machine
end

