-- ==== Sys2Proof/Machine/Decoder.lean ====
section
/-! DEFINITION. Code expansion (45_decoder.md R140) and the decoder state machine (R141 to R151): one definition for each row of
R151's table, one engine step each. -/

namespace Sys2Proof.Machine

/-- The walk of R140 from code `k` back to a singleton. `fuel` is `max_size - n`; `out` holds the symbols collected so far, the
last one first, which is the reversed order R140 asks for. `none` is an abort. -/
def State.walk (s : State) (k : Nat) (out : List Byte) : Nat → Option (List Byte)
  | 0 => if k < 256 then some (BitVec.ofNat 8 k :: out) else none
  | fuel + 1 =>
    if k < 256 then some (BitVec.ofNat 8 k :: out)
    else
      match s.entry? k with
      | none => none
      | some e => State.walk s e.pre.toNat (e.sym :: out) fuel

/-- `expand(c)` (R140): the string of a code, or CorruptStream of the code DECODE is handling. -/
def State.expand (s : State) (c : Code) : Except Err (List Byte) :=
  match s.walk c.toNat [] s.acfg.maxSize with
  | some str => .ok str
  | none => .error (Err.corrupt s.code)

/-- DEC_START (R141, R151). -/
def State.decStartStep (s : State) : State :=
  match s.startCheck s.targetLen with
  | .error e => s.raise e
  | .ok () => { s.latchAndInit.packInit.unpackInit with prevValid := false, phase := .decTest }

/-- DEC_TEST (R141, R150, R151). -/
def State.decTestStep (s : State) : State :=
  if s.outLen = s.targetLen then s.complete else { s with phase := .decRead }

/-- The width of the next read, `width_of(D.size + prev_valid)` (R142). -/
def State.readWidth (s : State) : Nat := s.acfg.widthOf (s.dsize + bitOf s.prevValid)

/-- DEC_READ (R141, R142, R151). -/
def State.decReadStep (s : State) : State :=
  match s.unpackRead s.readWidth with
  | .error e => s.raise e
  | .ok (v, t) => { t with code := v, phase := .decClassify }

/-- The string of the code just read, by the cases R144 to R147. -/
def State.codeString (s : State) : Except Err (List Byte) :=
  if s.prevValid = false then
    if s.code.toNat > 255 then .error (Err.corrupt s.code) else .ok [s.code.setWidth 8]
  else if s.code.toNat < s.dsize then s.expand s.code
  else if s.code.toNat = s.dsize then
    match s.expand s.prev with
    | .error e => .error e
    | .ok t => .ok (t ++ t.take 1)
  else .error (Err.corrupt s.code)

/-- DEC_CLASSIFY (R141, R143, R151): the control codes first, then the string. -/
def State.decClassifyStep (s : State) : State :=
  if s.acfg.ctrl ∧ s.code = clearCode then { s.dictInit with prevValid := false, phase := .decTest }
  else if s.acfg.ctrl ∧ s.code = endCode then s.raise (Err.length s.code)
  else if s.acfg.ctrl ∧ s.isFull then s.raise (Err.corrupt s.code)
  else
    match s.codeString with
    | .error e => s.raise e
    | .ok str => { s with seq := str, phase := .decWrite }

/-- DEC_WRITE (R141, R148, R151). -/
def State.decWriteStep (s : State) : State :=
  if s.outLen.toNat + s.seq.length > s.targetLen.toNat then s.raise (Err.length s.code)
  else { s.putBytes s.seq with phase := .decGrow }

/-- The insertion of R149: `(prev, seq[0])`, when there is a previous code and the table is not full. -/
def State.decInsert (s : State) : State :=
  if s.prevValid ∧ s.dsize < s.acfg.maxSize then s.insert s.prev (s.seq.headD 0) else s

/-- DEC_GROW (R141, R149, R151): the insertion, the previous code, and under CTRL = 0 the mirror of the encoder's reset. -/
def State.decGrowStep (s : State) : State :=
  let t := s.decInsert
  if t.acfg.ctrl = false ∧ t.isFull then
    { t.dictInit with prev := s.code, prevValid := false, phase := .decTest }
  else { t with prev := s.code, prevValid := true, phase := .decTest }

end Sys2Proof.Machine
end

