-- ==== Sys2Proof/Machine/Nop.lean ====
section
/-! DEFINITION. NOP (40_command.md R78). -/

namespace Sys2Proof.Machine

/-- The work of NOP: it completes. Acceptance has already cleared HIT, ERR and ERR_INFO (R75, R78). -/
def State.nopBody (s : State) : State := s.complete

/-- NOP (R78). -/
def execNop (s : State) : Outcome := s.runPrimitive .nop State.nopBody

end Sys2Proof.Machine
end

