-- ==== Sys2Proof/Machine/Engine.lean ====
section
/-! DEFINITION. The engine (10_state.md R33, 44_encoder.md R128, 45_decoder.md R151): one engine step, a command run to its end
(40_command.md R77, R79), and the two whole-buffer commands ENCODE and DECODE. -/

namespace Sys2Proof.Machine

/-- EXEC, the one state of every primitive command (R33, R77): the command in CMD runs whole. A word that names no primitive
never gets here (R75); for totality such a word is treated as R57 and R75 treat it. -/
def State.execStep (s : State) : State :=
  match decode s.cmd with
  | .error r => s.raise (illegalWordErr r)
  | .ok .nop => s.nopBody
  | .ok .dinit => s.dinitBody
  | .ok .dlookup => s.dlookupBody
  | .ok .dinsert => s.dinsertBody
  | .ok .dread => s.dreadBody
  | .ok .pinit => s.pinitBody
  | .ok .pwrite => s.pwriteBody
  | .ok .pflush => s.pflushBody
  | .ok .uinit => s.uinitBody
  | .ok .uread => s.ureadBody
  | .ok .encode => { s with phase := .encStart }
  | .ok .decode => { s with phase := .decStart }

/-- One engine step: one row of R128's or R151's table, or the whole of a primitive command (R77). An idle engine does
nothing (R180, R193). -/
def State.engineStep (s : State) : State :=
  match s.phase with
  | .idle => s
  | .exec => s.execStep
  | .encStart => s.encStartStep
  | .encFirst => s.encFirstStep
  | .encNext => s.encNextStep
  | .encLookup => s.encLookupStep
  | .encEmit => s.encEmitStep
  | .encGrow => s.encGrowStep
  | .encFinal => s.encFinalStep
  | .encEnd => s.encEndStep
  | .encFlush => s.encFlushStep
  | .decStart => s.decStartStep
  | .decTest => s.decTestStep
  | .decRead => s.decReadStep
  | .decClassify => s.decClassifyStep
  | .decWrite => s.decWriteStep
  | .decGrow => s.decGrowStep

/-- `n` engine steps. -/
def State.engineSteps (s : State) : Nat → State
  | 0 => s
  | n + 1 => State.engineSteps s.engineStep n

/-- Engine steps until the engine is idle (R77). The bound is the model's; running into it is the fault `engineOverrun`. -/
def State.runEngine (s : State) : Nat → Outcome
  | 0 => if s.phase = .idle then .next s else .fault .engineOverrun
  | n + 1 => if s.phase = .idle then .next s else State.runEngine s.engineStep n

/-- More engine steps than ENCODE takes: at most four for each source byte and six around them (R79, R128). -/
def State.encodeBound (s : State) : Nat := 4 * s.srcLen.toNat + 8

/-- More engine steps than DECODE takes: every code but the last uses nine bits or more, so there are at most SRC_LEN codes, of
five steps each (R79, R151). -/
def State.decodeBound (s : State) : Nat := 5 * s.srcLen.toNat + 8

/-- A write of the word of ENCODE or DECODE to CMD (R75, R77): ignored while the engine is busy (R40); accepted when it is idle,
and then the state machine runs to its end. -/
def State.runWhole (s : State) (i : Instr) (bound : Nat) : Outcome :=
  if s.phase = .idle then (s.accept (encode i) (firstPhase i)).runEngine bound else .next s

/-- ENCODE (R126), run to its end (R77). -/
def execEncode (s : State) : Outcome := s.runWhole .encode s.encodeBound

/-- DECODE (R141), run to its end (R77). -/
def execDecode (s : State) : Outcome := s.runWhole .decode s.decodeBound

end Sys2Proof.Machine
end

