-- ==== Sys2Proof/Machine/Dispatch.lean ====
section
/-! DEFINITION. One arm for each command. -/

namespace Sys2Proof.Machine

def exec (i : Instr) (s : State) : Host.Outcome State Fault Refusal :=
  match i with
  | .nop => Sys2Proof.Machine.execNop s
  | .dinit => Sys2Proof.Machine.execDinit s
  | .dlookup => Sys2Proof.Machine.execDlookup s
  | .dinsert => Sys2Proof.Machine.execDinsert s
  | .dread => Sys2Proof.Machine.execDread s
  | .pinit => Sys2Proof.Machine.execPinit s
  | .pwrite => Sys2Proof.Machine.execPwrite s
  | .pflush => Sys2Proof.Machine.execPflush s
  | .uinit => Sys2Proof.Machine.execUinit s
  | .uread => Sys2Proof.Machine.execUread s
  | .encode => Sys2Proof.Machine.execEncode s
  | .decode => Sys2Proof.Machine.execDecode s

end Sys2Proof.Machine
end

