-- ==== Sys2Proof/Machine/Registers.lean ====
section
/-! DEFINITION. The register block (10_state.md R21 to R40): which register an offset names, what a read returns, idle or busy, and
what a write of every register but CMD and CTRL does. -/

namespace Sys2Proof.Machine

/-- The registers of R22 by name. -/
inductive Csr where
  | id | ctrl | status | cfg | acfg | cmd | arg0 | arg1 | res
  | srcAddr | srcLen | dstAddr | dstCap | targetLen
  | dictSize | codeWidth | outLen | packState | srcPos | srcBit | codeCount | errInfo
  deriving DecidableEq, Repr

/-- The register at a byte offset (R21, R22): bits [7:2] are decoded, bits [1:0] are ignored.
An access whose bits [1:0] are not 0 is refused before it gets here (`State.portWrite`, `State.portRead`). `none` is an unmapped offset,
0x58 to 0xFC (R23). -/
def csrAt (off : BitVec 8) : Option Csr :=
  match off.toNat / 4 with
  | 0x00 => some .id
  | 0x01 => some .ctrl
  | 0x02 => some .status
  | 0x03 => some .cfg
  | 0x04 => some .acfg
  | 0x05 => some .cmd
  | 0x06 => some .arg0
  | 0x07 => some .arg1
  | 0x08 => some .res
  | 0x09 => some .srcAddr
  | 0x0A => some .srcLen
  | 0x0B => some .dstAddr
  | 0x0C => some .dstCap
  | 0x0D => some .targetLen
  | 0x0E => some .dictSize
  | 0x0F => some .codeWidth
  | 0x10 => some .outLen
  | 0x11 => some .packState
  | 0x12 => some .srcPos
  | 0x13 => some .srcBit
  | 0x14 => some .codeCount
  | 0x15 => some .errInfo
  | _ => none

/-- The offset of a register (R22). -/
def Csr.offset (r : Csr) : BitVec 8 :=
  match r with
  | .id => 0x00
  | .ctrl => 0x04
  | .status => 0x08
  | .cfg => 0x0C
  | .acfg => 0x10
  | .cmd => 0x14
  | .arg0 => 0x18
  | .arg1 => 0x1C
  | .res => 0x20
  | .srcAddr => 0x24
  | .srcLen => 0x28
  | .dstAddr => 0x2C
  | .dstCap => 0x30
  | .targetLen => 0x34
  | .dictSize => 0x38
  | .codeWidth => 0x3C
  | .outLen => 0x40
  | .packState => 0x44
  | .srcPos => 0x48
  | .srcBit => 0x4C
  | .codeCount => 0x50
  | .errInfo => 0x54

/-- The bus address of a register offset (R21, R60): `P_CSR_BASE + offset`. -/
def busAddr (off : BitVec 8) : Word := Config.csrBase + off.setWidth 32

/-- The register offset of a bus address, if the address is in the block of 0x100 bytes at P_CSR_BASE (R21). -/
def busOffset (a : Word) : Option (BitVec 8) :=
  if (a - Config.csrBase).toNat < 0x100 then some ((a - Config.csrBase).setWidth 8) else none

/-- ID (R24): "LZ", revision 1, and P_MAXW. -/
def idWord : Word := 0x4C5A0100#32 ||| BitVec.ofNat 32 Config.pMaxw

/-- PACK_STATE (R34). -/
def State.packState (s : State) : Word := (s.pnb.setWidth 32 <<< 8) ||| s.pacc.setWidth 32

/-- DICT_SIZE (R30): `D.size` in bits 16:0. -/
def State.dictSizeWord (s : State) : Word := (BitVec.ofNat 17 s.dsize).setWidth 32

/-- CODE_WIDTH (R30): `width_of(D.size)` in bits 4:0. -/
def State.codeWidthWord (s : State) : Word := (BitVec.ofNat 5 (s.acfg.widthOf s.dsize)).setWidth 32

/-- What a read of a register returns while the engine is idle (R22 to R37). -/
def State.csrIdle (s : State) (r : Csr) : Word :=
  match r with
  | .id => idWord
  | .ctrl => (BitVec.ofBool s.ie).setWidth 32
  | .status => s.statusWord
  | .cfg => s.cfg.toWord
  | .acfg => s.acfg.toWord
  | .cmd => 0
  | .arg0 => s.arg0
  | .arg1 => s.arg1
  | .res => s.res
  | .srcAddr => s.srcAddr
  | .srcLen => s.srcLen
  | .dstAddr => s.dstAddr
  | .dstCap => s.dstCap
  | .targetLen => s.targetLen
  | .dictSize => s.dictSizeWord
  | .codeWidth => s.codeWidthWord
  | .outLen => s.outLen
  | .packState => s.packState
  | .srcPos => s.srcPos
  | .srcBit => s.srcBit.setWidth 32
  | .codeCount => s.codeCount
  | .errInfo => s.errInfo

/-- What a read of a register returns while the engine is busy (R39). `v` is the free value drawn for this read. -/
def State.csrBusy (s : State) (v : Word) (r : Csr) : Word :=
  match r with
  | .status => busyStatusWord v
  | .id | .ctrl | .cfg | .arg0 | .arg1 | .srcAddr | .srcLen | .dstAddr | .dstCap | .targetLen => s.csrIdle r
  | .cmd => 0
  | .res | .acfg | .dictSize | .codeWidth | .outLen | .packState | .srcPos | .srcBit | .codeCount | .errInfo => v

/-- What a read at an offset returns (R23, R39): an unmapped offset reads 0. -/
def State.csrValue (s : State) (off : BitVec 8) : Word :=
  match csrAt off with
  | none => 0
  | some r => bif s.busy then s.csrBusy (Config.busyValue s.draws) r else s.csrIdle r

/-- `csrr` (R60): the value is observed, and nothing else changes. A read while busy uses up one free value (R39). -/
def State.csrRead (s : State) (off : BitVec 8) : State :=
  (bif s.busy then s.drawn else s).observe (.reg off (s.csrValue off))

/-- A write of a register that a running command must not see change (R40): ignored while busy. -/
def State.setOperand (s t : State) : State := bif s.busy then s else t

/-- A write of STATUS (R28): a 1 in bit 1 clears DONE, and nothing else of the value counts. -/
def State.writeStatus (s : State) (v : Word) : State := bif v.getLsbD 1 then { s with done := false } else s

/-- A write of a register that neither starts a command nor resets the block (R22, R23, R26, R28, R31, R32, R40). Writes of CTRL
and CMD are `State.writeCtrl` and `State.writeCmd` (Machine/HostPort.lean). -/
def State.csrStore (s : State) (r : Csr) (v : Word) : State :=
  match r with
  | .status => s.writeStatus v
  | .cfg => s.setOperand { s with cfg := CfgFields.ofWord v }
  | .arg0 => s.setOperand { s with arg0 := v }
  | .arg1 => s.setOperand { s with arg1 := v }
  | .srcAddr => s.setOperand { s with srcAddr := v }
  | .srcLen => s.setOperand { s with srcLen := v }
  | .dstAddr => s.setOperand { s with dstAddr := v }
  | .dstCap => s.setOperand { s with dstCap := v }
  | .targetLen => s.setOperand { s with targetLen := v }
  | .ctrl | .cmd => s
  | .id | .acfg | .res | .dictSize | .codeWidth | .outLen | .packState | .srcPos | .srcBit | .codeCount | .errInfo => s

end Sys2Proof.Machine
end

