-- ==== Sys2Proof/Machine/HostPort.lean ====
section
/-! DEFINITION. The host's side (30_encoding.md R60, 70_reset_and_hazards.md R190 to R199): resets, writes of CTRL and CMD, the host's
memory accesses, and how host accesses and engine steps are put in one order (60_exceptions.md R174). -/

namespace Sys2Proof.Machine

/-! ### Reset -/

/-- The memory after `k` bytes of the engine step under way have been written (R192): they are the bytes `DST_ADDR + OUT_LEN`,
`DST_ADDR + OUT_LEN + 1`, … with the values that step gives them (R50). -/
def State.partialMem (s : State) : Nat → Memory
  | 0 => s.mem
  | k + 1 =>
    let a := (s.dstAddr + s.outLen + BitVec.ofNat 32 k).toNat
    (s.partialMem k).write a (s.engineStep.mem.read a)

/-- How many bytes the engine step under way writes (R50). -/
def State.stepBytes (s : State) : Nat := s.engineStep.outLen.toNat - s.outLen.toNat

/-- A reset from either source (R190, R191). While busy it aborts the command (R192): the bytes written by the steps already made stay,
and so do the first few bytes of the step under way, however many the free value says (93_implementation_defined.md U4). -/
def State.doReset (s : State) : State :=
  bif s.busy then s.drawn.resetTo (s.partialMem (min (Config.abortCut s.draws) s.stepBytes)) else s.resetTo s.mem

/-- A write of CTRL (R25, R40, R199): SRST = 1 resets and does not set IE; otherwise IE takes bit 0. -/
def State.writeCtrl (s : State) (v : Word) : State :=
  bif v.getLsbD 1 then s.doReset else { s with ie := v.getLsbD 0 }

/-! ### Starting a command -/

/-- The host's next access comes only when the engine is idle again: it has none, or it waits (R60, R198). -/
def hostWaits (host : List HostEvent) : Bool :=
  match host with
  | [] => true
  | ev :: _ => decide (ev.op = .wait)

/-- A write of `w` to CMD (R57, R75). Ignored while busy (R40). An illegal word is accepted and raises IllegalCommand in the same
step. A command runs to its end as one transition when the host waits for it (R77); otherwise it is only accepted, and
its engine steps are interleaved with the host's accesses. -/
def State.writeCmd (s : State) (w : Word) : Outcome :=
  bif s.busy then .next s
  else
    match decode w with
    | .error r => .next ((s.accept w .exec).raise (illegalWordErr r))
    | .ok i => bif hostWaits s.host then exec i s else .next (s.accept w (firstPhase i))

/-- `csrw` at an offset (R21, R22, R23, R40): an unmapped offset ignores the write. -/
def State.csrWrite (s : State) (off : BitVec 8) (v : Word) : Outcome :=
  match csrAt off with
  | none => .next s
  | some .ctrl => .next (s.writeCtrl v)
  | some .cmd => s.writeCmd v
  | some r => .next (s.csrStore r v)

/-! ### The host's memory accesses -/

/-- One of the `n` bytes from `a` is in a region. -/
def anyByte (inside : Word → Bool) (a : Word) : Nat → Bool
  | 0 => false
  | n + 1 => inside a || anyByte inside (a + 1) n

/-- `memw` (R51, R60): a write of a byte of the SRC or DST region while busy is refused. -/
def State.hostMemWrite (s : State) (a : Word) (bytes : List Byte) : Outcome :=
  bif s.busy && anyByte (fun x => s.inSrc x || s.inDst x) a bytes.length then .refused .handsOff
  else .next (s.memWriteList a bytes)

/-- What the host reads of memory while busy: a byte of the DST region is a free value (93_implementation_defined.md U7). -/
def State.busyMemList (s : State) (a : Word) : Nat → List Byte
  | 0 => []
  | n + 1 =>
    (bif s.inDst a then Config.busyByte s.draws a.toNat else s.memRead a) :: State.busyMemList s (a + 1) n

/-- `memr` (R51, R60): a read of a byte of the SRC region while busy is refused. -/
def State.hostMemRead (s : State) (a : Word) (n : Nat) : Outcome :=
  bif s.busy then
    bif anyByte s.inSrc a n then .refused .handsOff
    else .next (s.drawn.observe (.mem a (s.busyMemList a n)))
  else .next (s.observe (.mem a (s.memReadList a n)))

/-! ### One host access -/

/-- A 32-bit register write at an offset: no step at an offset that is no multiple of 4 (R195 item 4, log entry 13). -/
def State.portWrite (s : State) (off : BitVec 8) (v : Word) : Outcome :=
  bif wordAligned off then s.csrWrite off v else .refused .misalignedAccess

/-- A 32-bit register read at an offset: no step at an offset that is no multiple of 4 (R195 item 4, log entry 13). -/
def State.portRead (s : State) (off : BitVec 8) : Outcome :=
  bif wordAligned off then .next (s.csrRead off) else .refused .misalignedAccess

/-- One access by the host or the platform. -/
def State.hostAccess (s : State) (op : HostOp) : Outcome :=
  match op with
  | .csrWrite off v => s.portWrite off v
  | .csrRead off => s.portRead off
  | .busWrite a v =>
    match busOffset a with
    | none => .refused .outsideBlock
    | some off => s.portWrite off v
  | .busRead a =>
    match busOffset a with
    | none => .refused .outsideBlock
    | some off => s.portRead off
  | .csrNarrow _ _ => .refused .narrowAccess
  | .memWrite a bytes => s.hostMemWrite a bytes
  | .memRead a n => s.hostMemRead a n
  | .wait => .next (s.csrRead (Csr.offset .status))
  | .hardReset => .next s.doReset

/-! ### The order of events -/

/-- The next event (R174): a host access if the engine is idle or the access is due, else one engine step. With no host access left,
a busy engine makes a step and an idle one does nothing (R180, R193, R196). A `wait` lets a busy engine go on (R60). -/
def State.advance (s : State) : Outcome :=
  match s.host with
  | [] => .next s.engineStep
  | ev :: rest =>
    if s.phase = .idle then State.hostAccess { s with host := rest } ev.op
    else if ev.op = .wait then .next s.engineStep
    else
      match ev.after with
      | 0 => State.hostAccess { s with host := rest } ev.op
      | k + 1 => .next ({ s with host := { ev with after := k } :: rest }).engineStep

end Sys2Proof.Machine
end

