-- ==== Sys2Proof/Machine/Step.lean ====
section
/-! DEFINITION. The step, and how a command word is put where the next step takes it. -/

namespace Sys2Proof.Machine

/-- One step of the machine: the next host access or engine step in the one order of 60_exceptions.md R174. -/
def step (s : State) : Host.Outcome State Fault Refusal := s.advance

/-- `s` with the command word `w` about to be written to CMD by the host: LZWC fetches nothing from memory (20_memory.md R53), its
commands arrive as writes to CMD, accepted when the engine is idle (40_command.md R75). -/
def State.withFetchWord (s : State) (nbits w : Nat) : State :=
  { s with phase := .idle, host := [⟨0, .csrWrite 0x14 (BitVec.ofNat 32 (w % 2 ^ nbits))⟩] }

end Sys2Proof.Machine
end

