-- ==== Sys2Proof/Machine/HostProgram.lean ====
section
/-! DEFINITION. The host's operations and pseudo-instructions by name, with their expansions (30_encoding.md R60, R61). -/

namespace Sys2Proof.Machine

/-- An access made as soon as the host's turn comes. -/
def HostOp.now (op : HostOp) : HostEvent := ⟨0, op⟩

/-- `csrw NAME, v` (R60). -/
def csrw (r : Csr) (v : Word) : List HostEvent := [HostOp.now (.csrWrite r.offset v)]

/-- `csrr NAME` (R60). -/
def csrr (r : Csr) : List HostEvent := [HostOp.now (.csrRead r.offset)]

/-- `cmd MNEMONIC` (R60): `csrw CMD, OP(MNEMONIC)`. -/
def lzwCmd (i : Instr) : List HostEvent := csrw .cmd (encode i)

/-- `wait` (R60). -/
def waitIdle : List HostEvent := [HostOp.now .wait]

/-- `memw a, b0 b1 …` (R60). -/
def memw (a : Word) (bytes : List Byte) : List HostEvent := [HostOp.now (.memWrite a bytes)]

/-- `memr a, n` (R60). -/
def memr (a : Word) (n : Nat) : List HostEvent := [HostOp.now (.memRead a n)]

/-- `run M` (R61). -/
def lzwRun (i : Instr) : List HostEvent := lzwCmd i ++ waitIdle

/-- `lzw.config mw, iw, ct` (R61). -/
def lzwConfig (mw iw ct : Word) : List HostEvent := csrw .cfg ((ct <<< 16) ||| (iw <<< 8) ||| mw)

/-- `lzw.encode s, n, d, c` (R61). -/
def lzwEncode (s n d c : Word) : List HostEvent :=
  csrw .srcAddr s ++ csrw .srcLen n ++ csrw .dstAddr d ++ csrw .dstCap c ++ lzwRun .encode

/-- `lzw.decode s, n, d, t` (R61). -/
def lzwDecode (s n d t : Word) : List HostEvent :=
  csrw .srcAddr s ++ csrw .srcLen n ++ csrw .dstAddr d ++ csrw .targetLen t ++ lzwRun .decode

/-- `lzw.lookup p, y` (R61). -/
def lzwLookup (p y : Word) : List HostEvent := csrw .arg0 p ++ csrw .arg1 y ++ lzwRun .dlookup

/-- `lzw.insert p, y` (R61). -/
def lzwInsert (p y : Word) : List HostEvent := csrw .arg0 p ++ csrw .arg1 y ++ lzwRun .dinsert

/-- `lzw.read c` (R61). -/
def lzwRead (c : Word) : List HostEvent := csrw .arg0 c ++ lzwRun .dread

/-- `lzw.pwrite v, w` (R61). -/
def lzwPwrite (v w : Word) : List HostEvent := csrw .arg0 v ++ csrw .arg1 w ++ lzwRun .pwrite

/-- `lzw.uread w` (R61). -/
def lzwUread (w : Word) : List HostEvent := csrw .arg1 w ++ lzwRun .uread

end Sys2Proof.Machine
end

