-- ==== Sys2Proof/Safety.lean ====
section
/-! DEFINITION. What a safe run is on this hardware: the invariant that every step keeps (10_state.md R42, R27, R33, R39, R40), the
frames in which claims say what a command leaves alone, and the stream of bits that the packer has written (30_encoding.md R66). -/

namespace Sys2Proof.Machine

/-! ### The invariant -/

/-- Every entry links to an earlier code that is no reserved code (R42 item 2). -/
def State.LinksBack (s : State) : Prop :=
  ∀ (n : Nat) (e : Entry), s.dict[n]? = some e →
    e.pre.toNat < s.acfg.firstFree + n ∧ (e.pre.toNat ≤ 255 ∨ s.acfg.firstFree ≤ e.pre.toNat)

/-- The bits of PACC below the pending ones are 0 (R42 item 4). -/
def State.PadZero (s : State) : Prop := ∀ i : Nat, i < 8 - s.pnb.toNat → s.pacc.getLsbD i = false

/-- In the decoder, the previous code is an entry, and the table is not left full under CTRL = 0 (R149). -/
def State.PrevOk (s : State) : Prop :=
  s.prevValid = true → s.isEntry s.prev.toNat = true ∧ (s.acfg.ctrl = false → s.dsize < s.acfg.maxSize)

/-- In DEC_WRITE and DEC_GROW, the code in hand is an entry, or the KwKwK code with room for it; and with a previous code there is
room for the entry to come (R144 to R147, R149). -/
def State.CodeOk (s : State) : Prop :=
  (s.prevValid = true → s.isEntry s.prev.toNat = true ∧ s.dsize < s.acfg.maxSize) ∧
  (s.isEntry s.code.toNat = true ∨ (s.prevValid = true ∧ s.code.toNat = s.dsize)) ∧
  (s.prevValid = false → s.code.toNat ≤ 255)

/-- What the working registers hold in each phase (R33, R38). -/
def State.WorkOk (s : State) : Prop :=
  match s.phase with
  | .encNext | .encLookup | .encEmit | .encGrow | .encFinal => s.isEntry s.cur.toNat = true
  | .decTest | .decRead | .decClassify => s.PrevOk
  | .decWrite | .decGrow => s.CodeOk
  | .exec => ∃ i : Instr, decode s.cmd = .ok i ∧ firstPhase i = .exec
  | .idle | .encStart | .encFirst | .encEnd | .encFlush | .decStart => True

/-- The invariant of LZWC. -/
structure State.Inv (s : State) : Prop where
  /-- ACFG holds a legal configuration (R27). -/
  legal : s.acfg.legal = true
  /-- `D.size ≤ max_size` (R42 item 1); `FIRST_FREE ≤ D.size` holds by the way the table is held. -/
  size : s.dsize ≤ s.acfg.maxSize
  /-- R42 item 2. -/
  links : s.LinksBack
  /-- R42 item 4. -/
  pad : s.PadZero
  /-- The memory is in canonical form. -/
  mem : s.mem.wf = true
  /-- While the engine is busy DONE, HIT and ERR are clear (R39, R40, R75). -/
  clean : s.phase ≠ .idle → s.done = false ∧ s.hit = false ∧ s.err = none
  /-- The working registers fit the phase. -/
  work : s.WorkOk

/-! ### Frames -/

/-- The operand registers and CTRL.IE, which no command writes (R40, R56). -/
def SameOperands (s t : State) : Prop :=
  t.ie = s.ie ∧ t.cfg = s.cfg ∧ t.arg0 = s.arg0 ∧ t.arg1 = s.arg1 ∧ t.srcAddr = s.srcAddr ∧ t.srcLen = s.srcLen ∧
  t.dstAddr = s.dstAddr ∧ t.dstCap = s.dstCap ∧ t.targetLen = s.targetLen

/-- The active configuration and the dictionary table (R27, R29). -/
def SameTable (s t : State) : Prop := t.acfg = s.acfg ∧ t.dict = s.dict

/-- The packer's registers (R34). -/
def SamePacker (s t : State) : Prop := t.pacc = s.pacc ∧ t.pnb = s.pnb ∧ t.outLen = s.outLen

/-- The unpacker's registers (R35). -/
def SameUnpacker (s t : State) : Prop := t.srcPos = s.srcPos ∧ t.srcBit = s.srcBit

/-- The encoder's working registers (R38). -/
def SameEncoderWork (s t : State) : Prop := t.cur = s.cur ∧ t.b = s.b

/-- The decoder's working registers (R38). -/
def SameDecoderWork (s t : State) : Prop :=
  t.prev = s.prev ∧ t.prevValid = s.prevValid ∧ t.code = s.code ∧ t.seq = s.seq

/-- Every byte of memory reads as before. -/
def SameMemory (s t : State) : Prop := ∀ a : Nat, t.mem.read a = s.mem.read a

/-- Every byte of memory reads as before, but for the bytes `DST_ADDR + i` with `lo ≤ i < hi`. -/
def SameMemoryBut (s t : State) (lo hi : Nat) : Prop :=
  ∀ a : Nat, (∀ i : Nat, lo ≤ i → i < hi → a ≠ (s.dstAddr + BitVec.ofNat 32 i).toNat) → t.mem.read a = s.mem.read a

/-- The host's own lists, which no command writes. -/
def SameHost (s t : State) : Prop := t.host = s.host ∧ t.obs = s.obs ∧ t.draws = s.draws

/-- `s` after command `i` has completed with no effect of its own: what acceptance and completion leave (R75, R76). -/
def State.ended (s : State) (i : Instr) : State :=
  { s with done := true, hit := false, err := none, errInfo := 0, cmd := encode i }

/-- `s` after command `i` has ended with the error `e` and no effect of its own: what acceptance and the error ending leave
(R75, R168). -/
def State.failed (s : State) (i : Instr) (e : Err) : State :=
  { s with done := true, hit := false, err := some e.kind, errInfo := e.info, cmd := encode i }

/-- Command `i` has completed without an error, and `t` is the state after (R75, R76). -/
def Completed (i : Instr) (t : State) : Prop :=
  t.phase = .idle ∧ t.done = true ∧ t.hit = false ∧ t.err = none ∧ t.errInfo = 0 ∧ t.cmd = encode i

/-! ### Streams of bits in memory -/

/-- The number of bits written since the last `pack_init` (R34). -/
def State.bitsOut (s : State) : Nat := 8 * s.outLen.toNat + s.pnb.toNat

/-- The index of the next source bit (R116). -/
def State.bitsIn (s : State) : Nat := 8 * s.srcPos.toNat + s.srcBit.toNat

/-- Bit `k` of the packed stream at DST_ADDR, counting the pending bits of PACC after the `8 × OUT_LEN` bits in memory (R34, R66). -/
def State.outBit (s : State) (k : Nat) : Bool :=
  if k < 8 * s.outLen.toNat then (s.mem.read (s.dstAddr + BitVec.ofNat 32 (k / 8)).toNat).getLsbD (7 - k % 8)
  else s.pacc.getLsbD (7 - k % 8)

/-- Bit `k` of the packed stream at SRC_ADDR (R66, R116). -/
def State.inBit (s : State) (k : Nat) : Bool :=
  (s.mem.read (s.srcAddr + BitVec.ofNat 32 (k / 8)).toNat).getLsbD (7 - k % 8)

/-- `pack_write` on each pair of a value and a width, in order (R106, R108). -/
def State.packAll (s : State) : List (Code × Nat) → Except Err State
  | [] => .ok s
  | (v, w) :: l =>
    match s.packWrite v w with
    | .error e => .error e
    | .ok t => State.packAll t l

/-- `unpack_read` at each width, in order (R116, R117). -/
def State.unpackAll (s : State) : List Nat → Except Err (List Code × State)
  | [] => .ok ([], s)
  | w :: l =>
    match s.unpackRead w with
    | .error e => .error e
    | .ok (v, t) =>
      match State.unpackAll t l with
      | .error e => .error e
      | .ok (vs, u) => .ok (v :: vs, u)

/-- The two regions as ENCODE and DECODE want them (R48): neither wraps, and they share no byte. -/
def State.RegionsFit (s : State) (dstLen : Word) : Prop :=
  s.srcAddr.toNat + s.srcLen.toNat ≤ 2 ^ 32 ∧ s.dstAddr.toNat + dstLen.toNat ≤ 2 ^ 32 ∧
  (s.srcLen.toNat = 0 ∨ dstLen.toNat = 0 ∨ s.dstAddr.toNat + dstLen.toNat ≤ s.srcAddr.toNat ∨
    s.srcAddr.toNat + s.srcLen.toNat ≤ s.dstAddr.toNat)

end Sys2Proof.Machine
end

