-- ==== Sys2Proof/Safety/Textbook.lean ====
section
/-! DEFINITION. LZW as the source describes it, over strings and with no machine: the packed code stream of 30_encoding.md R62 to R66
and the greedy encoder of 44_encoder.md (R123 to R127), whose dictionary is a list of STRINGS. Claims compare the engine, whose
dictionary is a table of links, with this. Nothing of the machine uses it. -/

namespace Sys2Proof.Textbook

open Sys2Proof.Machine

/-- `bits(c, w)` of R62: the `w` bits of `c`, most significant first. -/
def bits (c w : Nat) : List Bool := (List.range w).map fun j => c.testBit (w - 1 - j)

/-- One code with the width it is written at (R62). -/
structure Emission where
  code  : Nat
  width : Nat
  deriving DecidableEq, Repr

/-- The bit string of a list of emissions (R62). -/
def streamBits (es : List Emission) : List Bool := es.flatMap fun e => bits e.code e.width

/-- Eight bits as a byte, the first one most significant; missing bits are 0 (R66). -/
def byteOf (l : List Bool) : Byte :=
  BitVec.ofNat 8 ((List.range 8).foldl (fun acc i => 2 * acc + bitOf (l.getD i false)) 0)

/-- The bytes of a bit string, zero-padded to a whole byte: `ceil(total_bits / 8)` of them (R66). -/
def bytesOf (l : List Bool) : List Byte := (List.range ((l.length + 7) / 8)).map fun j => byteOf (l.drop (8 * j))

/-- The bytes of a list of emissions. -/
def stream (es : List Emission) : List Byte := bytesOf (streamBits es)

/-- The code of a string (R63): a singleton is its byte; a longer string has the code of its place in the dictionary, the first place
being FIRST_FREE. -/
def codeOf (c : CfgFields) (d : List (List Byte)) (w : List Byte) : Nat :=
  match w with
  | [x] => x.toNat
  | _ => c.firstFree + d.findIdx (· == w)

/-- The size of a dictionary of strings: the next code to assign (R29). -/
def sizeOf (c : CfgFields) (d : List (List Byte)) : Nat := c.firstFree + d.length

/-- The greedy encoder (R123, R126): `d` is the dictionary, `w` the string matched so far, and the list is the input still to read. On
a mismatch the code of `w` goes out; then the longer string enters the dictionary, or, when the dictionary is full, CLEAR goes
out if CTRL = 1 and the dictionary is emptied. At the end the code of `w` goes out, and END if CTRL = 1 (R64, R65). -/
def encodeFrom (c : CfgFields) (d : List (List Byte)) (w : List Byte) : List Byte → List Emission
  | [] =>
    ⟨codeOf c d w, c.widthOf (sizeOf c d)⟩ :: (if c.ctrl then [⟨257, c.widthOf (sizeOf c d + 1)⟩] else [])
  | b :: rest =>
    if w ++ [b] ∈ d then encodeFrom c d (w ++ [b]) rest
    else
      ⟨codeOf c d w, c.widthOf (sizeOf c d)⟩ ::
        (if sizeOf c d < c.maxSize then encodeFrom c (d ++ [w ++ [b]]) [b] rest
         else if c.ctrl then ⟨256, c.widthOf (sizeOf c d)⟩ :: encodeFrom c [] [b] rest
         else encodeFrom c [] [b] rest)

/-- The emissions for an input (R126); none for an empty one (R130 item 1). -/
def encode (c : CfgFields) (input : List Byte) : List Emission :=
  match input with
  | [] => []
  | b :: rest => encodeFrom c [] [b] rest

/-- The packed stream for an input. -/
def compress (c : CfgFields) (input : List Byte) : List Byte := stream (encode c input)

end Sys2Proof.Textbook
end

