-- ==== Sys2Proof/Certificates/Slice0/Obligations.lean ====
section
/-! DEFINITION. The statements for the provers. Each docstring names the rule of spec/ it formalises. `State.ended` and `State.failed`
(Safety.lean) are what acceptance with completion, and acceptance with an error, leave: an equation with one of them says the whole
next state, so it is the frame as well. -/

open Sys2Proof Sys2Proof.Machine

/-! ### Encoding -/

/-- 30_encoding.md R56: the words of the twelve commands, and words that R57 refuses, as the spec writes them. -/
def Obligations.CommandWordsDecodeByTheOpcodeMap : Prop :=
  decode 0x00000000 = .ok .nop ∧ decode 0x00000001 = .ok .dinit ∧ decode 0x00000002 = .ok .dlookup ∧
  decode 0x00000003 = .ok .dinsert ∧ decode 0x00000004 = .ok .dread ∧ decode 0x00000005 = .ok .pinit ∧
  decode 0x00000006 = .ok .pwrite ∧ decode 0x00000007 = .ok .pflush ∧ decode 0x00000008 = .ok .uinit ∧
  decode 0x00000009 = .ok .uread ∧ decode 0x0000000A = .ok .encode ∧ decode 0x0000000B = .ok .decode ∧
  decode 0x0000000C = .error .unassignedOpcode ∧ decode 0x0000000F = .error .unassignedOpcode ∧
  decode 0x00000010 = .error .reservedBits ∧ decode 0x80000000 = .error .reservedBits ∧
  decode 0x0000001C = .error .reservedBits ∧ decode 0x0000010A = .error .reservedBits

/-- R55, R56: every well-formed command is read back from its word, which has no bit above OP. -/
def Obligations.EncodeThenDecodeIsTheCommand : Prop :=
  ∀ i : Instr, i.wf = true → decode (encode i) = .ok i ∧ (encode i).toNat < 12

/-- R57: every 32-bit word is a command's word, or refused with the reserved bits checked before the opcode. -/
def Obligations.EveryWordDecodesByItsFields : Prop :=
  ∀ w : Word,
    (16 ≤ w.toNat → decode w = .error .reservedBits) ∧
    (12 ≤ w.toNat → w.toNat < 16 → decode w = .error .unassignedOpcode) ∧
    (w.toNat < 12 → ∃ i : Instr, decode w = .ok i ∧ encode i = w)

/-- R57, R75: a word written to CMD while the engine is idle is dispatched to the command of its opcode: it is `exec` of that command when
the host waits for it, and else the command is accepted and stands in its first phase (O6 says where its steps lead). Any other word
raises IllegalCommand(2) or (1), reserved bits first, in the same step, and changes nothing but what acceptance and the error ending
change. R57 knows no host that waits: that case split is the model's (log entries 3 and 6), and so is CMD's value (log entry 2). -/
def Obligations.CommandWordsDispatchOrRaise : Prop :=
  ∀ (s : State) (w : Word), s.phase = .idle →
    (w.toNat < 12 → hostWaits s.host = true → ∃ i : Instr, encode i = w ∧ s.csrWrite 0x14 w = exec i s) ∧
    (w.toNat < 12 → hostWaits s.host = false → ∃ i : Instr, encode i = w ∧ s.csrWrite 0x14 w = .next { s with
      done := false, hit := false, err := none, errInfo := 0, cmd := w,
      phase := if i = .encode then .encStart else if i = .decode then .decStart else .exec }) ∧
    (12 ≤ w.toNat → s.csrWrite 0x14 w = .next { s with
      done := true, hit := false, err := some .illegalCommand, errInfo := if w.extractLsb' 4 28 ≠ 0 then 2 else 1, cmd := w })

/-! ### The step -/

/-- R75, R77: a step whose next host access writes a command's word to CMD, by its offset or its bus address, with the engine idle and the
host waiting for the command (or with nothing else to do), is `exec` of that command, the access being made. The host's list and the
condition that it waits are the model's (log entries 3 and 6). -/
def Obligations.StepRunsTheDecodedCommand : Prop :=
  ∀ (s : State) (k : Nat) (op : HostOp) (w : Word) (rest : List HostEvent) (i : Instr),
    s.phase = .idle → op = .csrWrite 0x14 w ∨ op = .busWrite (Config.csrBase + 0x14) w → s.host = ⟨k, op⟩ :: rest →
    hostWaits rest = true → decode w = .ok i → step s = exec i { s with host := rest }

/-- R77: when the host does not wait, the command is accepted and its engine steps are interleaved with the host's accesses; if none of
them falls before the command ends, the machine reaches the state that the whole run reaches. -/
def Obligations.InterleavedRunsEndWhereWholeRunsEnd : Prop :=
  ∀ (i : Instr) (s t : State), s.phase = .idle → exec i s = .next t →
    ∃ n : Nat, ∀ (j k : Nat) (op : HostOp) (rest : List HostEvent), n ≤ k → op ≠ .wait →
      Host.Core.run Sys2Proof.core (n + 1)
        { s with host := ⟨j, .csrWrite 0x14 (encode i)⟩ :: ⟨k, op⟩ :: rest } = .next { t with host := ⟨k - n, op⟩ :: rest }

/-- 40_command.md R79, 70_reset_and_hazards.md R200: every command written to CMD while the engine is idle ends, with DONE set; none is
refused and none stops the machine. -/
def Obligations.EveryCommandTerminates : Prop :=
  ∀ (i : Instr) (s : State), s.phase = .idle → ∃ t, exec i s = .next t ∧ t.phase = .idle ∧ t.done = true

/-- R79, R196: from every state that meets the invariant, in the middle of any command, the engine becomes idle after finitely many of
its steps. -/
def Obligations.BusyEngineFinishes : Prop :=
  ∀ s : State, s.Inv → ∃ n : Nat, (s.engineSteps n).phase = .idle

/-! ### The invariant -/

/-- 10_state.md R42 with R27, R39 and the canonical form of memory: whatever one step is, a host access or an engine step, it keeps
the invariant. -/
def Obligations.EveryStepKeepsTheInvariant : Prop :=
  ∀ s t : State, s.Inv → step s = .next t → t.Inv

/-- R41, R42: the state after reset meets the invariant. -/
def Obligations.ResetMeetsTheInvariant : Prop := State.reset.Inv

/-- R42 item 3, 45_decoder.md R140, 44_encoder.md R124: under the invariant every allocated, non-reserved code has a string; `expand` never
aborts on it; it is one byte for a singleton, at most `c - FIRST_FREE + 2` bytes for another code, and it is the string of the
entry's prefix followed by the entry's symbol. -/
def Obligations.EveryEntryHasAShortString : Prop :=
  ∀ (s : State) (c : Code), s.Inv → s.isEntry c.toNat = true → ∃ str : List Byte, s.expand c = .ok str ∧ 1 ≤ str.length ∧
    (c.toNat ≤ 255 → str = [c.setWidth 8]) ∧
    (255 < c.toNat → str.length ≤ c.toNat - s.acfg.firstFree + 2) ∧
    (∀ e : Entry, s.entry? c.toNat = some e → ∃ front : List Byte, s.expand e.pre = .ok front ∧ str = front ++ [e.sym])

/-! ### The code-width tracker -/

/-- 41_dictionary.md R85, R86 items 1 to 3: `bitlen` is the least width with `2^w > n`; the code width grows with the size, holds every
allocated code, and starts at INITW. -/
def Obligations.CodeWidthHoldsEveryAllocatedCode : Prop :=
  ∀ c : CfgFields, c.legal = true →
    (∀ n w : Nat, bitlen n ≤ w ↔ n < 2 ^ w) ∧
    (∀ n : Nat, c.widthOf n = min c.maxWidth.toNat (max c.initWidth.toNat (bitlen n))) ∧
    (∀ m n : Nat, m ≤ n → c.widthOf m ≤ c.widthOf n) ∧
    (∀ n k : Nat, n ≤ 2 ^ c.maxWidth.toNat → k < n → k < 2 ^ c.widthOf n) ∧
    c.widthOf c.firstFree = c.initWidth.toNat

/-! ### NOP and the dictionary commands -/

/-- 40_command.md R78: NOP completes and changes nothing else; a word with OP = 0 and a reserved bit set is not NOP but
IllegalCommand(2). -/
def Obligations.NopOnlyCompletes : Prop :=
  encode .nop = 0x00000000 ∧
  ∀ s : State, s.phase = .idle →
    exec .nop s = .next (s.ended .nop) ∧
    ∀ w : Word, w.extractLsb' 0 4 = 0 → w ≠ 0 → s.csrWrite 0x14 w = .next { s with
      done := true, hit := false, err := some .illegalCommand, errInfo := 2, cmd := w }

/-- 41_dictionary.md R87, R88, R93: DINIT latches a legal configuration and empties the table, and FULL is 0 after it; an illegal one is
InvalidConfiguration(1) or (2), MAX_WIDTH first, and changes nothing else. -/
def Obligations.DinitLatchesOrRefusesTheConfiguration : Prop :=
  encode .dinit = 0x00000001 ∧
  ∀ s : State, s.phase = .idle →
    (9 ≤ s.cfg.maxWidth.toNat → s.cfg.maxWidth.toNat ≤ Config.pMaxw → 9 ≤ s.cfg.initWidth.toNat →
      s.cfg.initWidth.toNat ≤ s.cfg.maxWidth.toNat →
      exec .dinit s = .next { s.ended .dinit with acfg := s.cfg, dict := [] } ∧
      ({ s.ended .dinit with acfg := s.cfg, dict := [] } : State).dsize = (if s.cfg.ctrl then 258 else 256) ∧
      ({ s.ended .dinit with acfg := s.cfg, dict := [] } : State).isFull = false) ∧
    (s.cfg.maxWidth.toNat < 9 ∨ Config.pMaxw < s.cfg.maxWidth.toNat →
      exec .dinit s = .next (s.failed .dinit ⟨.invalidConfiguration, 1⟩)) ∧
    (9 ≤ s.cfg.maxWidth.toNat → s.cfg.maxWidth.toNat ≤ Config.pMaxw →
      s.cfg.initWidth.toNat < 9 ∨ s.cfg.maxWidth.toNat < s.cfg.initWidth.toNat →
      exec .dinit s = .next (s.failed .dinit ⟨.invalidConfiguration, 2⟩))

/-- R89, R94: DLOOKUP answers the least code whose entry is the pair (ARG0[15:0], ARG1[7:0]) with HIT = 1, and 0 with HIT = 0 when no
entry is, so when the prefix is unallocated or a reserved code; it changes nothing else. -/
def Obligations.DlookupAnswersTheLeastCode : Prop :=
  encode .dlookup = 0x00000002 ∧
  ∀ s : State, s.phase = .idle → s.dsize ≤ 65536 →
    (∀ c : Nat, s.entry? c = some ⟨s.arg0.extractLsb' 0 16, s.arg1.extractLsb' 0 8⟩ →
      (∀ c' < c, s.entry? c' ≠ some ⟨s.arg0.extractLsb' 0 16, s.arg1.extractLsb' 0 8⟩) →
      exec .dlookup s = .next { s.ended .dlookup with res := BitVec.ofNat 32 c, hit := true }) ∧
    ((∀ c : Nat, s.entry? c ≠ some ⟨s.arg0.extractLsb' 0 16, s.arg1.extractLsb' 0 8⟩) →
      exec .dlookup s = .next { s.ended .dlookup with res := 0 }) ∧
    (s.LinksBack → ¬ ((s.arg0.extractLsb' 0 16).toNat ≤ 255 ∨
        (s.acfg.firstFree ≤ (s.arg0.extractLsb' 0 16).toNat ∧ (s.arg0.extractLsb' 0 16).toNat < s.dsize)) →
      exec .dlookup s = .next { s.ended .dlookup with res := 0 })

/-- R90, R95, R170: DINSERT on a full table is IllegalCommand(3), whatever the prefix; with a prefix that is no allocated, non-reserved code
it is IllegalCommand(4); otherwise the pair takes the code `D.size`, which RES shows and which grows by 1, FULL follows, and
every other code keeps its entry. -/
def Obligations.DinsertAssignsTheNextCode : Prop :=
  encode .dinsert = 0x00000003 ∧
  ∀ s : State, s.phase = .idle →
    (s.dsize = 2 ^ s.acfg.maxWidth.toNat → exec .dinsert s = .next (s.failed .dinsert ⟨.illegalCommand, 3⟩)) ∧
    (s.dsize ≠ 2 ^ s.acfg.maxWidth.toNat →
      ¬ ((s.arg0.extractLsb' 0 16).toNat ≤ 255 ∨
        (s.acfg.firstFree ≤ (s.arg0.extractLsb' 0 16).toNat ∧ (s.arg0.extractLsb' 0 16).toNat < s.dsize)) →
      exec .dinsert s = .next (s.failed .dinsert ⟨.illegalCommand, 4⟩)) ∧
    (s.dsize ≠ 2 ^ s.acfg.maxWidth.toNat →
      (s.arg0.extractLsb' 0 16).toNat ≤ 255 ∨
        (s.acfg.firstFree ≤ (s.arg0.extractLsb' 0 16).toNat ∧ (s.arg0.extractLsb' 0 16).toNat < s.dsize) →
      ∃ d : List Entry, exec .dinsert s = .next { s.ended .dinsert with dict := d, res := BitVec.ofNat 32 s.dsize } ∧
        ({ s with dict := d } : State).dsize = s.dsize + 1 ∧
        (({ s with dict := d } : State).isFull = true ↔ s.dsize + 1 = 2 ^ s.acfg.maxWidth.toNat) ∧
        ({ s with dict := d } : State).entry? s.dsize = some ⟨s.arg0.extractLsb' 0 16, s.arg1.extractLsb' 0 8⟩ ∧
        (∀ c : Nat, c ≠ s.dsize → ({ s with dict := d } : State).entry? c = s.entry? c))

/-- R59, R96: DREAD of a singleton shows bit 24 and the byte in bits 23:16; of another entry, its symbol in bits 23:16 and its prefix in bits
15:0; of any other code it is IllegalCommand(5). Nothing but RES changes. -/
def Obligations.DreadShowsTheEntry : Prop :=
  encode .dread = 0x00000004 ∧
  ∀ s : State, s.phase = .idle →
    ((s.arg0.extractLsb' 0 16).toNat ≤ 255 →
      exec .dread s = .next { s.ended .dread with
        res := BitVec.ofNat 32 (2 ^ 24 + (s.arg0.extractLsb' 0 16).toNat * 2 ^ 16) }) ∧
    (s.acfg.firstFree ≤ (s.arg0.extractLsb' 0 16).toNat → (s.arg0.extractLsb' 0 16).toNat < s.dsize →
      ∃ e : Entry, s.entry? (s.arg0.extractLsb' 0 16).toNat = some e ∧
        exec .dread s = .next { s.ended .dread with res := BitVec.ofNat 32 (e.sym.toNat * 2 ^ 16 + e.pre.toNat) }) ∧
    (255 < (s.arg0.extractLsb' 0 16).toNat →
      (s.arg0.extractLsb' 0 16).toNat < s.acfg.firstFree ∨ s.dsize ≤ (s.arg0.extractLsb' 0 16).toNat →
      exec .dread s = .next (s.failed .dread ⟨.illegalCommand, 5⟩))

/-- R90, R94 to R96: an entry that DINSERT has just made is what DREAD shows of the code in RES, and, if the pair was not in the table
before, what DLOOKUP of the same operands finds. -/
def Obligations.InsertedEntryIsReadAndFound : Prop :=
  ∀ s t : State, s.phase = .idle → s.acfg.legal = true → s.dsize ≤ s.acfg.maxSize → exec .dinsert s = .next t → t.err = none →
    (∃ u, exec .dread { t with arg0 := t.res } = .next u ∧ u.err = none ∧
      u.res = BitVec.ofNat 32 ((s.arg1.extractLsb' 0 8).toNat * 2 ^ 16 + (s.arg0.extractLsb' 0 16).toNat)) ∧
    ((∀ c : Nat, s.entry? c ≠ some ⟨s.arg0.extractLsb' 0 16, s.arg1.extractLsb' 0 8⟩) →
      ∃ u, exec .dlookup t = .next u ∧ u.hit = true ∧ u.res = t.res)

/-! ### The packer -/

/-- 42_bitpack.md R105, R109: PINIT clears PACC, PNB, OUT_LEN and CODE_COUNT and changes nothing else. -/
def Obligations.PinitStartsAStream : Prop :=
  encode .pinit = 0x00000005 ∧
  ∀ s : State, s.phase = .idle →
    exec .pinit s = .next { s.ended .pinit with pacc := 0, pnb := 0, outLen := 0, codeCount := 0 }

/-- R106, R110, 30_encoding.md R66: PWRITE with a width outside 1..16 is IllegalCommand(6); a write that would complete a byte beyond
DST_CAP is OutputOverflow(v); otherwise the `w` low bits of ARG0[15:0] follow the bits already in the stream, most significant first,
every earlier bit stays, the pad stays 0, CODE_COUNT grows by 1, and no byte of memory changes but the bytes that OUT_LEN
has passed. -/
def Obligations.PwriteAppendsTheBits : Prop :=
  encode .pwrite = 0x00000006 ∧
  ∀ s : State, s.phase = .idle → s.mem.wf = true →
    ((s.arg1.extractLsb' 0 5).toNat < 1 ∨ 16 < (s.arg1.extractLsb' 0 5).toNat →
      exec .pwrite s = .next (s.failed .pwrite ⟨.illegalCommand, 6⟩)) ∧
    (1 ≤ (s.arg1.extractLsb' 0 5).toNat → (s.arg1.extractLsb' 0 5).toNat ≤ 16 →
      s.dstCap.toNat < s.outLen.toNat + (s.pnb.toNat + (s.arg1.extractLsb' 0 5).toNat) / 8 →
      exec .pwrite s = .next (s.failed .pwrite ⟨.outputOverflow, (s.arg0.extractLsb' 0 16).setWidth 32⟩)) ∧
    (1 ≤ (s.arg1.extractLsb' 0 5).toNat → (s.arg1.extractLsb' 0 5).toNat ≤ 16 →
      s.outLen.toNat + (s.pnb.toNat + (s.arg1.extractLsb' 0 5).toNat) / 8 ≤ s.dstCap.toNat →
      ∃ (m : Memory) (a : Byte) (n : BitVec 3) (o : Word) (t : State),
        t = { s.ended .pwrite with mem := m, pacc := a, pnb := n, outLen := o, codeCount := s.codeCount + 1 } ∧
        exec .pwrite s = .next t ∧
        t.bitsOut = s.bitsOut + (s.arg1.extractLsb' 0 5).toNat ∧
        (∀ k < s.bitsOut, t.outBit k = s.outBit k) ∧
        (∀ j < (s.arg1.extractLsb' 0 5).toNat,
          t.outBit (s.bitsOut + j) = (s.arg0.extractLsb' 0 16).getLsbD ((s.arg1.extractLsb' 0 5).toNat - 1 - j)) ∧
        (s.PadZero → t.PadZero) ∧
        SameMemoryBut s t s.outLen.toNat t.outLen.toNat)

/-- R107, R111: PFLUSH with no pending bit changes nothing; with pending bits and no room it is OutputOverflow(0); with room it writes PACC
at DST_ADDR + OUT_LEN, which grows by 1, and clears PACC and PNB. -/
def Obligations.PflushEmitsThePartialByte : Prop :=
  encode .pflush = 0x00000007 ∧
  ∀ s : State, s.phase = .idle → s.mem.wf = true →
    (s.pnb = 0 → exec .pflush s = .next (s.ended .pflush)) ∧
    (s.pnb ≠ 0 → s.dstCap.toNat ≤ s.outLen.toNat → exec .pflush s = .next (s.failed .pflush ⟨.outputOverflow, 0⟩)) ∧
    (s.pnb ≠ 0 → s.outLen.toNat < s.dstCap.toNat →
      ∃ m : Memory,
        exec .pflush s = .next { s.ended .pflush with mem := m, pacc := 0, pnb := 0, outLen := s.outLen + 1 } ∧
        ∀ a : Nat, m.read a = if a = (s.dstAddr + s.outLen).toNat then s.pacc else s.mem.read a)

/-- R108 (the spec's own inference): after `pack_init`, any `pack_write` calls that fit and one `pack_flush`, the DST region holds exactly the
packed stream of the codes, zero-padded to a byte, OUT_LEN is its length and PNB is 0; no other byte of memory has changed. -/
def Obligations.PackedRegionIsExactlyTheStream : Prop :=
  ∀ (s : State) (l : List (Code × Nat)), s.mem.wf = true → (∀ x ∈ l, 1 ≤ x.2 ∧ x.2 ≤ 16) →
    ((l.map Prod.snd).sum + 7) / 8 ≤ s.dstCap.toNat →
    ∃ t u : State, s.packInit.packAll l = .ok t ∧ t.bitsOut = (l.map Prod.snd).sum ∧ t.packFlush = .ok u ∧
      u.pnb = 0 ∧ u.outLen.toNat = ((l.map Prod.snd).sum + 7) / 8 ∧ u.codeCount = BitVec.ofNat 32 l.length ∧
      u.memReadList s.dstAddr u.outLen.toNat = Textbook.bytesOf (l.flatMap fun x => Textbook.bits x.1.toNat x.2) ∧
      SameMemoryBut s u 0 u.outLen.toNat

/-! ### The unpacker -/

/-- 43_bitunpack.md R115, R118: UINIT clears SRC_POS, SRC_BIT and CODE_COUNT and changes nothing else. -/
def Obligations.UinitStartsAtTheFirstBit : Prop :=
  encode .uinit = 0x00000008 ∧
  ∀ s : State, s.phase = .idle →
    exec .uinit s = .next { s.ended .uinit with srcPos := 0, srcBit := 0, codeCount := 0 }

/-- R116, R119: UREAD with a width outside 1..16 is IllegalCommand(6), checked first; past the end of the source it is TruncatedStream(w);
otherwise RES is the next `w` bits of the source, the first one most significant, the position moves by `w` bits and CODE_COUNT by 1.
Nothing else changes. -/
def Obligations.UreadTakesTheNextBits : Prop :=
  encode .uread = 0x00000009 ∧
  ∀ s : State, s.phase = .idle →
    ((s.arg1.extractLsb' 0 5).toNat < 1 ∨ 16 < (s.arg1.extractLsb' 0 5).toNat →
      exec .uread s = .next (s.failed .uread ⟨.illegalCommand, 6⟩)) ∧
    (1 ≤ (s.arg1.extractLsb' 0 5).toNat → (s.arg1.extractLsb' 0 5).toNat ≤ 16 →
      8 * s.srcLen.toNat < s.bitsIn + (s.arg1.extractLsb' 0 5).toNat →
      exec .uread s = .next (s.failed .uread ⟨.truncatedStream, (s.arg1.extractLsb' 0 5).setWidth 32⟩)) ∧
    (1 ≤ (s.arg1.extractLsb' 0 5).toNat → (s.arg1.extractLsb' 0 5).toNat ≤ 16 →
      s.bitsIn + (s.arg1.extractLsb' 0 5).toNat ≤ 8 * s.srcLen.toNat →
      ∃ (v : Word) (p : Word) (q : BitVec 3) (t : State),
        t = { s.ended .uread with res := v, srcPos := p, srcBit := q, codeCount := s.codeCount + 1 } ∧
        exec .uread s = .next t ∧
        t.bitsIn = s.bitsIn + (s.arg1.extractLsb' 0 5).toNat ∧
        v.toNat < 2 ^ (s.arg1.extractLsb' 0 5).toNat ∧
        ∀ j < (s.arg1.extractLsb' 0 5).toNat,
          v.getLsbD ((s.arg1.extractLsb' 0 5).toNat - 1 - j) = s.inBit (s.bitsIn + j))

/-- R117 (the spec's own inference): the unpacker reads back from a packed stream, at the widths it was written with, the values that
were written; a further read succeeds exactly when its bits are there, and gives the pad, 0. -/
def Obligations.UnpackerInvertsPacker : Prop :=
  ∀ (s t u : State) (l : List (Code × Nat)), s.mem.wf = true → (∀ x ∈ l, 1 ≤ x.2 ∧ x.2 ≤ 16 ∧ x.1.toNat < 2 ^ x.2) →
    s.packInit.packAll l = .ok t → t.packFlush = .ok u →
    ∃ r : State, ({ u with srcAddr := u.dstAddr, srcLen := u.outLen } : State).unpackInit.unpackAll (l.map Prod.snd)
        = .ok (l.map Prod.fst, r) ∧
      ∀ w : Nat, 1 ≤ w → w ≤ 16 →
        (w ≤ 8 * u.outLen.toNat - (l.map Prod.snd).sum → ∃ r', r.unpackRead w = .ok (0, r')) ∧
        (8 * u.outLen.toNat - (l.map Prod.snd).sum < w → r.unpackRead w = .error ⟨.truncatedStream, BitVec.ofNat 32 w⟩)

/-! ### ENCODE and DECODE -/

/-- 20_memory.md R48, 41_dictionary.md R87, 60_exceptions.md R170: ENCODE (with DST_CAP) and DECODE (with TARGET_LEN) check MAX_WIDTH,
INIT_WIDTH, the wrap of SRC, the wrap of DST and the overlap in this order, on unbounded integers; the first that fails is
InvalidConfiguration(1..5), and nothing else has changed. -/
def Obligations.WholeBufferCommandsCheckTheirStart : Prop :=
  ∀ (s : State) (i : Instr) (n : Word), s.phase = .idle → (i = .encode ∧ n = s.dstCap) ∨ (i = .decode ∧ n = s.targetLen) →
    (s.cfg.maxWidth.toNat < 9 ∨ Config.pMaxw < s.cfg.maxWidth.toNat →
      exec i s = .next (s.failed i ⟨.invalidConfiguration, 1⟩)) ∧
    (9 ≤ s.cfg.maxWidth.toNat → s.cfg.maxWidth.toNat ≤ Config.pMaxw →
      s.cfg.initWidth.toNat < 9 ∨ s.cfg.maxWidth.toNat < s.cfg.initWidth.toNat →
      exec i s = .next (s.failed i ⟨.invalidConfiguration, 2⟩)) ∧
    (s.cfg.legal = true → 2 ^ 32 < s.srcAddr.toNat + s.srcLen.toNat →
      exec i s = .next (s.failed i ⟨.invalidConfiguration, 3⟩)) ∧
    (s.cfg.legal = true → s.srcAddr.toNat + s.srcLen.toNat ≤ 2 ^ 32 → 2 ^ 32 < s.dstAddr.toNat + n.toNat →
      exec i s = .next (s.failed i ⟨.invalidConfiguration, 4⟩)) ∧
    (s.cfg.legal = true → s.srcAddr.toNat + s.srcLen.toNat ≤ 2 ^ 32 → s.dstAddr.toNat + n.toNat ≤ 2 ^ 32 →
      0 < s.srcLen.toNat → 0 < n.toNat → s.srcAddr.toNat < s.dstAddr.toNat + n.toNat →
      s.dstAddr.toNat < s.srcAddr.toNat + s.srcLen.toNat →
      exec i s = .next (s.failed i ⟨.invalidConfiguration, 5⟩)) ∧
    (s.cfg.legal = true → s.RegionsFit n → ∀ t, exec i s = .next t → t.err ≠ some .invalidConfiguration)

/-- 44_encoder.md R130 item 1 (the spec's own inference), R126: ENCODE of an empty source emits nothing and completes with a fresh table. -/
def Obligations.EncodeOfNothingEmitsNothing : Prop :=
  ∀ s : State, s.phase = .idle → s.cfg.legal = true → s.RegionsFit s.dstCap → s.srcLen = 0 →
    exec .encode s = .next { s.ended .encode with
      acfg := s.cfg, dict := [], pacc := 0, pnb := 0, outLen := 0, codeCount := 0, srcPos := 0, srcBit := 0 }

/-- R126, R131 (the spec's own inference): with a legal configuration, regions that fit and a DST_CAP of at least
`ceil((2 × SRC_LEN + 1) × MAXW / 8)`, ENCODE completes without an error, has read the whole source and flushed the packer, and
leaves alone every register it does not name and every byte of memory but its output. -/
def Obligations.EncodeCompletesWithRoom : Prop :=
  ∀ s : State, s.phase = .idle → s.cfg.legal = true → s.RegionsFit s.dstCap →
    (s.srcLen ≠ 0 → ((2 * s.srcLen.toNat + 1) * s.cfg.maxWidth.toNat + 7) / 8 ≤ s.dstCap.toNat) →
    ∃ t, exec .encode s = .next t ∧ Completed .encode t ∧
      t.acfg = s.cfg ∧ t.dsize ≤ t.acfg.maxSize ∧
      t.srcPos = s.srcLen ∧ t.srcBit = 0 ∧ t.pnb = 0 ∧ t.pacc = 0 ∧
      t.outLen.toNat ≤ s.dstCap.toNat ∧ t.codeCount.toNat ≤ 2 * s.srcLen.toNat + 1 ∧
      SameOperands s t ∧ t.res = s.res ∧ SameDecoderWork s t ∧ SameHost s t ∧ SameMemoryBut s t 0 t.outLen.toNat

/-- 44_encoder.md R123 to R127, 30_encoding.md R62 to R66: what ENCODE writes is the packed stream of the greedy LZW encoder over strings
(Safety/Textbook.lean), whenever that stream fits in DST_CAP; OUT_LEN is its length and CODE_COUNT the number of codes. -/
def Obligations.EncodeWritesTheGreedyLzwStream : Prop :=
  ∀ s : State, s.phase = .idle → s.mem.wf = true → s.cfg.legal = true → s.RegionsFit s.dstCap →
    (Textbook.compress s.cfg (s.memReadList s.srcAddr s.srcLen.toNat)).length ≤ s.dstCap.toNat →
    ∃ t, exec .encode s = .next t ∧ Completed .encode t ∧
      t.outLen.toNat = (Textbook.compress s.cfg (s.memReadList s.srcAddr s.srcLen.toNat)).length ∧
      t.memReadList s.dstAddr t.outLen.toNat = Textbook.compress s.cfg (s.memReadList s.srcAddr s.srcLen.toNat) ∧
      t.codeCount = BitVec.ofNat 32 (Textbook.encode s.cfg (s.memReadList s.srcAddr s.srcLen.toNat)).length ∧
      SameMemoryBut s t 0 t.outLen.toNat

/-- R129, 60_exceptions.md R166, R169: however ENCODE ends, no byte of memory has changed but the OUT_LEN bytes at DST_ADDR, OUT_LEN is within
DST_CAP, and the registers it does not name are unchanged; with InvalidConfiguration nothing at all has been written. -/
def Obligations.EncodeWritesOnlyItsOutput : Prop :=
  ∀ s t : State, s.phase = .idle → exec .encode s = .next t →
    (t.err = some .invalidConfiguration → SameMemory s t ∧ SamePacker s t ∧ SameTable s t) ∧
    (t.err ≠ some .invalidConfiguration →
      t.outLen.toNat ≤ s.dstCap.toNat ∧ SameMemoryBut s t 0 t.outLen.toNat ∧ t.acfg = s.cfg) ∧
    SameOperands s t ∧ t.res = s.res ∧ t.hit = false ∧ SameDecoderWork s t ∧ SameHost s t

/-- 45_decoder.md R153 item 5 (the spec's own inference; the source's determinism): the outcome of ENCODE and the bytes it writes depend on the
configuration, the source bytes and DST_CAP alone, whatever else the state held and wherever the regions are. -/
def Obligations.EncodeDependsOnlyOnItsInput : Prop :=
  ∀ s s' t t' : State, s.phase = .idle → s'.phase = .idle → s.mem.wf = true → s'.mem.wf = true →
    s.cfg = s'.cfg → s.cfg.legal = true → s.dstCap = s'.dstCap → s.RegionsFit s.dstCap → s'.RegionsFit s'.dstCap →
    s.srcLen = s'.srcLen → s.memReadList s.srcAddr s.srcLen.toNat = s'.memReadList s'.srcAddr s'.srcLen.toNat →
    exec .encode s = .next t → exec .encode s' = .next t' →
    t.err = t'.err ∧ t.errInfo = t'.errInfo ∧ t.outLen = t'.outLen ∧ t.codeCount = t'.codeCount ∧ t.pacc = t'.pacc ∧
      t.pnb = t'.pnb ∧ t.dict = t'.dict ∧ t.srcPos = t'.srcPos ∧
      t.memReadList s.dstAddr t.outLen.toNat = t'.memReadList s'.dstAddr t'.outLen.toNat

/-- R124 item 2 (the spec's own inference): in the table that ENCODE leaves, no two codes have the same string. -/
def Obligations.EncodeLeavesDistinctStrings : Prop :=
  ∀ s t : State, s.phase = .idle → s.cfg.legal = true → exec .encode s = .next t → t.err ≠ some .invalidConfiguration →
    ∀ c c' : Code, t.isEntry c.toNat = true → t.isEntry c'.toNat = true → t.expand c = t.expand c' → c = c'

/-- 45_decoder.md R154 item 1 (the spec's own inference), R141, R144: with TARGET_LEN = 0 DECODE reads nothing, completes at once and leaves a
fresh table. -/
def Obligations.DecodeToNothingReadsNothing : Prop :=
  ∀ s : State, s.phase = .idle → s.cfg.legal = true → s.RegionsFit s.targetLen → s.targetLen = 0 →
    exec .decode s = .next { s.ended .decode with
      acfg := s.cfg, dict := [], pacc := 0, pnb := 0, outLen := 0, codeCount := 0, srcPos := 0, srcBit := 0, prevValid := false }

/-- R141 to R150, R153: DECODE of the packed stream of the greedy LZW encoder over strings gives the string back, whatever follows the stream
in the source, and leaves alone every byte of memory but its output and every register it does not name. -/
def Obligations.DecodeInvertsTheGreedyLzwStream : Prop :=
  ∀ (s : State) (x : List Byte), s.phase = .idle → s.mem.wf = true → s.cfg.legal = true → s.RegionsFit s.targetLen →
    s.targetLen.toNat = x.length → (Textbook.compress s.cfg x).length ≤ s.srcLen.toNat →
    s.memReadList s.srcAddr (Textbook.compress s.cfg x).length = Textbook.compress s.cfg x →
    ∃ t, exec .decode s = .next t ∧ Completed .decode t ∧ t.acfg = s.cfg ∧
      t.outLen = s.targetLen ∧ t.memReadList s.dstAddr x.length = x ∧ t.pnb = 0 ∧ t.pacc = 0 ∧
      SameOperands s t ∧ t.res = s.res ∧ SameEncoderWork s t ∧ SameHost s t ∧ SameMemoryBut s t 0 t.outLen.toNat

/-- R153 item 4 (the spec's own inference; the source's round trip): DECODE of what ENCODE has written, under the same configuration, with the
original length as TARGET_LEN and a destination apart from the stream, gives back the bytes that ENCODE read. -/
def Obligations.EncodeThenDecodeGivesTheInputBack : Prop :=
  ∀ (s t : State) (d : Word), s.phase = .idle → s.mem.wf = true → s.cfg.legal = true → s.RegionsFit s.dstCap →
    exec .encode s = .next t → t.err = none →
    ({ t with srcAddr := t.dstAddr, srcLen := t.outLen, dstAddr := d, targetLen := s.srcLen } : State).RegionsFit s.srcLen →
    ∃ u, exec .decode { t with srcAddr := t.dstAddr, srcLen := t.outLen, dstAddr := d, targetLen := s.srcLen } = .next u ∧
      u.err = none ∧ u.outLen = s.srcLen ∧
      u.memReadList d s.srcLen.toNat = s.memReadList s.srcAddr s.srcLen.toNat

/-- R148, R152, R169: however DECODE ends, no byte of memory has changed but the OUT_LEN bytes at DST_ADDR, OUT_LEN is within TARGET_LEN, and
equal to it exactly when there is no error; the registers it does not name are unchanged. -/
def Obligations.DecodeWritesOnlyItsOutput : Prop :=
  ∀ s t : State, s.phase = .idle → exec .decode s = .next t →
    (t.err = some .invalidConfiguration → SameMemory s t ∧ SamePacker s t ∧ SameUnpacker s t ∧ SameTable s t) ∧
    (t.err ≠ some .invalidConfiguration →
      t.outLen.toNat ≤ s.targetLen.toNat ∧ SameMemoryBut s t 0 t.outLen.toNat ∧ t.acfg = s.cfg ∧ t.pnb = 0 ∧ t.pacc = 0) ∧
    (t.err = none ↔ t.err ≠ some .invalidConfiguration ∧ t.outLen = s.targetLen) ∧
    SameOperands s t ∧ t.res = s.res ∧ t.hit = false ∧ SameEncoderWork s t ∧ SameHost s t

/-- R143, R144, R147: what DEC_CLASSIFY does with a code that carries no string: CLEAR empties the table and forgets the previous code; END
is LengthMismatch; a data code while the table is full under CTRL = 1, a first data code above 255, and a data code above `D.size`
are CorruptStream of that code. R142, R150, R152: DEC_READ takes the next code at `width_of(D.size + prev_valid)`, or is TruncatedStream of
that width with the position and CODE_COUNT unchanged when the source has not that many bits left. R148: DEC_WRITE writes the string at
DST_ADDR + OUT_LEN, or is LengthMismatch(code) with none of its bytes written when they would take OUT_LEN past TARGET_LEN. Nothing else
changes. -/
def Obligations.DecoderRefusesBadCodes : Prop :=
  ∀ s : State,
    (s.phase = .decClassify →
      (s.acfg.ctrl = true → s.code = 256 →
        s.engineStep = { s with dict := [], prevValid := false, phase := .decTest }) ∧
      (s.acfg.ctrl = true → s.code = 257 →
        s.engineStep = { s with err := some .lengthMismatch, errInfo := 257, phase := .idle, done := true }) ∧
      (s.acfg.ctrl = true → s.code ≠ 256 → s.code ≠ 257 → s.dsize = 2 ^ s.acfg.maxWidth.toNat →
        s.engineStep = { s with err := some .corruptStream, errInfo := s.code.setWidth 32, phase := .idle, done := true }) ∧
      ((s.acfg.ctrl = true → s.code ≠ 256 ∧ s.code ≠ 257) → s.prevValid = false → 255 < s.code.toNat →
        s.engineStep = { s with err := some .corruptStream, errInfo := s.code.setWidth 32, phase := .idle, done := true }) ∧
      ((s.acfg.ctrl = true → s.code ≠ 256 ∧ s.code ≠ 257) → s.prevValid = true → s.dsize < s.code.toNat →
        s.engineStep = { s with err := some .corruptStream, errInfo := s.code.setWidth 32, phase := .idle, done := true })) ∧
    (s.phase = .decRead → s.acfg.legal = true → ∀ w : Nat,
      w = min s.acfg.maxWidth.toNat (max s.acfg.initWidth.toNat (bitlen (s.dsize + if s.prevValid = true then 1 else 0))) →
      (8 * s.srcLen.toNat < s.bitsIn + w →
        s.engineStep = { s with err := some .truncatedStream, errInfo := BitVec.ofNat 32 w, phase := .idle, done := true }) ∧
      (s.bitsIn + w ≤ 8 * s.srcLen.toNat → ∃ (c : Code) (p : Word) (q : BitVec 3) (t : State),
        t = { s with code := c, srcPos := p, srcBit := q, codeCount := s.codeCount + 1, phase := .decClassify } ∧
        s.engineStep = t ∧ t.bitsIn = s.bitsIn + w ∧ c.toNat < 2 ^ w ∧
        ∀ j < w, c.getLsbD (w - 1 - j) = s.inBit (s.bitsIn + j))) ∧
    (s.phase = .decWrite → s.mem.wf = true →
      (s.targetLen.toNat < s.outLen.toNat + s.seq.length →
        s.engineStep = { s with err := some .lengthMismatch, errInfo := s.code.setWidth 32, phase := .idle, done := true }) ∧
      (s.outLen.toNat + s.seq.length ≤ s.targetLen.toNat → ∃ (m : Memory) (o : Word),
        s.engineStep = { s with mem := m, outLen := o, phase := .decGrow } ∧ o.toNat = s.outLen.toNat + s.seq.length ∧
        (∀ j < s.seq.length, s.seq[j]? = some (m.read (s.dstAddr + (s.outLen + BitVec.ofNat 32 j)).toNat)) ∧
        (∀ a : Nat, (∀ j < s.seq.length, a ≠ (s.dstAddr + (s.outLen + BitVec.ofNat 32 j)).toNat) → m.read a = s.mem.read a)))

/-- R146, R149 (KwKwK): a code equal to `D.size`, with a previous code, has the previous string followed by its own first byte as its string,
and that is the string of the entry inserted for it. When that entry fills the table, it stays under CTRL = 1; under CTRL = 0 the reset
mirror follows in the same step, and the table is empty and there is no previous code. -/
def Obligations.KwKwKCodeGetsItsString : Prop :=
  ∀ s : State, s.Inv → s.phase = .decClassify → s.prevValid = true → s.code.toNat = s.dsize → s.dsize < s.acfg.maxSize →
    ∃ str : List Byte, s.expand s.prev = .ok str ∧
      s.engineStep = { s with seq := str ++ str.take 1, phase := .decWrite } ∧
      (s.outLen.toNat + (str.length + 1) ≤ s.targetLen.toNat →
        (s.engineSteps 3).phase = .decTest ∧ (s.engineSteps 3).prev = s.code ∧
        (s.engineSteps 3).outLen.toNat = s.outLen.toNat + (str.length + 1) ∧
        (s.dsize + 1 < s.acfg.maxSize ∨ s.acfg.ctrl = true →
          (s.engineSteps 3).prevValid = true ∧
          (s.engineSteps 3).dsize = s.dsize + 1 ∧ (s.engineSteps 3).entry? s.code.toNat = some ⟨s.prev, str.headD 0⟩ ∧
          (s.engineSteps 3).expand s.code = .ok (str ++ str.take 1)) ∧
        (s.dsize + 1 = s.acfg.maxSize → s.acfg.ctrl = false →
          (s.engineSteps 3).prevValid = false ∧ (s.engineSteps 3).dict = [] ∧ (s.engineSteps 3).dsize = 256))

/-! ### Errors and frames of all commands -/

/-- 60_exceptions.md R166: each error kind is raised by the commands of its row, and by no other. -/
def Obligations.CommandsRaiseOnlyTheirErrors : Prop :=
  ∀ (i : Instr) (s t : State), s.phase = .idle → exec i s = .next t →
    (t.err = some .invalidConfiguration → i = .dinit ∨ i = .encode ∨ i = .decode) ∧
    (t.err = some .truncatedStream → i = .uread ∨ i = .decode) ∧
    (t.err = some .corruptStream → i = .decode) ∧
    (t.err = some .lengthMismatch → i = .decode) ∧
    (t.err = some .outputOverflow → i = .pwrite ∨ i = .pflush ∨ i = .encode) ∧
    (t.err = some .illegalCommand → i = .dinsert ∨ i = .dread ∨ i = .pwrite ∨ i = .uread)

/-- R168, R169: a primitive command that fails has changed nothing but what acceptance and the error ending change. -/
def Obligations.FailingPrimitivesChangeNothingElse : Prop :=
  ∀ (i : Instr) (s t : State) (k : ErrKind), s.phase = .idle → i ≠ .encode → i ≠ .decode → exec i s = .next t → t.err = some k →
    t = s.failed i ⟨k, t.errInfo⟩

/-- R75, R171: what the last command left in DONE, HIT, ERR, ERR_INFO and CMD has no influence on the next command. -/
def Obligations.AnErrorDoesNotTouchTheNextCommand : Prop :=
  ∀ (i : Instr) (s : State) (d h : Bool) (e : Option ErrKind) (x w : Word), s.phase = .idle →
    exec i { s with done := d, hit := h, err := e, errInfo := x, cmd := w } = exec i s

/-- 10_state.md R40, R56: no command writes CTRL.IE, CFG, ARG0, ARG1 or a region register, and none touches the host's lists. -/
def Obligations.NoCommandWritesAnOperand : Prop :=
  ∀ (i : Instr) (s t : State), exec i s = .next t → SameOperands s t ∧ SameHost s t

/-- R27, R56: only DINIT, ENCODE and DECODE write ACFG, and only they and DINSERT change the table. -/
def Obligations.OnlyInitialisationWritesAcfg : Prop :=
  ∀ (i : Instr) (s t : State), exec i s = .next t →
    (i ≠ .dinit → i ≠ .encode → i ≠ .decode → t.acfg = s.acfg ∧ (i ≠ .dinsert → t.dict = s.dict)) ∧
    (t.acfg = s.acfg ∨ t.acfg = s.cfg)

/-- 30_encoding.md R59: only DLOOKUP, DINSERT, DREAD and UREAD write RES, and a command that ends with an error leaves it unchanged. -/
def Obligations.OnlyResultCommandsWriteRes : Prop :=
  ∀ (i : Instr) (s t : State), s.phase = .idle → exec i s = .next t →
    (i ≠ .dlookup → i ≠ .dinsert → i ≠ .dread → i ≠ .uread → t.res = s.res) ∧ (t.err ≠ none → t.res = s.res)

/-- 20_memory.md R44: NOP, DINIT, DLOOKUP, DINSERT, DREAD, PINIT, UINIT and UREAD write no byte of memory. -/
def Obligations.OnlyWritersWriteMemory : Prop :=
  ∀ (i : Instr) (s t : State), i ≠ .pwrite → i ≠ .pflush → i ≠ .encode → i ≠ .decode → exec i s = .next t → SameMemory s t

/-! ### Registers -/

/-- 10_state.md R41 (with R22, R24): what every register reads as after reset, and the state that no register shows. -/
def Obligations.RegistersReadTheirResetValues : Prop :=
  State.reset.csrValue 0x00 = 0x4C5A0100 ||| BitVec.ofNat 32 Config.pMaxw ∧
  State.reset.csrValue 0x04 = 0 ∧ State.reset.csrValue 0x08 = 0 ∧ State.reset.csrValue 0x0C = 0x0000090C ∧
  State.reset.csrValue 0x10 = 0x0000090C ∧ State.reset.csrValue 0x14 = 0 ∧ State.reset.csrValue 0x18 = 0 ∧
  State.reset.csrValue 0x1C = 0 ∧ State.reset.csrValue 0x20 = 0 ∧ State.reset.csrValue 0x24 = 0 ∧
  State.reset.csrValue 0x28 = 0 ∧ State.reset.csrValue 0x2C = 0 ∧ State.reset.csrValue 0x30 = 0 ∧
  State.reset.csrValue 0x34 = 0 ∧ State.reset.csrValue 0x38 = 0x00000100 ∧ State.reset.csrValue 0x3C = 0x00000009 ∧
  State.reset.csrValue 0x40 = 0 ∧ State.reset.csrValue 0x44 = 0 ∧ State.reset.csrValue 0x48 = 0 ∧
  State.reset.csrValue 0x4C = 0 ∧ State.reset.csrValue 0x50 = 0 ∧ State.reset.csrValue 0x54 = 0 ∧
  State.reset.csrValue 0x58 = 0 ∧ State.reset.csrValue 0xFC = 0 ∧ State.reset.irq = false ∧
  State.reset.phase = .idle ∧ State.reset.dsize = 256 ∧ State.reset.dict = [] ∧ State.reset.cur = 0 ∧ State.reset.b = 0 ∧
  State.reset.prev = 0 ∧ State.reset.prevValid = false ∧ State.reset.code = 0 ∧ State.reset.seq = []

/-- R28, 60_exceptions.md R166: the fields of STATUS while the engine is idle, with the code of each error kind, and a write of STATUS: a 1 in bit 1 clears DONE, and nothing else changes. -/
def Obligations.StatusShowsAndClearsItsFields : Prop :=
  ∀ (s : State) (v : Word),
    (s.phase = .idle →
      (s.csrValue 0x08).getLsbD 0 = false ∧ (s.csrValue 0x08).getLsbD 1 = s.done ∧ (s.csrValue 0x08).getLsbD 2 = s.hit ∧
      ((s.csrValue 0x08).getLsbD 3 = true ↔ s.dsize = 2 ^ s.acfg.maxWidth.toNat) ∧
      (s.err = none → (s.csrValue 0x08).extractLsb' 8 4 = 0) ∧
      (s.err = some .invalidConfiguration → (s.csrValue 0x08).extractLsb' 8 4 = 1) ∧
      (s.err = some .truncatedStream → (s.csrValue 0x08).extractLsb' 8 4 = 2) ∧
      (s.err = some .corruptStream → (s.csrValue 0x08).extractLsb' 8 4 = 3) ∧
      (s.err = some .lengthMismatch → (s.csrValue 0x08).extractLsb' 8 4 = 4) ∧
      (s.err = some .outputOverflow → (s.csrValue 0x08).extractLsb' 8 4 = 5) ∧
      (s.err = some .illegalCommand → (s.csrValue 0x08).extractLsb' 8 4 = 6) ∧
      (∀ k : Nat, (4 ≤ k ∧ k < 8) ∨ 12 ≤ k → (s.csrValue 0x08).getLsbD k = false)) ∧
    s.csrWrite 0x08 v = .next (if v.getLsbD 1 = true then { s with done := false } else s)

/-- 60_exceptions.md R172, R173: IRQ is IE AND DONE; every command that ends raises it when IE is 1, error or not; a 1 written to bit 1
of STATUS lowers it; a write of CTRL without SRST sets IE alone, and so raises IRQ at once when DONE is set. -/
def Obligations.InterruptFollowsDoneAndEnable : Prop :=
  ∀ s : State, (s.irq = true ↔ s.ie = true ∧ s.done = true) ∧
    (s.phase = .idle → ∀ i : Instr, ∃ t, exec i s = .next t ∧ t.irq = s.ie) ∧
    (∀ v : Word, v.getLsbD 1 = true → ∃ t, s.csrWrite 0x08 v = .next t ∧ t.irq = false) ∧
    (∀ v : Word, v.getLsbD 1 = false → s.csrWrite 0x04 v = .next { s with ie := v.getLsbD 0 })

/-- 10_state.md R23, R26: CFG, written while idle, keeps the bits 16, 12:8 and 4:0 of any value, legal or not, reads the others as 0, and
changes neither ACFG nor anything else. -/
def Obligations.CfgKeepsItsFields : Prop :=
  ∀ (s : State) (v : Word), s.phase = .idle →
    ∃ c : CfgFields, s.csrWrite 0x0C v = .next { s with cfg := c } ∧
      c.maxWidth = v.extractLsb' 0 5 ∧ c.initWidth = v.extractLsb' 8 5 ∧ c.ctrl = v.getLsbD 16 ∧
      ({ s with cfg := c } : State).csrValue 0x0C = v &&& 0x00011F1F

/-- R31, R32: each operand register, written while idle, holds the whole value, reads it back, and nothing else changes. -/
def Obligations.OperandRegistersHoldWhatIsWritten : Prop :=
  ∀ (s : State) (v : Word), s.phase = .idle →
    (s.csrWrite 0x18 v = .next { s with arg0 := v } ∧ ({ s with arg0 := v } : State).csrValue 0x18 = v) ∧
    (s.csrWrite 0x1C v = .next { s with arg1 := v } ∧ ({ s with arg1 := v } : State).csrValue 0x1C = v) ∧
    (s.csrWrite 0x24 v = .next { s with srcAddr := v } ∧ ({ s with srcAddr := v } : State).csrValue 0x24 = v) ∧
    (s.csrWrite 0x28 v = .next { s with srcLen := v } ∧ ({ s with srcLen := v } : State).csrValue 0x28 = v) ∧
    (s.csrWrite 0x2C v = .next { s with dstAddr := v } ∧ ({ s with dstAddr := v } : State).csrValue 0x2C = v) ∧
    (s.csrWrite 0x30 v = .next { s with dstCap := v } ∧ ({ s with dstCap := v } : State).csrValue 0x30 = v) ∧
    (s.csrWrite 0x34 v = .next { s with targetLen := v } ∧ ({ s with targetLen := v } : State).csrValue 0x34 = v)

/-- R22, R23: at the offsets that are multiples of 4 (any other is refused, O60), unmapped offsets read 0 and ignore writes, read-only
registers ignore writes, and CMD reads 0, idle or busy. -/
def Obligations.ReservedAccessesDoNothing : Prop :=
  ∀ (s : State) (v : Word) (off : BitVec 8), off.toNat % 4 = 0 →
    (0x58 ≤ off.toNat → s.csrValue off = 0 ∧ s.csrWrite off v = .next s) ∧
    (off = 0x14 → s.csrValue off = 0) ∧
    (off = 0x00 ∨ off = 0x10 ∨ off = 0x20 ∨ 0x38 ≤ off.toNat → s.csrWrite off v = .next s)

/-- R39: what the host reads while the engine is busy: STATUS has BUSY = 1, DONE = 0, ERR = 0; ID, CTRL, CFG and the operand registers read
as they are stored; CMD and unmapped offsets read 0. HIT, FULL and the ten result registers, which R39 leaves unspecified, read as the
free value of the draw, a constant with no body applied to nothing of State but the number of the draw: that form is the model's choice
(log entry 9), and no claim may rest on the value. -/
def Obligations.BusyReadsShowOnlyWhatTheyMay : Prop :=
  ∀ s : State, s.phase ≠ .idle →
    (s.csrValue 0x08).getLsbD 0 = true ∧ (s.csrValue 0x08).getLsbD 1 = false ∧ (s.csrValue 0x08).extractLsb' 8 4 = 0 ∧
    (∀ k : Nat, (4 ≤ k ∧ k < 8) ∨ 12 ≤ k → (s.csrValue 0x08).getLsbD k = false) ∧
    s.csrValue 0x00 = 0x4C5A0100 ||| BitVec.ofNat 32 Config.pMaxw ∧
    s.csrValue 0x04 = (if s.ie = true then 1 else 0) ∧ s.csrValue 0x0C = s.cfg.toWord ∧
    s.csrValue 0x14 = 0 ∧ s.csrValue 0x18 = s.arg0 ∧ s.csrValue 0x1C = s.arg1 ∧ s.csrValue 0x24 = s.srcAddr ∧
    s.csrValue 0x28 = s.srcLen ∧ s.csrValue 0x2C = s.dstAddr ∧ s.csrValue 0x30 = s.dstCap ∧ s.csrValue 0x34 = s.targetLen ∧
    (∀ off : BitVec 8, off.toNat % 4 = 0 → 0x58 ≤ off.toNat → s.csrValue off = 0) ∧
    (s.csrValue 0x08).getLsbD 2 = (Config.busyValue s.draws).getLsbD 2 ∧
    (s.csrValue 0x08).getLsbD 3 = (Config.busyValue s.draws).getLsbD 3 ∧
    (∀ off : BitVec 8, off = 0x10 ∨ off = 0x20 ∨ off = 0x38 ∨ off = 0x3C ∨ off = 0x40 ∨ off = 0x44 ∨ off = 0x48 ∨ off = 0x4C ∨
      off = 0x50 ∨ off = 0x54 → s.csrValue off = Config.busyValue s.draws)

/-- R39, R60: a register read, idle or busy, at an offset that is a multiple of 4 (any other is refused, O60), changes nothing but the host's
record of it and, while busy, the number of free values drawn (the model's own fields, log entries 3 and 9). -/
def Obligations.ReadsChangeOnlyTheHostRecord : Prop :=
  ∀ (s : State) (off : BitVec 8), off.toNat % 4 = 0 →
    (s.phase = .idle → s.hostAccess (.csrRead off) = .next { s with obs := .reg off (s.csrValue off) :: s.obs }) ∧
    (s.phase ≠ .idle →
      s.hostAccess (.csrRead off) = .next { s with obs := .reg off (s.csrValue off) :: s.obs, draws := s.draws + 1 })

/-- R40: while the engine is busy, writes of CMD, CFG, ARG0, ARG1 and the region registers are ignored, a command word too; CTRL without
SRST sets IE and with SRST resets, as the reset input does; STATUS clears DONE. -/
def Obligations.BusyWritesAreIgnored : Prop :=
  ∀ (s : State) (v : Word), s.phase ≠ .idle →
    s.csrWrite 0x14 v = .next s ∧ s.csrWrite 0x0C v = .next s ∧ s.csrWrite 0x18 v = .next s ∧ s.csrWrite 0x1C v = .next s ∧
    s.csrWrite 0x24 v = .next s ∧ s.csrWrite 0x28 v = .next s ∧ s.csrWrite 0x2C v = .next s ∧ s.csrWrite 0x30 v = .next s ∧
    s.csrWrite 0x34 v = .next s ∧ (∀ i : Instr, exec i s = .next s) ∧
    (v.getLsbD 1 = false → s.csrWrite 0x04 v = .next { s with ie := v.getLsbD 0 }) ∧
    (v.getLsbD 1 = true → s.csrWrite 0x04 v = s.hostAccess .hardReset) ∧
    s.csrWrite 0x08 v = .next (if v.getLsbD 1 = true then { s with done := false } else s)

/-! ### Reset -/

/-- 70_reset_and_hazards.md R190, R191, R199: a write of CTRL with SRST = 1 and the platform's reset, while idle, both give LZWC the state
after reset whatever bit 0 of the value, and change no memory. -/
def Obligations.IdleResetGivesTheResetState : Prop :=
  ∀ (s : State) (v : Word), s.phase = .idle → v.getLsbD 1 = true →
    s.csrWrite 0x04 v = .next { State.reset with mem := s.mem, host := s.host, obs := s.obs, draws := s.draws } ∧
    s.hostAccess .hardReset = .next { State.reset with mem := s.mem, host := s.host, obs := s.obs, draws := s.draws }

/-- R191, R192: a reset while busy, from either source, gives LZWC the state after reset, so DONE and ERR are 0 and there is no interrupt;
memory keeps what was written, and of the bytes that the engine step under way writes, the first `k`, for some `k` that nothing
in the model fixes. -/
def Obligations.BusyResetAbortsTheCommand : Prop :=
  ∀ (s : State) (v : Word), s.phase ≠ .idle → s.mem.wf = true → v.getLsbD 1 = true →
    ∃ (m : Memory) (k : Nat), k ≤ s.stepBytes ∧
      s.csrWrite 0x04 v = .next { State.reset with mem := m, host := s.host, obs := s.obs, draws := s.draws + 1 } ∧
      s.hostAccess .hardReset = .next { State.reset with mem := m, host := s.host, obs := s.obs, draws := s.draws + 1 } ∧
      (∀ j < k, m.read (s.dstAddr + (s.outLen + BitVec.ofNat 32 j)).toNat =
        s.engineStep.mem.read (s.dstAddr + (s.outLen + BitVec.ofNat 32 j)).toNat) ∧
      (∀ a : Nat, (∀ j < k, a ≠ (s.dstAddr + (s.outLen + BitVec.ofNat 32 j)).toNat) → m.read a = s.mem.read a)

/-! ### The host's memory accesses -/

/-- 30_encoding.md R60: bytes that the host writes while the engine is idle are the bytes it then reads, and a byte outside them is as before.
That they go on at address 0 past 0xFFFFFFFF is the model's choice (log entry 20). -/
def Obligations.HostReadsWhatItWrote : Prop :=
  ∀ (s : State) (a : Word) (l : List Byte), s.phase = .idle → s.mem.wf = true → l.length ≤ 2 ^ 32 →
    ∃ t, s.hostAccess (.memWrite a l) = .next t ∧
      t.hostAccess (.memRead a l.length) = .next { t with obs := .mem a l :: t.obs } ∧
      t = { s with mem := t.mem } ∧
      ∀ x : Nat, (∀ i < l.length, x ≠ (a + BitVec.ofNat 32 i).toNat) → t.mem.read x = s.mem.read x

/-- 20_memory.md R51 clause 2, 10_state.md R21: while the engine is busy a host write that touches a byte of the SRC or DST region is no
step, and a host write elsewhere is made; a host read that touches a byte of the SRC region is no step, and any other gives the bytes of
memory, but a free value for each byte of the DST region (93_implementation_defined.md U7), which R51 forbids to read and R195 only to
rely on; a register access narrower than 32 bits is no step, idle or busy. The refusals, the refused read of SRC, the free value of a
DST byte, and the DST region's length for a primitive command are the model's choice (log entries 9, 11 and 12), and so is that the
bytes go on at address 0 past 0xFFFFFFFF (log entry 20). -/
def Obligations.HostMustKeepItsHandsOff : Prop :=
  ∀ (s : State) (a : Word) (l : List Byte) (n : Nat),
    (s.phase ≠ .idle → (∃ i < l.length, s.inSrc (a + BitVec.ofNat 32 i) = true ∨ s.inDst (a + BitVec.ofNat 32 i) = true) →
      s.hostAccess (.memWrite a l) = .refused .handsOff) ∧
    (s.phase ≠ .idle → (∀ i < l.length, s.inSrc (a + BitVec.ofNat 32 i) = false ∧ s.inDst (a + BitVec.ofNat 32 i) = false) →
      s.hostAccess (.memWrite a l) = .next (s.memWriteList a l)) ∧
    (s.phase ≠ .idle → (∃ i < n, s.inSrc (a + BitVec.ofNat 32 i) = true) → s.hostAccess (.memRead a n) = .refused .handsOff) ∧
    (s.phase ≠ .idle → (∀ i < n, s.inSrc (a + BitVec.ofNat 32 i) = false) →
      ∃ r : List Byte, s.hostAccess (.memRead a n) = .next { s with obs := .mem a r :: s.obs, draws := s.draws + 1 } ∧ r.length = n ∧
        (∀ i < n, s.inDst (a + BitVec.ofNat 32 i) = false → r[i]? = some (s.mem.read (a + BitVec.ofNat 32 i).toNat)) ∧
        (∀ i < n, s.inDst (a + BitVec.ofNat 32 i) = true →
          r[i]? = some (Config.busyByte s.draws (a + BitVec.ofNat 32 i).toNat))) ∧
    ∀ off : BitVec 8, s.hostAccess (.csrNarrow off n) = .refused .narrowAccess

/-! ### Register accesses -/

/-- 10_state.md R24, R25, R26, R27, R30, R31, R34 to R37: what a read of each register returns while the engine is idle, field by field, in
every state. DICT_SIZE and CODE_WIDTH show their whole values where ACFG is legal and the table is within its size, as the invariant
says of every state that a run reaches. -/
def Obligations.IdleReadsShowTheRegisters : Prop :=
  ∀ s : State, s.phase = .idle →
    (s.csrValue 0x00).toNat = 0x4C5A0100 + Config.pMaxw ∧
    s.csrValue 0x04 = (if s.ie = true then 1 else 0) ∧
    (s.csrValue 0x0C).toNat = s.cfg.maxWidth.toNat + s.cfg.initWidth.toNat * 2 ^ 8 + (if s.cfg.ctrl = true then 2 ^ 16 else 0) ∧
    (s.csrValue 0x10).toNat = s.acfg.maxWidth.toNat + s.acfg.initWidth.toNat * 2 ^ 8 + (if s.acfg.ctrl = true then 2 ^ 16 else 0) ∧
    s.csrValue 0x18 = s.arg0 ∧ s.csrValue 0x1C = s.arg1 ∧ s.csrValue 0x20 = s.res ∧
    s.csrValue 0x24 = s.srcAddr ∧ s.csrValue 0x28 = s.srcLen ∧ s.csrValue 0x2C = s.dstAddr ∧ s.csrValue 0x30 = s.dstCap ∧
    s.csrValue 0x34 = s.targetLen ∧
    s.csrValue 0x40 = s.outLen ∧ (s.csrValue 0x44).toNat = s.pnb.toNat * 2 ^ 8 + s.pacc.toNat ∧
    s.csrValue 0x48 = s.srcPos ∧ (s.csrValue 0x4C).toNat = s.srcBit.toNat ∧
    s.csrValue 0x50 = s.codeCount ∧ s.csrValue 0x54 = s.errInfo ∧
    (s.acfg.legal = true → s.dsize ≤ 2 ^ s.acfg.maxWidth.toNat →
      (s.csrValue 0x38).toNat = (if s.acfg.ctrl = true then 258 else 256) + s.dict.length ∧
      (s.csrValue 0x3C).toNat = min s.acfg.maxWidth.toNat (max s.acfg.initWidth.toNat (bitlen (s.csrValue 0x38).toNat)))

/-- 10_state.md R21, 70_reset_and_hazards.md R195 item 4, 60_exceptions.md R177: a 32-bit register access is made at an offset that is a
multiple of 4, whether it names the offset or the bus address P_CSR_BASE + offset, and is no step at any other offset, nor is a bus access
outside the block; an access narrower than 32 bits is no step at any offset. The names of the refusals, and that the multiple of 4 is
the offset's, are the model's choice (log entries 12 and 13). -/
def Obligations.RegisterAccessesAreAlignedWords : Prop :=
  ∀ (s : State) (off : BitVec 8) (v : Word),
    (off.toNat % 4 = 0 →
      s.hostAccess (.csrWrite off v) = s.csrWrite off v ∧
      s.hostAccess (.busWrite (Config.csrBase + off.setWidth 32) v) = s.csrWrite off v ∧
      s.hostAccess (.csrRead off) = .next (s.csrRead off) ∧
      s.hostAccess (.busRead (Config.csrBase + off.setWidth 32)) = .next (s.csrRead off)) ∧
    (off.toNat % 4 ≠ 0 →
      s.hostAccess (.csrWrite off v) = .refused .misalignedAccess ∧
      s.hostAccess (.busWrite (Config.csrBase + off.setWidth 32) v) = .refused .misalignedAccess ∧
      s.hostAccess (.csrRead off) = .refused .misalignedAccess ∧
      s.hostAccess (.busRead (Config.csrBase + off.setWidth 32)) = .refused .misalignedAccess) ∧
    (∀ a : Word, 0x100 ≤ (a - Config.csrBase).toNat →
      s.hostAccess (.busWrite a v) = .refused .outsideBlock ∧ s.hostAccess (.busRead a) = .refused .outsideBlock) ∧
    ∀ n : Nat, s.hostAccess (.csrNarrow off n) = .refused .narrowAccess
end

