-- ==== Sys2Proof/Laws/State.lean ====
section
/-! SUPPORT. One lemma for each field of State and each named update: what the field is afterwards. Every one is true by
unfolding, and they are the model's simp set for states: later proofs do not unfold a record update. -/

namespace Sys2Proof.Machine

/-! ### The start of a command (40_command.md R75). -/

@[simp] theorem State.accept_ie (s : State) (w : Word) (p : Phase) : (s.accept w p).ie = s.ie := rfl
@[simp] theorem State.accept_done (s : State) (w : Word) (p : Phase) : (s.accept w p).done = false := rfl
@[simp] theorem State.accept_hit (s : State) (w : Word) (p : Phase) : (s.accept w p).hit = false := rfl
@[simp] theorem State.accept_err (s : State) (w : Word) (p : Phase) : (s.accept w p).err = none := rfl
@[simp] theorem State.accept_cfg (s : State) (w : Word) (p : Phase) : (s.accept w p).cfg = s.cfg := rfl
@[simp] theorem State.accept_acfg (s : State) (w : Word) (p : Phase) : (s.accept w p).acfg = s.acfg := rfl
@[simp] theorem State.accept_cmd (s : State) (w : Word) (p : Phase) : (s.accept w p).cmd = w := rfl
@[simp] theorem State.accept_arg0 (s : State) (w : Word) (p : Phase) : (s.accept w p).arg0 = s.arg0 := rfl
@[simp] theorem State.accept_arg1 (s : State) (w : Word) (p : Phase) : (s.accept w p).arg1 = s.arg1 := rfl
@[simp] theorem State.accept_res (s : State) (w : Word) (p : Phase) : (s.accept w p).res = s.res := rfl
@[simp] theorem State.accept_srcAddr (s : State) (w : Word) (p : Phase) : (s.accept w p).srcAddr = s.srcAddr := rfl
@[simp] theorem State.accept_srcLen (s : State) (w : Word) (p : Phase) : (s.accept w p).srcLen = s.srcLen := rfl
@[simp] theorem State.accept_dstAddr (s : State) (w : Word) (p : Phase) : (s.accept w p).dstAddr = s.dstAddr := rfl
@[simp] theorem State.accept_dstCap (s : State) (w : Word) (p : Phase) : (s.accept w p).dstCap = s.dstCap := rfl
@[simp] theorem State.accept_targetLen (s : State) (w : Word) (p : Phase) : (s.accept w p).targetLen = s.targetLen := rfl
@[simp] theorem State.accept_dict (s : State) (w : Word) (p : Phase) : (s.accept w p).dict = s.dict := rfl
@[simp] theorem State.accept_pacc (s : State) (w : Word) (p : Phase) : (s.accept w p).pacc = s.pacc := rfl
@[simp] theorem State.accept_pnb (s : State) (w : Word) (p : Phase) : (s.accept w p).pnb = s.pnb := rfl
@[simp] theorem State.accept_outLen (s : State) (w : Word) (p : Phase) : (s.accept w p).outLen = s.outLen := rfl
@[simp] theorem State.accept_srcPos (s : State) (w : Word) (p : Phase) : (s.accept w p).srcPos = s.srcPos := rfl
@[simp] theorem State.accept_srcBit (s : State) (w : Word) (p : Phase) : (s.accept w p).srcBit = s.srcBit := rfl
@[simp] theorem State.accept_codeCount (s : State) (w : Word) (p : Phase) : (s.accept w p).codeCount = s.codeCount := rfl
@[simp] theorem State.accept_errInfo (s : State) (w : Word) (p : Phase) : (s.accept w p).errInfo = 0 := rfl
@[simp] theorem State.accept_phase (s : State) (w : Word) (p : Phase) : (s.accept w p).phase = p := rfl
@[simp] theorem State.accept_cur (s : State) (w : Word) (p : Phase) : (s.accept w p).cur = s.cur := rfl
@[simp] theorem State.accept_b (s : State) (w : Word) (p : Phase) : (s.accept w p).b = s.b := rfl
@[simp] theorem State.accept_prev (s : State) (w : Word) (p : Phase) : (s.accept w p).prev = s.prev := rfl
@[simp] theorem State.accept_prevValid (s : State) (w : Word) (p : Phase) : (s.accept w p).prevValid = s.prevValid := rfl
@[simp] theorem State.accept_code (s : State) (w : Word) (p : Phase) : (s.accept w p).code = s.code := rfl
@[simp] theorem State.accept_seq (s : State) (w : Word) (p : Phase) : (s.accept w p).seq = s.seq := rfl
@[simp] theorem State.accept_mem (s : State) (w : Word) (p : Phase) : (s.accept w p).mem = s.mem := rfl
@[simp] theorem State.accept_host (s : State) (w : Word) (p : Phase) : (s.accept w p).host = s.host := rfl
@[simp] theorem State.accept_obs (s : State) (w : Word) (p : Phase) : (s.accept w p).obs = s.obs := rfl
@[simp] theorem State.accept_draws (s : State) (w : Word) (p : Phase) : (s.accept w p).draws = s.draws := rfl

/-! ### The completion of a command (R76). -/

@[simp] theorem State.complete_ie (s : State) : (s.complete).ie = s.ie := rfl
@[simp] theorem State.complete_done (s : State) : (s.complete).done = true := rfl
@[simp] theorem State.complete_hit (s : State) : (s.complete).hit = s.hit := rfl
@[simp] theorem State.complete_err (s : State) : (s.complete).err = s.err := rfl
@[simp] theorem State.complete_cfg (s : State) : (s.complete).cfg = s.cfg := rfl
@[simp] theorem State.complete_acfg (s : State) : (s.complete).acfg = s.acfg := rfl
@[simp] theorem State.complete_cmd (s : State) : (s.complete).cmd = s.cmd := rfl
@[simp] theorem State.complete_arg0 (s : State) : (s.complete).arg0 = s.arg0 := rfl
@[simp] theorem State.complete_arg1 (s : State) : (s.complete).arg1 = s.arg1 := rfl
@[simp] theorem State.complete_res (s : State) : (s.complete).res = s.res := rfl
@[simp] theorem State.complete_srcAddr (s : State) : (s.complete).srcAddr = s.srcAddr := rfl
@[simp] theorem State.complete_srcLen (s : State) : (s.complete).srcLen = s.srcLen := rfl
@[simp] theorem State.complete_dstAddr (s : State) : (s.complete).dstAddr = s.dstAddr := rfl
@[simp] theorem State.complete_dstCap (s : State) : (s.complete).dstCap = s.dstCap := rfl
@[simp] theorem State.complete_targetLen (s : State) : (s.complete).targetLen = s.targetLen := rfl
@[simp] theorem State.complete_dict (s : State) : (s.complete).dict = s.dict := rfl
@[simp] theorem State.complete_pacc (s : State) : (s.complete).pacc = s.pacc := rfl
@[simp] theorem State.complete_pnb (s : State) : (s.complete).pnb = s.pnb := rfl
@[simp] theorem State.complete_outLen (s : State) : (s.complete).outLen = s.outLen := rfl
@[simp] theorem State.complete_srcPos (s : State) : (s.complete).srcPos = s.srcPos := rfl
@[simp] theorem State.complete_srcBit (s : State) : (s.complete).srcBit = s.srcBit := rfl
@[simp] theorem State.complete_codeCount (s : State) : (s.complete).codeCount = s.codeCount := rfl
@[simp] theorem State.complete_errInfo (s : State) : (s.complete).errInfo = s.errInfo := rfl
@[simp] theorem State.complete_phase (s : State) : (s.complete).phase = .idle := rfl
@[simp] theorem State.complete_cur (s : State) : (s.complete).cur = s.cur := rfl
@[simp] theorem State.complete_b (s : State) : (s.complete).b = s.b := rfl
@[simp] theorem State.complete_prev (s : State) : (s.complete).prev = s.prev := rfl
@[simp] theorem State.complete_prevValid (s : State) : (s.complete).prevValid = s.prevValid := rfl
@[simp] theorem State.complete_code (s : State) : (s.complete).code = s.code := rfl
@[simp] theorem State.complete_seq (s : State) : (s.complete).seq = s.seq := rfl
@[simp] theorem State.complete_mem (s : State) : (s.complete).mem = s.mem := rfl
@[simp] theorem State.complete_host (s : State) : (s.complete).host = s.host := rfl
@[simp] theorem State.complete_obs (s : State) : (s.complete).obs = s.obs := rfl
@[simp] theorem State.complete_draws (s : State) : (s.complete).draws = s.draws := rfl

/-! ### The error ending (60_exceptions.md R168). -/

@[simp] theorem State.raise_ie (s : State) (e : Err) : (s.raise e).ie = s.ie := rfl
@[simp] theorem State.raise_done (s : State) (e : Err) : (s.raise e).done = true := rfl
@[simp] theorem State.raise_hit (s : State) (e : Err) : (s.raise e).hit = s.hit := rfl
@[simp] theorem State.raise_err (s : State) (e : Err) : (s.raise e).err = some e.kind := rfl
@[simp] theorem State.raise_cfg (s : State) (e : Err) : (s.raise e).cfg = s.cfg := rfl
@[simp] theorem State.raise_acfg (s : State) (e : Err) : (s.raise e).acfg = s.acfg := rfl
@[simp] theorem State.raise_cmd (s : State) (e : Err) : (s.raise e).cmd = s.cmd := rfl
@[simp] theorem State.raise_arg0 (s : State) (e : Err) : (s.raise e).arg0 = s.arg0 := rfl
@[simp] theorem State.raise_arg1 (s : State) (e : Err) : (s.raise e).arg1 = s.arg1 := rfl
@[simp] theorem State.raise_res (s : State) (e : Err) : (s.raise e).res = s.res := rfl
@[simp] theorem State.raise_srcAddr (s : State) (e : Err) : (s.raise e).srcAddr = s.srcAddr := rfl
@[simp] theorem State.raise_srcLen (s : State) (e : Err) : (s.raise e).srcLen = s.srcLen := rfl
@[simp] theorem State.raise_dstAddr (s : State) (e : Err) : (s.raise e).dstAddr = s.dstAddr := rfl
@[simp] theorem State.raise_dstCap (s : State) (e : Err) : (s.raise e).dstCap = s.dstCap := rfl
@[simp] theorem State.raise_targetLen (s : State) (e : Err) : (s.raise e).targetLen = s.targetLen := rfl
@[simp] theorem State.raise_dict (s : State) (e : Err) : (s.raise e).dict = s.dict := rfl
@[simp] theorem State.raise_pacc (s : State) (e : Err) : (s.raise e).pacc = s.pacc := rfl
@[simp] theorem State.raise_pnb (s : State) (e : Err) : (s.raise e).pnb = s.pnb := rfl
@[simp] theorem State.raise_outLen (s : State) (e : Err) : (s.raise e).outLen = s.outLen := rfl
@[simp] theorem State.raise_srcPos (s : State) (e : Err) : (s.raise e).srcPos = s.srcPos := rfl
@[simp] theorem State.raise_srcBit (s : State) (e : Err) : (s.raise e).srcBit = s.srcBit := rfl
@[simp] theorem State.raise_codeCount (s : State) (e : Err) : (s.raise e).codeCount = s.codeCount := rfl
@[simp] theorem State.raise_errInfo (s : State) (e : Err) : (s.raise e).errInfo = e.info := rfl
@[simp] theorem State.raise_phase (s : State) (e : Err) : (s.raise e).phase = .idle := rfl
@[simp] theorem State.raise_cur (s : State) (e : Err) : (s.raise e).cur = s.cur := rfl
@[simp] theorem State.raise_b (s : State) (e : Err) : (s.raise e).b = s.b := rfl
@[simp] theorem State.raise_prev (s : State) (e : Err) : (s.raise e).prev = s.prev := rfl
@[simp] theorem State.raise_prevValid (s : State) (e : Err) : (s.raise e).prevValid = s.prevValid := rfl
@[simp] theorem State.raise_code (s : State) (e : Err) : (s.raise e).code = s.code := rfl
@[simp] theorem State.raise_seq (s : State) (e : Err) : (s.raise e).seq = s.seq := rfl
@[simp] theorem State.raise_mem (s : State) (e : Err) : (s.raise e).mem = s.mem := rfl
@[simp] theorem State.raise_host (s : State) (e : Err) : (s.raise e).host = s.host := rfl
@[simp] theorem State.raise_obs (s : State) (e : Err) : (s.raise e).obs = s.obs := rfl
@[simp] theorem State.raise_draws (s : State) (e : Err) : (s.raise e).draws = s.draws := rfl

/-! ### One byte written through the memory port (20_memory.md R44). -/

@[simp] theorem State.memWrite_ie (s : State) (a : Word) (v : Byte) : (s.memWrite a v).ie = s.ie := rfl
@[simp] theorem State.memWrite_done (s : State) (a : Word) (v : Byte) : (s.memWrite a v).done = s.done := rfl
@[simp] theorem State.memWrite_hit (s : State) (a : Word) (v : Byte) : (s.memWrite a v).hit = s.hit := rfl
@[simp] theorem State.memWrite_err (s : State) (a : Word) (v : Byte) : (s.memWrite a v).err = s.err := rfl
@[simp] theorem State.memWrite_cfg (s : State) (a : Word) (v : Byte) : (s.memWrite a v).cfg = s.cfg := rfl
@[simp] theorem State.memWrite_acfg (s : State) (a : Word) (v : Byte) : (s.memWrite a v).acfg = s.acfg := rfl
@[simp] theorem State.memWrite_cmd (s : State) (a : Word) (v : Byte) : (s.memWrite a v).cmd = s.cmd := rfl
@[simp] theorem State.memWrite_arg0 (s : State) (a : Word) (v : Byte) : (s.memWrite a v).arg0 = s.arg0 := rfl
@[simp] theorem State.memWrite_arg1 (s : State) (a : Word) (v : Byte) : (s.memWrite a v).arg1 = s.arg1 := rfl
@[simp] theorem State.memWrite_res (s : State) (a : Word) (v : Byte) : (s.memWrite a v).res = s.res := rfl
@[simp] theorem State.memWrite_srcAddr (s : State) (a : Word) (v : Byte) : (s.memWrite a v).srcAddr = s.srcAddr := rfl
@[simp] theorem State.memWrite_srcLen (s : State) (a : Word) (v : Byte) : (s.memWrite a v).srcLen = s.srcLen := rfl
@[simp] theorem State.memWrite_dstAddr (s : State) (a : Word) (v : Byte) : (s.memWrite a v).dstAddr = s.dstAddr := rfl
@[simp] theorem State.memWrite_dstCap (s : State) (a : Word) (v : Byte) : (s.memWrite a v).dstCap = s.dstCap := rfl
@[simp] theorem State.memWrite_targetLen (s : State) (a : Word) (v : Byte) : (s.memWrite a v).targetLen = s.targetLen := rfl
@[simp] theorem State.memWrite_dict (s : State) (a : Word) (v : Byte) : (s.memWrite a v).dict = s.dict := rfl
@[simp] theorem State.memWrite_pacc (s : State) (a : Word) (v : Byte) : (s.memWrite a v).pacc = s.pacc := rfl
@[simp] theorem State.memWrite_pnb (s : State) (a : Word) (v : Byte) : (s.memWrite a v).pnb = s.pnb := rfl
@[simp] theorem State.memWrite_outLen (s : State) (a : Word) (v : Byte) : (s.memWrite a v).outLen = s.outLen := rfl
@[simp] theorem State.memWrite_srcPos (s : State) (a : Word) (v : Byte) : (s.memWrite a v).srcPos = s.srcPos := rfl
@[simp] theorem State.memWrite_srcBit (s : State) (a : Word) (v : Byte) : (s.memWrite a v).srcBit = s.srcBit := rfl
@[simp] theorem State.memWrite_codeCount (s : State) (a : Word) (v : Byte) : (s.memWrite a v).codeCount = s.codeCount := rfl
@[simp] theorem State.memWrite_errInfo (s : State) (a : Word) (v : Byte) : (s.memWrite a v).errInfo = s.errInfo := rfl
@[simp] theorem State.memWrite_phase (s : State) (a : Word) (v : Byte) : (s.memWrite a v).phase = s.phase := rfl
@[simp] theorem State.memWrite_cur (s : State) (a : Word) (v : Byte) : (s.memWrite a v).cur = s.cur := rfl
@[simp] theorem State.memWrite_b (s : State) (a : Word) (v : Byte) : (s.memWrite a v).b = s.b := rfl
@[simp] theorem State.memWrite_prev (s : State) (a : Word) (v : Byte) : (s.memWrite a v).prev = s.prev := rfl
@[simp] theorem State.memWrite_prevValid (s : State) (a : Word) (v : Byte) : (s.memWrite a v).prevValid = s.prevValid := rfl
@[simp] theorem State.memWrite_code (s : State) (a : Word) (v : Byte) : (s.memWrite a v).code = s.code := rfl
@[simp] theorem State.memWrite_seq (s : State) (a : Word) (v : Byte) : (s.memWrite a v).seq = s.seq := rfl
@[simp] theorem State.memWrite_mem (s : State) (a : Word) (v : Byte) : (s.memWrite a v).mem = s.mem.write a.toNat v := rfl
@[simp] theorem State.memWrite_host (s : State) (a : Word) (v : Byte) : (s.memWrite a v).host = s.host := rfl
@[simp] theorem State.memWrite_obs (s : State) (a : Word) (v : Byte) : (s.memWrite a v).obs = s.obs := rfl
@[simp] theorem State.memWrite_draws (s : State) (a : Word) (v : Byte) : (s.memWrite a v).draws = s.draws := rfl

/-! ### One byte appended to the DST region (R106, R148). -/

@[simp] theorem State.putByte_ie (s : State) (v : Byte) : (s.putByte v).ie = s.ie := rfl
@[simp] theorem State.putByte_done (s : State) (v : Byte) : (s.putByte v).done = s.done := rfl
@[simp] theorem State.putByte_hit (s : State) (v : Byte) : (s.putByte v).hit = s.hit := rfl
@[simp] theorem State.putByte_err (s : State) (v : Byte) : (s.putByte v).err = s.err := rfl
@[simp] theorem State.putByte_cfg (s : State) (v : Byte) : (s.putByte v).cfg = s.cfg := rfl
@[simp] theorem State.putByte_acfg (s : State) (v : Byte) : (s.putByte v).acfg = s.acfg := rfl
@[simp] theorem State.putByte_cmd (s : State) (v : Byte) : (s.putByte v).cmd = s.cmd := rfl
@[simp] theorem State.putByte_arg0 (s : State) (v : Byte) : (s.putByte v).arg0 = s.arg0 := rfl
@[simp] theorem State.putByte_arg1 (s : State) (v : Byte) : (s.putByte v).arg1 = s.arg1 := rfl
@[simp] theorem State.putByte_res (s : State) (v : Byte) : (s.putByte v).res = s.res := rfl
@[simp] theorem State.putByte_srcAddr (s : State) (v : Byte) : (s.putByte v).srcAddr = s.srcAddr := rfl
@[simp] theorem State.putByte_srcLen (s : State) (v : Byte) : (s.putByte v).srcLen = s.srcLen := rfl
@[simp] theorem State.putByte_dstAddr (s : State) (v : Byte) : (s.putByte v).dstAddr = s.dstAddr := rfl
@[simp] theorem State.putByte_dstCap (s : State) (v : Byte) : (s.putByte v).dstCap = s.dstCap := rfl
@[simp] theorem State.putByte_targetLen (s : State) (v : Byte) : (s.putByte v).targetLen = s.targetLen := rfl
@[simp] theorem State.putByte_dict (s : State) (v : Byte) : (s.putByte v).dict = s.dict := rfl
@[simp] theorem State.putByte_pacc (s : State) (v : Byte) : (s.putByte v).pacc = s.pacc := rfl
@[simp] theorem State.putByte_pnb (s : State) (v : Byte) : (s.putByte v).pnb = s.pnb := rfl
@[simp] theorem State.putByte_outLen (s : State) (v : Byte) : (s.putByte v).outLen = s.outLen + 1 := rfl
@[simp] theorem State.putByte_srcPos (s : State) (v : Byte) : (s.putByte v).srcPos = s.srcPos := rfl
@[simp] theorem State.putByte_srcBit (s : State) (v : Byte) : (s.putByte v).srcBit = s.srcBit := rfl
@[simp] theorem State.putByte_codeCount (s : State) (v : Byte) : (s.putByte v).codeCount = s.codeCount := rfl
@[simp] theorem State.putByte_errInfo (s : State) (v : Byte) : (s.putByte v).errInfo = s.errInfo := rfl
@[simp] theorem State.putByte_phase (s : State) (v : Byte) : (s.putByte v).phase = s.phase := rfl
@[simp] theorem State.putByte_cur (s : State) (v : Byte) : (s.putByte v).cur = s.cur := rfl
@[simp] theorem State.putByte_b (s : State) (v : Byte) : (s.putByte v).b = s.b := rfl
@[simp] theorem State.putByte_prev (s : State) (v : Byte) : (s.putByte v).prev = s.prev := rfl
@[simp] theorem State.putByte_prevValid (s : State) (v : Byte) : (s.putByte v).prevValid = s.prevValid := rfl
@[simp] theorem State.putByte_code (s : State) (v : Byte) : (s.putByte v).code = s.code := rfl
@[simp] theorem State.putByte_seq (s : State) (v : Byte) : (s.putByte v).seq = s.seq := rfl
@[simp] theorem State.putByte_mem (s : State) (v : Byte) : (s.putByte v).mem = s.mem.write (s.dstAddr + s.outLen).toNat v := rfl
@[simp] theorem State.putByte_host (s : State) (v : Byte) : (s.putByte v).host = s.host := rfl
@[simp] theorem State.putByte_obs (s : State) (v : Byte) : (s.putByte v).obs = s.obs := rfl
@[simp] theorem State.putByte_draws (s : State) (v : Byte) : (s.putByte v).draws = s.draws := rfl

/-! ### The latched configuration and the fresh table (41_dictionary.md R87, R88). -/

@[simp] theorem State.latchAndInit_ie (s : State) : (s.latchAndInit).ie = s.ie := rfl
@[simp] theorem State.latchAndInit_done (s : State) : (s.latchAndInit).done = s.done := rfl
@[simp] theorem State.latchAndInit_hit (s : State) : (s.latchAndInit).hit = s.hit := rfl
@[simp] theorem State.latchAndInit_err (s : State) : (s.latchAndInit).err = s.err := rfl
@[simp] theorem State.latchAndInit_cfg (s : State) : (s.latchAndInit).cfg = s.cfg := rfl
@[simp] theorem State.latchAndInit_acfg (s : State) : (s.latchAndInit).acfg = s.cfg := rfl
@[simp] theorem State.latchAndInit_cmd (s : State) : (s.latchAndInit).cmd = s.cmd := rfl
@[simp] theorem State.latchAndInit_arg0 (s : State) : (s.latchAndInit).arg0 = s.arg0 := rfl
@[simp] theorem State.latchAndInit_arg1 (s : State) : (s.latchAndInit).arg1 = s.arg1 := rfl
@[simp] theorem State.latchAndInit_res (s : State) : (s.latchAndInit).res = s.res := rfl
@[simp] theorem State.latchAndInit_srcAddr (s : State) : (s.latchAndInit).srcAddr = s.srcAddr := rfl
@[simp] theorem State.latchAndInit_srcLen (s : State) : (s.latchAndInit).srcLen = s.srcLen := rfl
@[simp] theorem State.latchAndInit_dstAddr (s : State) : (s.latchAndInit).dstAddr = s.dstAddr := rfl
@[simp] theorem State.latchAndInit_dstCap (s : State) : (s.latchAndInit).dstCap = s.dstCap := rfl
@[simp] theorem State.latchAndInit_targetLen (s : State) : (s.latchAndInit).targetLen = s.targetLen := rfl
@[simp] theorem State.latchAndInit_dict (s : State) : (s.latchAndInit).dict = [] := rfl
@[simp] theorem State.latchAndInit_pacc (s : State) : (s.latchAndInit).pacc = s.pacc := rfl
@[simp] theorem State.latchAndInit_pnb (s : State) : (s.latchAndInit).pnb = s.pnb := rfl
@[simp] theorem State.latchAndInit_outLen (s : State) : (s.latchAndInit).outLen = s.outLen := rfl
@[simp] theorem State.latchAndInit_srcPos (s : State) : (s.latchAndInit).srcPos = s.srcPos := rfl
@[simp] theorem State.latchAndInit_srcBit (s : State) : (s.latchAndInit).srcBit = s.srcBit := rfl
@[simp] theorem State.latchAndInit_codeCount (s : State) : (s.latchAndInit).codeCount = s.codeCount := rfl
@[simp] theorem State.latchAndInit_errInfo (s : State) : (s.latchAndInit).errInfo = s.errInfo := rfl
@[simp] theorem State.latchAndInit_phase (s : State) : (s.latchAndInit).phase = s.phase := rfl
@[simp] theorem State.latchAndInit_cur (s : State) : (s.latchAndInit).cur = s.cur := rfl
@[simp] theorem State.latchAndInit_b (s : State) : (s.latchAndInit).b = s.b := rfl
@[simp] theorem State.latchAndInit_prev (s : State) : (s.latchAndInit).prev = s.prev := rfl
@[simp] theorem State.latchAndInit_prevValid (s : State) : (s.latchAndInit).prevValid = s.prevValid := rfl
@[simp] theorem State.latchAndInit_code (s : State) : (s.latchAndInit).code = s.code := rfl
@[simp] theorem State.latchAndInit_seq (s : State) : (s.latchAndInit).seq = s.seq := rfl
@[simp] theorem State.latchAndInit_mem (s : State) : (s.latchAndInit).mem = s.mem := rfl
@[simp] theorem State.latchAndInit_host (s : State) : (s.latchAndInit).host = s.host := rfl
@[simp] theorem State.latchAndInit_obs (s : State) : (s.latchAndInit).obs = s.obs := rfl
@[simp] theorem State.latchAndInit_draws (s : State) : (s.latchAndInit).draws = s.draws := rfl

/-! ### The fresh table (R88). -/

@[simp] theorem State.dictInit_ie (s : State) : (s.dictInit).ie = s.ie := rfl
@[simp] theorem State.dictInit_done (s : State) : (s.dictInit).done = s.done := rfl
@[simp] theorem State.dictInit_hit (s : State) : (s.dictInit).hit = s.hit := rfl
@[simp] theorem State.dictInit_err (s : State) : (s.dictInit).err = s.err := rfl
@[simp] theorem State.dictInit_cfg (s : State) : (s.dictInit).cfg = s.cfg := rfl
@[simp] theorem State.dictInit_acfg (s : State) : (s.dictInit).acfg = s.acfg := rfl
@[simp] theorem State.dictInit_cmd (s : State) : (s.dictInit).cmd = s.cmd := rfl
@[simp] theorem State.dictInit_arg0 (s : State) : (s.dictInit).arg0 = s.arg0 := rfl
@[simp] theorem State.dictInit_arg1 (s : State) : (s.dictInit).arg1 = s.arg1 := rfl
@[simp] theorem State.dictInit_res (s : State) : (s.dictInit).res = s.res := rfl
@[simp] theorem State.dictInit_srcAddr (s : State) : (s.dictInit).srcAddr = s.srcAddr := rfl
@[simp] theorem State.dictInit_srcLen (s : State) : (s.dictInit).srcLen = s.srcLen := rfl
@[simp] theorem State.dictInit_dstAddr (s : State) : (s.dictInit).dstAddr = s.dstAddr := rfl
@[simp] theorem State.dictInit_dstCap (s : State) : (s.dictInit).dstCap = s.dstCap := rfl
@[simp] theorem State.dictInit_targetLen (s : State) : (s.dictInit).targetLen = s.targetLen := rfl
@[simp] theorem State.dictInit_dict (s : State) : (s.dictInit).dict = [] := rfl
@[simp] theorem State.dictInit_pacc (s : State) : (s.dictInit).pacc = s.pacc := rfl
@[simp] theorem State.dictInit_pnb (s : State) : (s.dictInit).pnb = s.pnb := rfl
@[simp] theorem State.dictInit_outLen (s : State) : (s.dictInit).outLen = s.outLen := rfl
@[simp] theorem State.dictInit_srcPos (s : State) : (s.dictInit).srcPos = s.srcPos := rfl
@[simp] theorem State.dictInit_srcBit (s : State) : (s.dictInit).srcBit = s.srcBit := rfl
@[simp] theorem State.dictInit_codeCount (s : State) : (s.dictInit).codeCount = s.codeCount := rfl
@[simp] theorem State.dictInit_errInfo (s : State) : (s.dictInit).errInfo = s.errInfo := rfl
@[simp] theorem State.dictInit_phase (s : State) : (s.dictInit).phase = s.phase := rfl
@[simp] theorem State.dictInit_cur (s : State) : (s.dictInit).cur = s.cur := rfl
@[simp] theorem State.dictInit_b (s : State) : (s.dictInit).b = s.b := rfl
@[simp] theorem State.dictInit_prev (s : State) : (s.dictInit).prev = s.prev := rfl
@[simp] theorem State.dictInit_prevValid (s : State) : (s.dictInit).prevValid = s.prevValid := rfl
@[simp] theorem State.dictInit_code (s : State) : (s.dictInit).code = s.code := rfl
@[simp] theorem State.dictInit_seq (s : State) : (s.dictInit).seq = s.seq := rfl
@[simp] theorem State.dictInit_mem (s : State) : (s.dictInit).mem = s.mem := rfl
@[simp] theorem State.dictInit_host (s : State) : (s.dictInit).host = s.host := rfl
@[simp] theorem State.dictInit_obs (s : State) : (s.dictInit).obs = s.obs := rfl
@[simp] theorem State.dictInit_draws (s : State) : (s.dictInit).draws = s.draws := rfl

/-! ### One more entry (R90). -/

@[simp] theorem State.insert_ie (s : State) (p : Code) (y : Byte) : (s.insert p y).ie = s.ie := rfl
@[simp] theorem State.insert_done (s : State) (p : Code) (y : Byte) : (s.insert p y).done = s.done := rfl
@[simp] theorem State.insert_hit (s : State) (p : Code) (y : Byte) : (s.insert p y).hit = s.hit := rfl
@[simp] theorem State.insert_err (s : State) (p : Code) (y : Byte) : (s.insert p y).err = s.err := rfl
@[simp] theorem State.insert_cfg (s : State) (p : Code) (y : Byte) : (s.insert p y).cfg = s.cfg := rfl
@[simp] theorem State.insert_acfg (s : State) (p : Code) (y : Byte) : (s.insert p y).acfg = s.acfg := rfl
@[simp] theorem State.insert_cmd (s : State) (p : Code) (y : Byte) : (s.insert p y).cmd = s.cmd := rfl
@[simp] theorem State.insert_arg0 (s : State) (p : Code) (y : Byte) : (s.insert p y).arg0 = s.arg0 := rfl
@[simp] theorem State.insert_arg1 (s : State) (p : Code) (y : Byte) : (s.insert p y).arg1 = s.arg1 := rfl
@[simp] theorem State.insert_res (s : State) (p : Code) (y : Byte) : (s.insert p y).res = s.res := rfl
@[simp] theorem State.insert_srcAddr (s : State) (p : Code) (y : Byte) : (s.insert p y).srcAddr = s.srcAddr := rfl
@[simp] theorem State.insert_srcLen (s : State) (p : Code) (y : Byte) : (s.insert p y).srcLen = s.srcLen := rfl
@[simp] theorem State.insert_dstAddr (s : State) (p : Code) (y : Byte) : (s.insert p y).dstAddr = s.dstAddr := rfl
@[simp] theorem State.insert_dstCap (s : State) (p : Code) (y : Byte) : (s.insert p y).dstCap = s.dstCap := rfl
@[simp] theorem State.insert_targetLen (s : State) (p : Code) (y : Byte) : (s.insert p y).targetLen = s.targetLen := rfl
@[simp] theorem State.insert_dict (s : State) (p : Code) (y : Byte) : (s.insert p y).dict = s.dict ++ [⟨p, y⟩] := rfl
@[simp] theorem State.insert_pacc (s : State) (p : Code) (y : Byte) : (s.insert p y).pacc = s.pacc := rfl
@[simp] theorem State.insert_pnb (s : State) (p : Code) (y : Byte) : (s.insert p y).pnb = s.pnb := rfl
@[simp] theorem State.insert_outLen (s : State) (p : Code) (y : Byte) : (s.insert p y).outLen = s.outLen := rfl
@[simp] theorem State.insert_srcPos (s : State) (p : Code) (y : Byte) : (s.insert p y).srcPos = s.srcPos := rfl
@[simp] theorem State.insert_srcBit (s : State) (p : Code) (y : Byte) : (s.insert p y).srcBit = s.srcBit := rfl
@[simp] theorem State.insert_codeCount (s : State) (p : Code) (y : Byte) : (s.insert p y).codeCount = s.codeCount := rfl
@[simp] theorem State.insert_errInfo (s : State) (p : Code) (y : Byte) : (s.insert p y).errInfo = s.errInfo := rfl
@[simp] theorem State.insert_phase (s : State) (p : Code) (y : Byte) : (s.insert p y).phase = s.phase := rfl
@[simp] theorem State.insert_cur (s : State) (p : Code) (y : Byte) : (s.insert p y).cur = s.cur := rfl
@[simp] theorem State.insert_b (s : State) (p : Code) (y : Byte) : (s.insert p y).b = s.b := rfl
@[simp] theorem State.insert_prev (s : State) (p : Code) (y : Byte) : (s.insert p y).prev = s.prev := rfl
@[simp] theorem State.insert_prevValid (s : State) (p : Code) (y : Byte) : (s.insert p y).prevValid = s.prevValid := rfl
@[simp] theorem State.insert_code (s : State) (p : Code) (y : Byte) : (s.insert p y).code = s.code := rfl
@[simp] theorem State.insert_seq (s : State) (p : Code) (y : Byte) : (s.insert p y).seq = s.seq := rfl
@[simp] theorem State.insert_mem (s : State) (p : Code) (y : Byte) : (s.insert p y).mem = s.mem := rfl
@[simp] theorem State.insert_host (s : State) (p : Code) (y : Byte) : (s.insert p y).host = s.host := rfl
@[simp] theorem State.insert_obs (s : State) (p : Code) (y : Byte) : (s.insert p y).obs = s.obs := rfl
@[simp] theorem State.insert_draws (s : State) (p : Code) (y : Byte) : (s.insert p y).draws = s.draws := rfl

/-! ### A new packed stream (42_bitpack.md R105). -/

@[simp] theorem State.packInit_ie (s : State) : (s.packInit).ie = s.ie := rfl
@[simp] theorem State.packInit_done (s : State) : (s.packInit).done = s.done := rfl
@[simp] theorem State.packInit_hit (s : State) : (s.packInit).hit = s.hit := rfl
@[simp] theorem State.packInit_err (s : State) : (s.packInit).err = s.err := rfl
@[simp] theorem State.packInit_cfg (s : State) : (s.packInit).cfg = s.cfg := rfl
@[simp] theorem State.packInit_acfg (s : State) : (s.packInit).acfg = s.acfg := rfl
@[simp] theorem State.packInit_cmd (s : State) : (s.packInit).cmd = s.cmd := rfl
@[simp] theorem State.packInit_arg0 (s : State) : (s.packInit).arg0 = s.arg0 := rfl
@[simp] theorem State.packInit_arg1 (s : State) : (s.packInit).arg1 = s.arg1 := rfl
@[simp] theorem State.packInit_res (s : State) : (s.packInit).res = s.res := rfl
@[simp] theorem State.packInit_srcAddr (s : State) : (s.packInit).srcAddr = s.srcAddr := rfl
@[simp] theorem State.packInit_srcLen (s : State) : (s.packInit).srcLen = s.srcLen := rfl
@[simp] theorem State.packInit_dstAddr (s : State) : (s.packInit).dstAddr = s.dstAddr := rfl
@[simp] theorem State.packInit_dstCap (s : State) : (s.packInit).dstCap = s.dstCap := rfl
@[simp] theorem State.packInit_targetLen (s : State) : (s.packInit).targetLen = s.targetLen := rfl
@[simp] theorem State.packInit_dict (s : State) : (s.packInit).dict = s.dict := rfl
@[simp] theorem State.packInit_pacc (s : State) : (s.packInit).pacc = 0 := rfl
@[simp] theorem State.packInit_pnb (s : State) : (s.packInit).pnb = 0 := rfl
@[simp] theorem State.packInit_outLen (s : State) : (s.packInit).outLen = 0 := rfl
@[simp] theorem State.packInit_srcPos (s : State) : (s.packInit).srcPos = s.srcPos := rfl
@[simp] theorem State.packInit_srcBit (s : State) : (s.packInit).srcBit = s.srcBit := rfl
@[simp] theorem State.packInit_codeCount (s : State) : (s.packInit).codeCount = 0 := rfl
@[simp] theorem State.packInit_errInfo (s : State) : (s.packInit).errInfo = s.errInfo := rfl
@[simp] theorem State.packInit_phase (s : State) : (s.packInit).phase = s.phase := rfl
@[simp] theorem State.packInit_cur (s : State) : (s.packInit).cur = s.cur := rfl
@[simp] theorem State.packInit_b (s : State) : (s.packInit).b = s.b := rfl
@[simp] theorem State.packInit_prev (s : State) : (s.packInit).prev = s.prev := rfl
@[simp] theorem State.packInit_prevValid (s : State) : (s.packInit).prevValid = s.prevValid := rfl
@[simp] theorem State.packInit_code (s : State) : (s.packInit).code = s.code := rfl
@[simp] theorem State.packInit_seq (s : State) : (s.packInit).seq = s.seq := rfl
@[simp] theorem State.packInit_mem (s : State) : (s.packInit).mem = s.mem := rfl
@[simp] theorem State.packInit_host (s : State) : (s.packInit).host = s.host := rfl
@[simp] theorem State.packInit_obs (s : State) : (s.packInit).obs = s.obs := rfl
@[simp] theorem State.packInit_draws (s : State) : (s.packInit).draws = s.draws := rfl

/-! ### The first bit of the source (43_bitunpack.md R115). -/

@[simp] theorem State.unpackInit_ie (s : State) : (s.unpackInit).ie = s.ie := rfl
@[simp] theorem State.unpackInit_done (s : State) : (s.unpackInit).done = s.done := rfl
@[simp] theorem State.unpackInit_hit (s : State) : (s.unpackInit).hit = s.hit := rfl
@[simp] theorem State.unpackInit_err (s : State) : (s.unpackInit).err = s.err := rfl
@[simp] theorem State.unpackInit_cfg (s : State) : (s.unpackInit).cfg = s.cfg := rfl
@[simp] theorem State.unpackInit_acfg (s : State) : (s.unpackInit).acfg = s.acfg := rfl
@[simp] theorem State.unpackInit_cmd (s : State) : (s.unpackInit).cmd = s.cmd := rfl
@[simp] theorem State.unpackInit_arg0 (s : State) : (s.unpackInit).arg0 = s.arg0 := rfl
@[simp] theorem State.unpackInit_arg1 (s : State) : (s.unpackInit).arg1 = s.arg1 := rfl
@[simp] theorem State.unpackInit_res (s : State) : (s.unpackInit).res = s.res := rfl
@[simp] theorem State.unpackInit_srcAddr (s : State) : (s.unpackInit).srcAddr = s.srcAddr := rfl
@[simp] theorem State.unpackInit_srcLen (s : State) : (s.unpackInit).srcLen = s.srcLen := rfl
@[simp] theorem State.unpackInit_dstAddr (s : State) : (s.unpackInit).dstAddr = s.dstAddr := rfl
@[simp] theorem State.unpackInit_dstCap (s : State) : (s.unpackInit).dstCap = s.dstCap := rfl
@[simp] theorem State.unpackInit_targetLen (s : State) : (s.unpackInit).targetLen = s.targetLen := rfl
@[simp] theorem State.unpackInit_dict (s : State) : (s.unpackInit).dict = s.dict := rfl
@[simp] theorem State.unpackInit_pacc (s : State) : (s.unpackInit).pacc = s.pacc := rfl
@[simp] theorem State.unpackInit_pnb (s : State) : (s.unpackInit).pnb = s.pnb := rfl
@[simp] theorem State.unpackInit_outLen (s : State) : (s.unpackInit).outLen = s.outLen := rfl
@[simp] theorem State.unpackInit_srcPos (s : State) : (s.unpackInit).srcPos = 0 := rfl
@[simp] theorem State.unpackInit_srcBit (s : State) : (s.unpackInit).srcBit = 0 := rfl
@[simp] theorem State.unpackInit_codeCount (s : State) : (s.unpackInit).codeCount = 0 := rfl
@[simp] theorem State.unpackInit_errInfo (s : State) : (s.unpackInit).errInfo = s.errInfo := rfl
@[simp] theorem State.unpackInit_phase (s : State) : (s.unpackInit).phase = s.phase := rfl
@[simp] theorem State.unpackInit_cur (s : State) : (s.unpackInit).cur = s.cur := rfl
@[simp] theorem State.unpackInit_b (s : State) : (s.unpackInit).b = s.b := rfl
@[simp] theorem State.unpackInit_prev (s : State) : (s.unpackInit).prev = s.prev := rfl
@[simp] theorem State.unpackInit_prevValid (s : State) : (s.unpackInit).prevValid = s.prevValid := rfl
@[simp] theorem State.unpackInit_code (s : State) : (s.unpackInit).code = s.code := rfl
@[simp] theorem State.unpackInit_seq (s : State) : (s.unpackInit).seq = s.seq := rfl
@[simp] theorem State.unpackInit_mem (s : State) : (s.unpackInit).mem = s.mem := rfl
@[simp] theorem State.unpackInit_host (s : State) : (s.unpackInit).host = s.host := rfl
@[simp] theorem State.unpackInit_obs (s : State) : (s.unpackInit).obs = s.obs := rfl
@[simp] theorem State.unpackInit_draws (s : State) : (s.unpackInit).draws = s.draws := rfl

/-! ### One more observation (30_encoding.md R60). -/

@[simp] theorem State.observe_ie (s : State) (o : Observation) : (s.observe o).ie = s.ie := rfl
@[simp] theorem State.observe_done (s : State) (o : Observation) : (s.observe o).done = s.done := rfl
@[simp] theorem State.observe_hit (s : State) (o : Observation) : (s.observe o).hit = s.hit := rfl
@[simp] theorem State.observe_err (s : State) (o : Observation) : (s.observe o).err = s.err := rfl
@[simp] theorem State.observe_cfg (s : State) (o : Observation) : (s.observe o).cfg = s.cfg := rfl
@[simp] theorem State.observe_acfg (s : State) (o : Observation) : (s.observe o).acfg = s.acfg := rfl
@[simp] theorem State.observe_cmd (s : State) (o : Observation) : (s.observe o).cmd = s.cmd := rfl
@[simp] theorem State.observe_arg0 (s : State) (o : Observation) : (s.observe o).arg0 = s.arg0 := rfl
@[simp] theorem State.observe_arg1 (s : State) (o : Observation) : (s.observe o).arg1 = s.arg1 := rfl
@[simp] theorem State.observe_res (s : State) (o : Observation) : (s.observe o).res = s.res := rfl
@[simp] theorem State.observe_srcAddr (s : State) (o : Observation) : (s.observe o).srcAddr = s.srcAddr := rfl
@[simp] theorem State.observe_srcLen (s : State) (o : Observation) : (s.observe o).srcLen = s.srcLen := rfl
@[simp] theorem State.observe_dstAddr (s : State) (o : Observation) : (s.observe o).dstAddr = s.dstAddr := rfl
@[simp] theorem State.observe_dstCap (s : State) (o : Observation) : (s.observe o).dstCap = s.dstCap := rfl
@[simp] theorem State.observe_targetLen (s : State) (o : Observation) : (s.observe o).targetLen = s.targetLen := rfl
@[simp] theorem State.observe_dict (s : State) (o : Observation) : (s.observe o).dict = s.dict := rfl
@[simp] theorem State.observe_pacc (s : State) (o : Observation) : (s.observe o).pacc = s.pacc := rfl
@[simp] theorem State.observe_pnb (s : State) (o : Observation) : (s.observe o).pnb = s.pnb := rfl
@[simp] theorem State.observe_outLen (s : State) (o : Observation) : (s.observe o).outLen = s.outLen := rfl
@[simp] theorem State.observe_srcPos (s : State) (o : Observation) : (s.observe o).srcPos = s.srcPos := rfl
@[simp] theorem State.observe_srcBit (s : State) (o : Observation) : (s.observe o).srcBit = s.srcBit := rfl
@[simp] theorem State.observe_codeCount (s : State) (o : Observation) : (s.observe o).codeCount = s.codeCount := rfl
@[simp] theorem State.observe_errInfo (s : State) (o : Observation) : (s.observe o).errInfo = s.errInfo := rfl
@[simp] theorem State.observe_phase (s : State) (o : Observation) : (s.observe o).phase = s.phase := rfl
@[simp] theorem State.observe_cur (s : State) (o : Observation) : (s.observe o).cur = s.cur := rfl
@[simp] theorem State.observe_b (s : State) (o : Observation) : (s.observe o).b = s.b := rfl
@[simp] theorem State.observe_prev (s : State) (o : Observation) : (s.observe o).prev = s.prev := rfl
@[simp] theorem State.observe_prevValid (s : State) (o : Observation) : (s.observe o).prevValid = s.prevValid := rfl
@[simp] theorem State.observe_code (s : State) (o : Observation) : (s.observe o).code = s.code := rfl
@[simp] theorem State.observe_seq (s : State) (o : Observation) : (s.observe o).seq = s.seq := rfl
@[simp] theorem State.observe_mem (s : State) (o : Observation) : (s.observe o).mem = s.mem := rfl
@[simp] theorem State.observe_host (s : State) (o : Observation) : (s.observe o).host = s.host := rfl
@[simp] theorem State.observe_obs (s : State) (o : Observation) : (s.observe o).obs = o :: s.obs := rfl
@[simp] theorem State.observe_draws (s : State) (o : Observation) : (s.observe o).draws = s.draws := rfl

/-! ### One more free value drawn (10_state.md R39). -/

@[simp] theorem State.drawn_ie (s : State) : (s.drawn).ie = s.ie := rfl
@[simp] theorem State.drawn_done (s : State) : (s.drawn).done = s.done := rfl
@[simp] theorem State.drawn_hit (s : State) : (s.drawn).hit = s.hit := rfl
@[simp] theorem State.drawn_err (s : State) : (s.drawn).err = s.err := rfl
@[simp] theorem State.drawn_cfg (s : State) : (s.drawn).cfg = s.cfg := rfl
@[simp] theorem State.drawn_acfg (s : State) : (s.drawn).acfg = s.acfg := rfl
@[simp] theorem State.drawn_cmd (s : State) : (s.drawn).cmd = s.cmd := rfl
@[simp] theorem State.drawn_arg0 (s : State) : (s.drawn).arg0 = s.arg0 := rfl
@[simp] theorem State.drawn_arg1 (s : State) : (s.drawn).arg1 = s.arg1 := rfl
@[simp] theorem State.drawn_res (s : State) : (s.drawn).res = s.res := rfl
@[simp] theorem State.drawn_srcAddr (s : State) : (s.drawn).srcAddr = s.srcAddr := rfl
@[simp] theorem State.drawn_srcLen (s : State) : (s.drawn).srcLen = s.srcLen := rfl
@[simp] theorem State.drawn_dstAddr (s : State) : (s.drawn).dstAddr = s.dstAddr := rfl
@[simp] theorem State.drawn_dstCap (s : State) : (s.drawn).dstCap = s.dstCap := rfl
@[simp] theorem State.drawn_targetLen (s : State) : (s.drawn).targetLen = s.targetLen := rfl
@[simp] theorem State.drawn_dict (s : State) : (s.drawn).dict = s.dict := rfl
@[simp] theorem State.drawn_pacc (s : State) : (s.drawn).pacc = s.pacc := rfl
@[simp] theorem State.drawn_pnb (s : State) : (s.drawn).pnb = s.pnb := rfl
@[simp] theorem State.drawn_outLen (s : State) : (s.drawn).outLen = s.outLen := rfl
@[simp] theorem State.drawn_srcPos (s : State) : (s.drawn).srcPos = s.srcPos := rfl
@[simp] theorem State.drawn_srcBit (s : State) : (s.drawn).srcBit = s.srcBit := rfl
@[simp] theorem State.drawn_codeCount (s : State) : (s.drawn).codeCount = s.codeCount := rfl
@[simp] theorem State.drawn_errInfo (s : State) : (s.drawn).errInfo = s.errInfo := rfl
@[simp] theorem State.drawn_phase (s : State) : (s.drawn).phase = s.phase := rfl
@[simp] theorem State.drawn_cur (s : State) : (s.drawn).cur = s.cur := rfl
@[simp] theorem State.drawn_b (s : State) : (s.drawn).b = s.b := rfl
@[simp] theorem State.drawn_prev (s : State) : (s.drawn).prev = s.prev := rfl
@[simp] theorem State.drawn_prevValid (s : State) : (s.drawn).prevValid = s.prevValid := rfl
@[simp] theorem State.drawn_code (s : State) : (s.drawn).code = s.code := rfl
@[simp] theorem State.drawn_seq (s : State) : (s.drawn).seq = s.seq := rfl
@[simp] theorem State.drawn_mem (s : State) : (s.drawn).mem = s.mem := rfl
@[simp] theorem State.drawn_host (s : State) : (s.drawn).host = s.host := rfl
@[simp] theorem State.drawn_obs (s : State) : (s.drawn).obs = s.obs := rfl
@[simp] theorem State.drawn_draws (s : State) : (s.drawn).draws = s.draws + 1 := rfl

/-! ### The table's views -/

@[simp] theorem State.complete_dsize (s : State) : s.complete.dsize = s.dsize := rfl
@[simp] theorem State.raise_dsize (s : State) (e : Err) : (s.raise e).dsize = s.dsize := rfl
@[simp] theorem State.accept_dsize (s : State) (w : Word) (p : Phase) : (s.accept w p).dsize = s.dsize := rfl
@[simp] theorem State.putByte_dsize (s : State) (v : Byte) : (s.putByte v).dsize = s.dsize := rfl
@[simp] theorem State.packInit_dsize (s : State) : s.packInit.dsize = s.dsize := rfl
@[simp] theorem State.unpackInit_dsize (s : State) : s.unpackInit.dsize = s.dsize := rfl
@[simp] theorem State.dictInit_dsize (s : State) : s.dictInit.dsize = s.acfg.firstFree := rfl
@[simp] theorem State.latchAndInit_dsize (s : State) : s.latchAndInit.dsize = s.cfg.firstFree := rfl
@[simp] theorem State.insert_dsize (s : State) (p : Code) (y : Byte) : (s.insert p y).dsize = s.dsize + 1 := by
  simp only [State.dsize, State.insert_acfg, State.insert_dict, List.length_append, List.length_cons, List.length_nil]
  omega

/-! ### A reset -/

/-- Every field of LZWC after a reset is that of `State.reset`; memory is the one given, the host's lists stay (R191). -/
theorem State.resetTo_eq (s : State) (m : Memory) :
    s.resetTo m = { State.reset with mem := m, host := s.host, obs := s.obs, draws := s.draws } := rfl

end Sys2Proof.Machine
end

