-- ==== Sys2Proof/Laws/Memory.lean ====
section
/-! SUPPORT. The laws of memory (20_memory.md R43, R44, R47): reading after writing, and that every operation that writes memory
keeps the canonical form. -/

namespace Sys2Proof.Machine

theorem Memory.wfFrom_cons {lo k : Nat} {v : Byte} {m : Memory} :
    Memory.wfFrom lo ((k, v) :: m) = true ↔
      lo ≤ k ∧ k < 2 ^ 32 ∧ v ≠ Memory.unlisted k ∧ Memory.wfFrom (k + 1) m = true := by
  simp only [Memory.wfFrom, Bool.and_eq_true, decide_eq_true_eq, and_assoc]

theorem Memory.wfFrom_mono {lo lo' : Nat} (h : lo' ≤ lo) :
    ∀ {m : Memory}, Memory.wfFrom lo m = true → Memory.wfFrom lo' m = true
  | [], _ => rfl
  | (_, _) :: _, hm => by
    rw [Memory.wfFrom_cons] at hm ⊢
    exact ⟨h.trans hm.1, hm.2⟩

/-- Below its first address a canonical memory reads as unlisted. -/
theorem Memory.read_below : ∀ {lo a : Nat} {m : Memory}, Memory.wfFrom lo m = true → a < lo →
    Memory.read m a = Memory.unlisted a
  | _, _, [], _, _ => rfl
  | _, a, (k, v) :: m, hm, ha => by
    rw [Memory.wfFrom_cons] at hm
    have hne : ¬ k = a := by omega
    simp only [Memory.read, hne, if_false]
    exact Memory.read_below hm.2.2.2 (by omega)

theorem Memory.wfFrom_write : ∀ {lo a : Nat} {v : Byte} {m : Memory}, Memory.wfFrom lo m = true → lo ≤ a → a < 2 ^ 32 →
    Memory.wfFrom lo (Memory.write m a v) = true
  | lo, a, v, [], _, hlo, ha => by
    unfold Memory.write
    split
    · rfl
    · exact Memory.wfFrom_cons.2 ⟨hlo, ha, ‹_›, rfl⟩
  | lo, a, v, (k, x) :: m, hm, hlo, ha => by
    have hc := Memory.wfFrom_cons.1 hm
    unfold Memory.write
    split
    · split
      · exact hm
      · exact Memory.wfFrom_cons.2 ⟨hlo, ha, ‹_›, Memory.wfFrom_cons.2 ⟨by omega, hc.2⟩⟩
    · split
      · split
        · exact Memory.wfFrom_mono (by omega) hc.2.2.2
        · exact Memory.wfFrom_cons.2 ⟨hlo, ha, ‹_›, Memory.wfFrom_mono (by omega) hc.2.2.2⟩
      · exact Memory.wfFrom_cons.2 ⟨hc.1, hc.2.1, hc.2.2.1, Memory.wfFrom_write hc.2.2.2 (by omega) ha⟩

/-- A write inside the space keeps the canonical form. -/
theorem Memory.write_wf {m : Memory} {a : Nat} {v : Byte} (hm : m.wf = true) (ha : a < 2 ^ 32) : (m.write a v).wf = true :=
  Memory.wfFrom_write hm (Nat.zero_le a) ha

/-- A write leaves every other address alone, in any memory. -/
theorem Memory.read_write_other {a b : Nat} {v : Byte} (hne : b ≠ a) :
    ∀ m : Memory, Memory.read (Memory.write m a v) b = Memory.read m b
  | [] => by
    unfold Memory.write
    split
    · rfl
    · simp only [Memory.read, if_neg (Ne.symm hne)]
  | (k, x) :: m => by
    unfold Memory.write
    split
    · split
      · rfl
      · simp only [Memory.read, if_neg (Ne.symm hne)]
    · split
      · have hk : ¬ k = b := by omega
        split
        · simp only [Memory.read, if_neg hk]
        · simp only [Memory.read, if_neg (Ne.symm hne), if_neg hk]
      · simp only [Memory.read, Memory.read_write_other hne m]

theorem Memory.read_writeFrom_same {a : Nat} {v : Byte} :
    ∀ {lo : Nat} {m : Memory}, Memory.wfFrom lo m = true → Memory.read (Memory.write m a v) a = v
  | _, [], _ => by
    unfold Memory.write
    split
    · exact (‹v = _›).symm
    · simp only [Memory.read, if_true]
  | _, (k, x) :: m, hm => by
    have hc := (Memory.wfFrom_cons.1 hm).2.2.2
    unfold Memory.write
    split
    · split
      · have hk : ¬ k = a := by omega
        simp only [Memory.read, if_neg hk]
        rw [Memory.read_below hc (by omega)]
        exact (‹v = _›).symm
      · simp only [Memory.read, if_true]
    · split
      · split
        · rw [Memory.read_below hc (by omega)]
          exact (‹v = _›).symm
        · simp only [Memory.read, if_true]
      · have hk : ¬ k = a := by omega
        simp only [Memory.read, if_neg hk]
        exact Memory.read_writeFrom_same hc

/-- A canonical memory gives back the byte just written. -/
theorem Memory.read_write_same {m : Memory} {a : Nat} {v : Byte} (hm : m.wf = true) : (m.write a v).read a = v :=
  Memory.read_writeFrom_same hm

/-- What a canonical memory reads as after a write, at any address. -/
theorem Memory.read_write {m : Memory} {a b : Nat} {v : Byte} (hm : m.wf = true) :
    (m.write a v).read b = if b = a then v else m.read b := by
  split
  · subst b
    exact Memory.read_write_same hm
  · exact Memory.read_write_other ‹_› m

/-! ### Every operation that writes memory keeps the canonical form -/

theorem State.memWrite_wf {s : State} (hm : s.mem.wf = true) (a : Word) (v : Byte) : (s.memWrite a v).mem.wf = true :=
  Memory.write_wf hm a.isLt

theorem State.putByte_wf {s : State} (hm : s.mem.wf = true) (v : Byte) : (s.putByte v).mem.wf = true :=
  Memory.write_wf hm (s.dstAddr + s.outLen).isLt

theorem State.putBytes_wf : ∀ {s : State} (l : List Byte), s.mem.wf = true → (s.putBytes l).mem.wf = true
  | _, [], hm => hm
  | _, v :: l, hm => State.putBytes_wf l (State.putByte_wf hm v)

theorem State.memWriteList_wf : ∀ {s : State} (a : Word) (l : List Byte), s.mem.wf = true →
    (s.memWriteList a l).mem.wf = true
  | _, _, [], hm => hm
  | _, a, v :: l, hm => State.memWriteList_wf (a + 1) l (State.memWrite_wf hm a v)

theorem State.packBit_wf {s : State} (hm : s.mem.wf = true) (bit : Bool) : (s.packBit bit).mem.wf = true := by
  unfold State.packBit
  dsimp only
  split
  · exact State.putByte_wf hm _
  · exact hm

theorem State.packBits_wf : ∀ {s : State} (v : Code) (w : Nat), s.mem.wf = true → (s.packBits v w).mem.wf = true
  | _, _, 0, hm => hm
  | _, v, w + 1, hm => State.packBits_wf v w (State.packBit_wf hm _)

theorem State.partialMem_wf {s : State} (hm : s.mem.wf = true) : ∀ k : Nat, (s.partialMem k).wf = true
  | 0 => hm
  | k + 1 => Memory.write_wf (State.partialMem_wf hm k) (s.dstAddr + s.outLen + BitVec.ofNat 32 k).isLt

theorem State.reset_wf : State.reset.mem.wf = true := rfl

end Sys2Proof.Machine
end

