-- ==== Sys2Proof/Laws/Ops.lean ====
section
/-! SUPPORT. What the shared operations can do, said once each: bits, the configuration, the start and the end of a command, the
region check (40_command.md R75 to R77, 41_dictionary.md R85 to R91, 60_exceptions.md R168, 20_memory.md R48). -/

namespace Sys2Proof

@[simp] theorem decode_encode (i : Instr) : decode (encode i) = .ok i := by cases i <;> rfl

namespace Machine

/-! ### Bits -/

theorem getLsbD_setBit (x : Byte) (k i : Nat) (v : Bool) (hk : k < 8) :
    (setBit x k v).getLsbD i = if i = k then v else x.getLsbD i := by
  have key : ∀ j : Nat, j < 8 → (1#8 <<< k).getLsbD j = decide (j = k) := by
    intro j hj
    simp only [BitVec.getLsbD_shiftLeft, BitVec.getLsbD_one]
    by_cases h : j = k
    · subst h
      simp [hk]
    · have : ¬ (k ≤ j ∧ j - k = 0) := by omega
      by_cases hlt : j < k
      · simp [h, hlt]
      · have h0 : j - k ≠ 0 := by omega
        simp [h, h0]
  by_cases hi : i < 8
  · unfold setBit
    cases v
    · simp only [cond_false, BitVec.getLsbD_and, BitVec.getLsbD_not, key i hi, hi]
      by_cases h : i = k <;> simp [h]
    · simp only [cond_true, BitVec.getLsbD_or, key i hi]
      by_cases h : i = k <;> simp [h]
  · have h1 : i ≠ k := by omega
    rw [if_neg h1, BitVec.getLsbD_of_ge _ _ (by omega), BitVec.getLsbD_of_ge _ _ (by omega)]

theorem bitOf_le_one (v : Bool) : bitOf v ≤ 1 := by cases v <;> decide

/-! ### The configuration and the code-width tracker -/

theorem pMaxw_bounds : 12 ≤ Config.pMaxw ∧ Config.pMaxw ≤ 16 := by
  have := Config.extraWidth.isLt
  unfold Config.pMaxw
  omega

theorem CfgFields.legal_iff (c : CfgFields) :
    c.legal = true ↔ 9 ≤ c.maxw ∧ c.maxw ≤ Config.pMaxw ∧ 9 ≤ c.initw ∧ c.initw ≤ c.maxw := by
  unfold CfgFields.legal
  exact decide_eq_true_iff

theorem resetCfg_legal : resetCfg.legal = true := by
  have := pMaxw_bounds
  rw [CfgFields.legal_iff]
  have h1 : resetCfg.maxw = 12 := rfl
  have h2 : resetCfg.initw = 9 := rfl
  omega

theorem CfgFields.firstFree_cases (c : CfgFields) :
    (c.ctrl = false ∧ c.firstFree = 256) ∨ (c.ctrl = true ∧ c.firstFree = 258) := by
  unfold CfgFields.firstFree
  cases c.ctrl <;> simp

theorem CfgFields.maxSize_bounds {c : CfgFields} (h : c.legal = true) : 512 ≤ c.maxSize ∧ c.maxSize ≤ 65536 := by
  have hb := pMaxw_bounds
  have hl := (CfgFields.legal_iff c).1 h
  unfold CfgFields.maxSize
  constructor
  · exact (Nat.pow_le_pow_right (by decide) hl.1 : 2 ^ 9 ≤ 2 ^ c.maxw)
  · exact (Nat.pow_le_pow_right (by decide) (by omega) : 2 ^ c.maxw ≤ 2 ^ 16)

/-- `bitlen(n)` is the least `w` with `2^w > n` (R10). -/
theorem bitlen_le_iff (n w : Nat) : bitlen n ≤ w ↔ n < 2 ^ w := by
  unfold bitlen
  by_cases h : n = 0
  · simp [h]
  · rw [if_neg h, Nat.succ_le_iff, Nat.log2_lt h]

theorem lt_two_pow_bitlen (n : Nat) : n < 2 ^ bitlen n := (bitlen_le_iff n _).1 le_rfl

theorem bitlen_mono {m n : Nat} (h : m ≤ n) : bitlen m ≤ bitlen n :=
  (bitlen_le_iff m _).2 (h.trans_lt (lt_two_pow_bitlen n))

theorem CfgFields.widthOf_bounds {c : CfgFields} (h : c.legal = true) (n : Nat) : 9 ≤ c.widthOf n ∧ c.widthOf n ≤ 16 := by
  have hb := pMaxw_bounds
  have hl := (CfgFields.legal_iff c).1 h
  unfold CfgFields.widthOf
  omega

/-- R87's check passes exactly on the legal configurations. -/
theorem State.cfgCheck_eq_ok_iff (s : State) : s.cfgCheck = .ok () ↔ s.cfg.legal = true := by
  rw [CfgFields.legal_iff]
  unfold State.cfgCheck
  split
  · constructor
    · intro h; cases h
    · intro h; omega
  · split
    · constructor
      · intro h; cases h
      · intro h; omega
    · constructor
      · intro _; omega
      · intro _; rfl

/-- R87's check raises InvalidConfiguration(1) or (2), MAX_WIDTH first. -/
theorem State.cfgCheck_eq_error_iff (s : State) (e : Err) :
    s.cfgCheck = .error e ↔
      ((s.cfg.maxw < 9 ∨ Config.pMaxw < s.cfg.maxw) ∧ e = Err.maxWidth) ∨
      ((9 ≤ s.cfg.maxw ∧ s.cfg.maxw ≤ Config.pMaxw) ∧ (s.cfg.initw < 9 ∨ s.cfg.maxw < s.cfg.initw) ∧ e = Err.initWidth) := by
  unfold State.cfgCheck
  split
  · rename_i h
    constructor
    · intro he
      cases he
      exact .inl ⟨h, rfl⟩
    · rintro (⟨-, rfl⟩ | ⟨h', -⟩)
      · rfl
      · omega
  · rename_i h
    split
    · rename_i h2
      constructor
      · intro he
        cases he
        exact .inr ⟨by omega, h2, rfl⟩
      · rintro (⟨h', -⟩ | ⟨-, -, rfl⟩)
        · exact absurd h' h
        · rfl
    · rename_i h2
      constructor
      · intro he
        cases he
      · rintro (⟨h', -⟩ | ⟨-, h', -⟩)
        · exact absurd h' h
        · exact absurd h' h2

/-- The region check passes exactly when neither region wraps and the two share no byte (R48). -/
theorem State.regionsOk_eq_ok_iff (s : State) (n : Word) :
    s.regionsOk n = .ok () ↔
      s.srcAddr.toNat + s.srcLen.toNat ≤ 2 ^ 32 ∧ s.dstAddr.toNat + n.toNat ≤ 2 ^ 32 ∧
      (s.srcLen.toNat = 0 ∨ n.toNat = 0 ∨ s.dstAddr.toNat + n.toNat ≤ s.srcAddr.toNat ∨
        s.srcAddr.toNat + s.srcLen.toNat ≤ s.dstAddr.toNat) := by
  unfold State.regionsOk
  split
  · constructor
    · intro h; cases h
    · intro h; omega
  · split
    · constructor
      · intro h; cases h
      · intro h; omega
    · split
      · constructor
        · intro h; cases h
        · intro h; omega
      · constructor
        · intro _; omega
        · intro _; rfl

theorem State.startCheck_eq_ok_iff (s : State) (n : Word) :
    s.startCheck n = .ok () ↔ s.cfg.legal = true ∧ s.regionsOk n = .ok () := by
  rw [← State.cfgCheck_eq_ok_iff]
  unfold State.startCheck
  cases h : s.cfgCheck with
  | error e => simp
  | ok u => simp

/-! ### The end of a command -/

@[simp] theorem State.finish_ok (s t : State) : s.finish (.ok t) = t.complete := rfl
@[simp] theorem State.finish_error (s : State) (e : Err) : s.finish (.error e) = s.raise e := rfl
@[simp] theorem State.goOn_ok (s t : State) (p : Phase) : s.goOn p (.ok t) = { t with phase := p } := rfl
@[simp] theorem State.goOn_error (s : State) (p : Phase) (e : Err) : s.goOn p (.error e) = s.raise e := rfl

/-- A command that ends is idle and has set DONE, error or not (R76, R168). -/
theorem State.finish_idle_done (s : State) (r : Except Err State) : (s.finish r).phase = .idle ∧ (s.finish r).done = true := by
  cases r <;> exact ⟨rfl, rfl⟩

/-- Every way a one-step command can end. -/
theorem State.finish_cases (s : State) (r : Except Err State) :
    (∃ t, r = .ok t ∧ s.finish r = t.complete) ∨ (∃ e, r = .error e ∧ s.finish r = s.raise e) := by
  cases r with
  | ok t => exact .inl ⟨t, rfl, rfl⟩
  | error e => exact .inr ⟨e, rfl, rfl⟩

/-- Every way a step of a long command can go on. -/
theorem State.goOn_cases (s : State) (p : Phase) (r : Except Err State) :
    (∃ t, r = .ok t ∧ s.goOn p r = { t with phase := p }) ∨ (∃ e, r = .error e ∧ s.goOn p r = s.raise e) := by
  cases r with
  | ok t => exact .inl ⟨t, rfl, rfl⟩
  | error e => exact .inr ⟨e, rfl, rfl⟩

/-- A command that ends with an error before it did anything leaves `State.failed` (R75, R168, R169). -/
theorem State.accept_raise {s : State} (h : s.phase = .idle) (i : Instr) (p : Phase) (e : Err) :
    (s.accept (encode i) p).raise e = s.failed i e := by
  unfold State.failed State.raise State.accept
  simp [h]

/-- A command that completes without doing anything leaves `State.ended` (R75, R76). -/
theorem State.accept_complete {s : State} (h : s.phase = .idle) (i : Instr) (p : Phase) :
    (s.accept (encode i) p).complete = s.ended i := by
  unfold State.ended State.complete State.accept
  simp [h]

theorem widthOk_eq_false_iff (w : BitVec 5) : widthOk w = false ↔ w.toNat < 1 ∨ 16 < w.toNat := by
  unfold widthOk
  rw [decide_eq_false_iff_not]
  omega

theorem State.runPrimitive_idle {s : State} (h : s.phase = .idle) (i : Instr) (body : State → State) :
    s.runPrimitive i body = .next (body (s.accept (encode i) (firstPhase i))) := by
  unfold State.runPrimitive
  rw [if_pos h]

theorem State.runPrimitive_busy {s : State} (h : s.phase ≠ .idle) (i : Instr) (body : State → State) :
    s.runPrimitive i body = .next s := by
  unfold State.runPrimitive
  rw [if_neg h]

/-! ### The dictionary -/

theorem State.isEntry_iff (s : State) (c : Nat) :
    s.isEntry c = true ↔ c ≤ 255 ∨ (s.acfg.firstFree ≤ c ∧ c < s.dsize) := by
  unfold State.isEntry
  exact decide_eq_true_iff

theorem State.isFull_iff (s : State) : s.isFull = true ↔ s.dsize = 2 ^ s.acfg.maxWidth.toNat := by
  unfold State.isFull
  exact decide_eq_true_iff

/-- A code with an entry is allocated, and the entry is the one at its place (R29). -/
theorem State.entry?_eq_some {s : State} {c : Nat} {e : Entry} (h : s.entry? c = some e) :
    s.acfg.firstFree ≤ c ∧ c < s.dsize ∧ s.dict[c - s.acfg.firstFree]? = some e := by
  unfold State.entry? at h
  split at h
  · cases h
  · refine ⟨by omega, ?_, h⟩
    unfold State.dsize
    by_contra hge
    rw [List.getElem?_eq_none (by omega)] at h
    cases h

theorem findPair_eq_some_iff (p : Code) (y : Byte) : ∀ (l : List Entry) (n : Nat),
    findPair p y l = some n ↔ l[n]? = some ⟨p, y⟩ ∧ ∀ m < n, l[m]? ≠ some ⟨p, y⟩
  | [], n => by simp [findPair]
  | e :: es, n => by
    unfold findPair
    by_cases h : e.pre = p ∧ e.sym = y
    · rw [if_pos h]
      have he : e = ⟨p, y⟩ := by cases e; simp_all
      cases n with
      | zero => simp [he]
      | succ n =>
        constructor
        · intro hh; simp at hh
        · rintro ⟨-, hm⟩
          exact absurd (by simp [he]) (hm 0 (Nat.succ_pos n))
    · rw [if_neg h]
      have he : e ≠ ⟨p, y⟩ := by rintro rfl; exact h ⟨rfl, rfl⟩
      cases n with
      | zero => simp [he]
      | succ n =>
        have ih := findPair_eq_some_iff p y es n
        constructor
        · intro hh
          rw [Option.map_eq_some_iff] at hh
          obtain ⟨a, ha, hn⟩ := hh
          have : a = n := by omega
          subst this
          obtain ⟨h1, h2⟩ := (findPair_eq_some_iff p y es a).1 ha
          refine ⟨by simpa using h1, fun m hm => ?_⟩
          cases m with
          | zero => simpa using he
          | succ m => simpa using h2 m (by omega)
        · rintro ⟨h1, h2⟩
          rw [Option.map_eq_some_iff]
          refine ⟨n, ih.2 ⟨by simpa using h1, fun m hm => ?_⟩, rfl⟩
          simpa using h2 (m + 1) (by omega)

theorem findPair_eq_none_iff (p : Code) (y : Byte) : ∀ l : List Entry,
    findPair p y l = none ↔ ∀ n : Nat, l[n]? ≠ some (⟨p, y⟩ : Entry)
  | [] => by simp [findPair]
  | e :: es => by
    unfold findPair
    by_cases h : e.pre = p ∧ e.sym = y
    · rw [if_pos h]
      have he : e = ⟨p, y⟩ := by cases e; simp_all
      simp only [reduceCtorEq, false_iff]
      intro hh
      exact hh 0 (by simp [he])
    · rw [if_neg h]
      have he : e ≠ ⟨p, y⟩ := by rintro rfl; exact h ⟨rfl, rfl⟩
      rw [Option.map_eq_none_iff, findPair_eq_none_iff p y es]
      constructor
      · intro hh n
        cases n with
        | zero => simpa using he
        | succ n => simpa using hh n
      · intro hh n
        simpa using hh (n + 1)

end Machine

end Sys2Proof
end

