-- ==== Sys2Proof/Laws/Stream.lean ====
section
/-! SUPPORT. What the packer and the unpacker can do (42_bitpack.md R106 to R108, 43_bitunpack.md R116): the fields they may
change, where the stream position ends, and which bits are written and read. -/

namespace Sys2Proof.Machine

/-- One packed bit changes only memory, PACC, PNB and OUT_LEN. -/
theorem State.packBit_frame (s : State) (bit : Bool) : ∃ m a n o,
    s.packBit bit = { s with mem := m, pacc := a, pnb := n, outLen := o } := by
  unfold State.packBit
  dsimp only
  split
  · exact ⟨_, _, _, _, rfl⟩
  · exact ⟨s.mem, _, _, s.outLen, rfl⟩

/-- Packing bits changes only memory, PACC, PNB and OUT_LEN. -/
theorem State.packBits_frame (v : Code) : ∀ (w : Nat) (s : State), ∃ m a n o,
    s.packBits v w = { s with mem := m, pacc := a, pnb := n, outLen := o }
  | 0, s => ⟨s.mem, s.pacc, s.pnb, s.outLen, rfl⟩
  | w + 1, s => by
    obtain ⟨m, a, n, o, h⟩ := State.packBit_frame s (v.getLsbD w)
    obtain ⟨m', a', n', o', h'⟩ := State.packBits_frame v w (s.packBit (v.getLsbD w))
    refine ⟨m', a', n', o', ?_⟩
    unfold State.packBits
    rw [h', h]

/-- The case of a bit that completes a byte. -/
theorem State.packBit_full {s : State} (b : Bool) (h : s.pnb.toNat + 1 = 8) :
    s.packBit b = { s.putByte (setBit s.pacc 0 b) with pacc := 0, pnb := 0 } := by
  unfold State.packBit
  dsimp only
  rw [if_pos h, show 7 - s.pnb.toNat = 0 by omega]

/-- The case of a bit that stays in PACC. -/
theorem State.packBit_part {s : State} (b : Bool) (h : s.pnb.toNat + 1 ≠ 8) :
    s.packBit b = { s with pacc := setBit s.pacc (7 - s.pnb.toNat) b, pnb := s.pnb + 1 } := by
  unfold State.packBit
  dsimp only
  rw [if_neg h]

theorem State.packBit_dstAddr (s : State) (b : Bool) : (s.packBit b).dstAddr = s.dstAddr := by
  obtain ⟨m, a, n, o, h⟩ := State.packBit_frame s b
  rw [h]

theorem State.pnb_succ {s : State} (h : s.pnb.toNat + 1 ≠ 8) : (s.pnb + 1).toNat = s.pnb.toNat + 1 := by
  have hp := s.pnb.isLt
  rw [BitVec.toNat_add]
  have h1 : (1 : BitVec 3).toNat = 1 := rfl
  exact Nat.mod_eq_of_lt (by omega)

theorem State.outLen_succ {s : State} (h : s.outLen.toNat + 1 < 2 ^ 32) : (s.outLen + 1).toNat = s.outLen.toNat + 1 := by
  rw [BitVec.toNat_add]
  exact Nat.mod_eq_of_lt h

/-- One packed bit moves the stream on by one bit, as long as OUT_LEN does not wrap. -/
theorem State.packBit_bitsOut {s : State} (bit : Bool) (h : s.bitsOut + 1 < 8 * 2 ^ 32) :
    (s.packBit bit).bitsOut = s.bitsOut + 1 := by
  have hbo : s.bitsOut = 8 * s.outLen.toNat + s.pnb.toNat := rfl
  by_cases hf : s.pnb.toNat + 1 = 8
  · rw [State.packBit_full _ hf]
    show 8 * (s.outLen + 1).toNat + (0 : BitVec 3).toNat = _
    have h0 : (0 : BitVec 3).toNat = 0 := rfl
    rw [State.outLen_succ (by omega)]
    omega
  · rw [State.packBit_part _ hf]
    show 8 * s.outLen.toNat + (s.pnb + 1).toNat = _
    rw [State.pnb_succ hf]
    omega

/-- Packing `w` bits moves the stream on by `w` bits. -/
theorem State.packBits_bitsOut (v : Code) : ∀ (w : Nat) (s : State), s.bitsOut + w < 8 * 2 ^ 32 →
    (s.packBits v w).bitsOut = s.bitsOut + w
  | 0, _, _ => rfl
  | w + 1, s, h => by
    unfold State.packBits
    rw [State.packBits_bitsOut v w _ (by rw [State.packBit_bitsOut _ (by omega)]; omega),
      State.packBit_bitsOut _ (by omega)]
    omega

/-! ### The bits themselves -/

/-- Two places of a region shorter than the address space are different bytes (R13, R44). -/
theorem regionAddr_ne (a : Word) {i j : Nat} (hi : i < 2 ^ 32) (hj : j < 2 ^ 32) (h : i ≠ j) :
    (a + BitVec.ofNat 32 i).toNat ≠ (a + BitVec.ofNat 32 j).toNat := by
  intro he
  have he := BitVec.eq_of_toNat_eq he
  have h2 : (BitVec.ofNat 32 i).toNat = (BitVec.ofNat 32 j).toNat := by
    rw [(BitVec.add_right_inj a).1 he]
  simp only [BitVec.toNat_ofNat] at h2
  omega

theorem regionAddr_toNat (a o : Word) : (a + BitVec.ofNat 32 o.toNat).toNat = (a + o).toNat := by
  rw [BitVec.ofNat_toNat, BitVec.setWidth_eq]

theorem State.outBit_inMem {s : State} {k : Nat} (h : k < 8 * s.outLen.toNat) :
    s.outBit k = (s.mem.read (s.dstAddr + BitVec.ofNat 32 (k / 8)).toNat).getLsbD (7 - k % 8) := by
  unfold State.outBit
  rw [if_pos h]

theorem State.outBit_pending {s : State} {k : Nat} (h : ¬ k < 8 * s.outLen.toNat) :
    s.outBit k = s.pacc.getLsbD (7 - k % 8) := by
  unfold State.outBit
  rw [if_neg h]

/-- One packed bit keeps the bits already in the stream and is the next one. -/
theorem State.packBit_outBit {s : State} (b : Bool) (hm : s.mem.wf = true) (h : s.bitsOut + 1 < 8 * 2 ^ 32) :
    (∀ k < s.bitsOut, (s.packBit b).outBit k = s.outBit k) ∧ (s.packBit b).outBit s.bitsOut = b := by
  have hp := s.pnb.isLt
  have hbo : s.bitsOut = 8 * s.outLen.toNat + s.pnb.toNat := rfl
  suffices key : ∀ k, k ≤ s.bitsOut → (s.packBit b).outBit k = if k = s.bitsOut then b else s.outBit k from
    ⟨fun k hk => (key k (by omega)).trans (if_neg (by omega)), (key _ le_rfl).trans (if_pos rfl)⟩
  intro k hk
  by_cases hf : s.pnb.toNat + 1 = 8
  · have ho : (s.outLen + 1).toNat = s.outLen.toNat + 1 := State.outLen_succ (by omega)
    rw [State.packBit_full b hf]
    rw [State.outBit_inMem (by show k < 8 * (s.outLen + 1).toNat; rw [ho]; omega)]
    show ((s.mem.write (s.dstAddr + s.outLen).toNat (setBit s.pacc 0 b)).read (s.dstAddr + BitVec.ofNat 32 (k / 8)).toNat).getLsbD _ = _
    by_cases hlt : k < 8 * s.outLen.toNat
    · have hk' : k ≠ s.bitsOut := by omega
      rw [if_neg hk', State.outBit_inMem hlt, Memory.read_write_other]
      rw [← regionAddr_toNat s.dstAddr s.outLen]
      exact regionAddr_ne _ (by omega) (by omega) (by omega)
    · have hk8 : k / 8 = s.outLen.toNat := by omega
      rw [hk8, regionAddr_toNat, Memory.read_write_same hm, State.outBit_pending hlt, getLsbD_setBit _ _ _ _ (by omega)]
      by_cases he : k = s.bitsOut
      · rw [if_pos (by omega), if_pos he]
      · rw [if_neg (by omega), if_neg he]
  · rw [State.packBit_part b hf]
    by_cases hlt : k < 8 * s.outLen.toNat
    · have hk' : k ≠ s.bitsOut := by omega
      rw [if_neg hk', State.outBit_inMem hlt]
      exact State.outBit_inMem (s := { s with pacc := setBit s.pacc (7 - s.pnb.toNat) b, pnb := s.pnb + 1 }) hlt
    · rw [State.outBit_pending hlt,
        State.outBit_pending (s := { s with pacc := setBit s.pacc (7 - s.pnb.toNat) b, pnb := s.pnb + 1 }) hlt]
      show (setBit s.pacc (7 - s.pnb.toNat) b).getLsbD _ = _
      rw [getLsbD_setBit _ _ _ _ (by omega)]
      by_cases he : k = s.bitsOut
      · rw [if_pos (by omega), if_pos he]
      · rw [if_neg (by omega), if_neg he]

/-- Packing `w` bits keeps the bits already in the stream, and the new ones are the low `w` bits, most significant first (R106). -/
theorem State.packBits_outBit (v : Code) : ∀ (w : Nat) {s : State}, s.mem.wf = true → s.bitsOut + w < 8 * 2 ^ 32 →
    (∀ k < s.bitsOut, (s.packBits v w).outBit k = s.outBit k) ∧
    (∀ j < w, (s.packBits v w).outBit (s.bitsOut + j) = v.getLsbD (w - 1 - j))
  | 0, _, _, _ => ⟨fun _ _ => rfl, fun j hj => absurd hj (Nat.not_lt_zero j)⟩
  | w + 1, s, hm, h => by
    have hb := State.packBit_bitsOut (s := s) (v.getLsbD w) (by omega)
    obtain ⟨h1, h2⟩ := State.packBit_outBit (v.getLsbD w) hm (by omega)
    obtain ⟨i1, i2⟩ := State.packBits_outBit v w (State.packBit_wf hm (v.getLsbD w)) (by omega)
    unfold State.packBits
    refine ⟨fun k hk => (i1 k (by omega)).trans (h1 k hk), fun j hj => ?_⟩
    cases j with
    | zero => rw [Nat.add_zero, i1 _ (by omega), h2]; rfl
    | succ j =>
      have := i2 j (by omega)
      rw [hb] at this
      rw [show s.bitsOut + (j + 1) = s.bitsOut + 1 + j by omega, this]
      congr 1
      omega

/-- Packing bits writes only the bytes that OUT_LEN passes. -/
theorem State.packBits_memBut (v : Code) : ∀ (w : Nat) {s : State}, s.bitsOut + w < 8 * 2 ^ 32 →
    SameMemoryBut s (s.packBits v w) s.outLen.toNat (s.packBits v w).outLen.toNat
  | 0, _, _ => fun _ _ => rfl
  | w + 1, s, h => by
    have hp := s.pnb.isLt
    have hbo : s.bitsOut = 8 * s.outLen.toNat + s.pnb.toNat := rfl
    have hb := State.packBit_bitsOut (s := s) (v.getLsbD w) (by omega)
    have ih := State.packBits_memBut v w (s := s.packBit (v.getLsbD w)) (by omega)
    have hbt := State.packBits_bitsOut v w (s.packBit (v.getLsbD w)) (by omega)
    unfold State.packBits
    intro a ha
    have hd := State.packBit_dstAddr s (v.getLsbD w)
    have hout : s.outLen.toNat ≤ (s.packBit (v.getLsbD w)).outLen.toNat := by
      have := (s.packBit (v.getLsbD w)).pnb.isLt
      unfold State.bitsOut at hb
      omega
    rw [ih a (fun i h1 h2 => by rw [hd]; exact ha i (by omega) h2)]
    by_cases hf : s.pnb.toNat + 1 = 8
    · rw [State.packBit_full _ hf]
      show (s.mem.write (s.dstAddr + s.outLen).toNat _).read a = _
      refine Memory.read_write_other ?_ _
      rw [← regionAddr_toNat]
      refine ha _ le_rfl ?_
      have := ((s.packBit (v.getLsbD w)).packBits v w).pnb.isLt
      unfold State.bitsOut at hb hbt
      omega
    · rw [State.packBit_part _ hf]

/-- Packing keeps the unused low bits of PACC 0 (10_state.md R42 item 4). -/
theorem State.packBit_padZero {s : State} (h : s.PadZero) (bit : Bool) : (s.packBit bit).PadZero := by
  have hp := s.pnb.isLt
  by_cases hf : s.pnb.toNat + 1 = 8
  · rw [State.packBit_full _ hf]
    intro i _
    simp
  · rw [State.packBit_part _ hf]
    intro i hi
    simp only [State.pnb_succ hf] at hi
    show (setBit s.pacc (7 - s.pnb.toNat) bit).getLsbD i = false
    rw [getLsbD_setBit _ _ _ _ (by omega), if_neg (by omega)]
    exact h i (by omega)

theorem State.packBits_padZero (v : Code) : ∀ (w : Nat) {s : State}, s.PadZero → (s.packBits v w).PadZero
  | 0, _, h => h
  | w + 1, _, h => State.packBits_padZero v w (State.packBit_padZero h _)

/-! ### `pack_write` and `pack_flush` -/

/-- Everything a successful `pack_write` can do (R106). -/
theorem State.packWrite_ok {s t : State} {v : Code} {w : Nat} (h : s.packWrite v w = .ok t) :
    s.outLen.toNat + (s.pnb.toNat + w) / 8 ≤ s.dstCap.toNat ∧
    t = { s.packBits v w with codeCount := s.codeCount + 1 } ∧
    ∃ m a n o, t = { s with mem := m, pacc := a, pnb := n, outLen := o, codeCount := s.codeCount + 1 } := by
  unfold State.packWrite at h
  split at h
  · cases h
  · cases h
    obtain ⟨m, a, n, o, hf⟩ := State.packBits_frame v w s
    exact ⟨by omega, rfl, m, a, n, o, by rw [hf]⟩

/-- `pack_write` raises only OutputOverflow with the value passed (R106, R167). -/
theorem State.packWrite_error {s : State} {v : Code} {w : Nat} {e : Err} (h : s.packWrite v w = .error e) :
    e = Err.overflow v ∧ s.dstCap.toNat < s.outLen.toNat + (s.pnb.toNat + w) / 8 := by
  unfold State.packWrite at h
  split at h
  · cases h
    exact ⟨rfl, ‹_›⟩
  · cases h

/-- Everything a successful `pack_flush` can do (R107). -/
theorem State.packFlush_ok {s t : State} (h : s.packFlush = .ok t) :
    (s.pnb = 0 ∧ t = s) ∨
    (s.pnb ≠ 0 ∧ s.outLen.toNat + 1 ≤ s.dstCap.toNat ∧ t = { s.putByte s.pacc with pacc := 0, pnb := 0 }) := by
  unfold State.packFlush at h
  split at h
  · cases h
    exact .inl ⟨‹_›, rfl⟩
  · split at h
    · cases h
    · cases h
      exact .inr ⟨‹_›, by omega, rfl⟩

/-- `pack_flush` raises only OutputOverflow(0) (R107). -/
theorem State.packFlush_error {s : State} {e : Err} (h : s.packFlush = .error e) :
    e = Err.flushOverflow ∧ s.pnb ≠ 0 ∧ s.dstCap.toNat < s.outLen.toNat + 1 := by
  unfold State.packFlush at h
  split at h
  · cases h
  · split at h
    · cases h
      exact ⟨rfl, ‹_›, by omega⟩
    · cases h

/-- The address one further on. -/
theorem addr_succ (a : Word) (i : Nat) : a + 1 + BitVec.ofNat 32 i = a + BitVec.ofNat 32 (i + 1) := by
  rw [BitVec.add_assoc]
  congr 1
  rw [BitVec.ofNat_add, BitVec.add_comm]
  rfl

/-- Bytes appended to the DST region change only memory and OUT_LEN. -/
theorem State.putBytes_frame : ∀ (l : List Byte) (s : State), ∃ m o, s.putBytes l = { s with mem := m, outLen := o }
  | [], s => ⟨s.mem, s.outLen, rfl⟩
  | v :: l, s => by
    obtain ⟨m, o, h⟩ := State.putBytes_frame l (s.putByte v)
    exact ⟨m, o, by rw [State.putBytes, h]; rfl⟩

/-- All that `putBytes` does, as long as OUT_LEN does not wrap: the bytes stand in order from DST_ADDR + OUT_LEN, which grows by their
number, and no other byte of memory changes (R141, R148). -/
theorem State.putBytes_spec : ∀ (l : List Byte) (s : State), s.mem.wf = true → s.outLen.toNat + l.length < 2 ^ 32 →
    ∃ (m : Memory) (o : Word), s.putBytes l = { s with mem := m, outLen := o } ∧ o.toNat = s.outLen.toNat + l.length ∧
      (∀ j < l.length, l[j]? = some (m.read (s.dstAddr + (s.outLen + BitVec.ofNat 32 j)).toNat)) ∧
      (∀ a : Nat, (∀ j < l.length, a ≠ (s.dstAddr + (s.outLen + BitVec.ofNat 32 j)).toNat) → m.read a = s.mem.read a)
  | [], s, _, _ => ⟨s.mem, s.outLen, rfl, rfl, fun _ h => absurd h (Nat.not_lt_zero _), fun _ _ => rfl⟩
  | v :: l, s, hm, hl => by
    rw [List.length_cons] at hl ⊢
    have ho : (s.putByte v).outLen.toNat = s.outLen.toNat + 1 := by
      show (s.outLen + 1).toNat = _
      rw [BitVec.toNat_add]
      exact Nat.mod_eq_of_lt (by show s.outLen.toNat + 1 < 2 ^ 32; omega)
    obtain ⟨m, o, h1, h2, h3, h4⟩ :=
      State.putBytes_spec l (s.putByte v) (Memory.write_wf hm (BitVec.isLt _)) (by omega)
    have hnext : ∀ j, (s.putByte v).dstAddr + ((s.putByte v).outLen + BitVec.ofNat 32 j) =
        s.dstAddr + (s.outLen + BitVec.ofNat 32 (j + 1)) := fun j => congrArg (s.dstAddr + ·) (addr_succ s.outLen j)
    simp only [hnext] at h3 h4
    refine ⟨m, o, by rw [State.putBytes, h1]; rfl, by omega, ?_, ?_⟩
    · intro j hj
      cases j with
      | zero =>
        rw [h4]
        · show some v = some ((s.mem.write _ v).read _)
          rw [BitVec.add_zero, Memory.read_write_same hm]
        · intro j hj h
          have := (BitVec.add_right_inj _).1 ((BitVec.add_right_inj _).1 (BitVec.eq_of_toNat_eq h))
          have := congrArg BitVec.toNat this
          rw [BitVec.toNat_ofNat, BitVec.toNat_ofNat] at this
          omega
      | succ j => rw [List.getElem?_cons_succ, h3 j (by omega)]
    · intro a ha
      rw [h4 a fun j hj => ha (j + 1) (by omega)]
      exact Memory.read_write_other (by simpa using ha 0 (by omega)) _

/-! ### The unpacker -/

/-- One bit of the source skipped moves the read position by one, and changes only the position. -/
theorem State.skipBit_frame (s : State) : ∃ p q, s.skipBit = { s with srcPos := p, srcBit := q } := by
  unfold State.skipBit
  split
  · exact ⟨_, _, rfl⟩
  · exact ⟨s.srcPos, _, rfl⟩

theorem State.skipBit_bitsIn {s : State} (h : s.srcPos.toNat + 1 < 2 ^ 32) : s.skipBit.bitsIn = s.bitsIn + 1 := by
  have hb := s.srcBit.isLt
  unfold State.skipBit State.bitsIn
  split
  · have hp : (s.srcPos + 1).toNat = s.srcPos.toNat + 1 := by
      rw [BitVec.toNat_add]
      exact Nat.mod_eq_of_lt h
    have h0 : (0 : BitVec 3).toNat = 0 := rfl
    simp only [hp, h0]
    omega
  · have hn : (s.srcBit + 1).toNat = s.srcBit.toNat + 1 := by
      rw [BitVec.toNat_add]
      have h1 : (1 : BitVec 3).toNat = 1 := rfl
      exact Nat.mod_eq_of_lt (by omega)
    simp only [hn]
    omega

/-- Reading bits changes only the read position. -/
theorem State.unpackBits_frame : ∀ (w : Nat) (v : Nat) (s : State), ∃ p q,
    (s.unpackBits v w).2 = { s with srcPos := p, srcBit := q }
  | 0, _, s => ⟨s.srcPos, s.srcBit, rfl⟩
  | w + 1, v, s => by
    obtain ⟨p, q, h⟩ := State.skipBit_frame s
    obtain ⟨p', q', h'⟩ := State.unpackBits_frame w (2 * v + bitOf s.nextBit) s.skipBit
    refine ⟨p', q', ?_⟩
    unfold State.unpackBits
    rw [h', h]

/-- The value read from `w` bits fits in `w` bits more than it started with. -/
theorem State.unpackBits_lt : ∀ (w : Nat) (v k : Nat) (s : State), v < 2 ^ k → (s.unpackBits v w).1 < 2 ^ (k + w)
  | 0, _, _, _, h => h
  | w + 1, v, k, s, h => by
    unfold State.unpackBits
    have hb := bitOf_le_one s.nextBit
    have := State.unpackBits_lt w (2 * v + bitOf s.nextBit) (k + 1) s.skipBit (by rw [pow_succ]; omega)
    rwa [show k + 1 + w = k + (w + 1) by omega] at this

/-- Reading `w` bits moves the read position by `w` bits. -/
theorem State.unpackBits_bitsIn : ∀ (w v : Nat) (s : State), s.bitsIn + w ≤ 8 * (2 ^ 32 - 1) →
    (s.unpackBits v w).2.bitsIn = s.bitsIn + w
  | 0, _, _, _ => rfl
  | w + 1, v, s, h => by
    have h1 : s.skipBit.bitsIn = s.bitsIn + 1 := State.skipBit_bitsIn (by unfold State.bitsIn at h; omega)
    unfold State.unpackBits
    rw [State.unpackBits_bitsIn w _ _ (by omega), h1]
    omega

/-- Reading bits: the value is what is read so far followed by the next bits, first one most significant. -/
theorem State.unpackBits_value : ∀ (w v : Nat) (s : State), s.bitsIn + w ≤ 8 * (2 ^ 32 - 1) →
    (∀ j < w, ((s.unpackBits v w).1).testBit (w - 1 - j) = s.inBit (s.bitsIn + j)) ∧
    (∀ i, ((s.unpackBits v w).1).testBit (w + i) = v.testBit i)
  | 0, v, s, _ => ⟨fun j hj => absurd hj (Nat.not_lt_zero j), fun i => by rw [Nat.zero_add]; rfl⟩
  | w + 1, v, s, h => by
    have hsb := s.srcBit.isLt
    have hpos : s.srcPos.toNat + 1 < 2 ^ 32 := by unfold State.bitsIn at h; omega
    have hb := State.skipBit_bitsIn hpos
    obtain ⟨i1, i2⟩ := State.unpackBits_value w (2 * v + bitOf s.nextBit) s.skipBit (by omega)
    unfold State.unpackBits
    have hin : ∀ k, s.skipBit.inBit k = s.inBit k := by
      intro k
      obtain ⟨p, q, hf⟩ := State.skipBit_frame s
      rw [hf]
      rfl
    have hnext : s.nextBit = s.inBit s.bitsIn := by
      unfold State.nextBit State.inBit State.memRead State.bitsIn
      rw [show (8 * s.srcPos.toNat + s.srcBit.toNat) / 8 = s.srcPos.toNat by omega, regionAddr_toNat,
        show (8 * s.srcPos.toNat + s.srcBit.toNat) % 8 = s.srcBit.toNat by omega]
    have hbit : ∀ b : Bool, (2 * v + bitOf b).testBit 0 = b ∧ ∀ i, (2 * v + bitOf b).testBit (i + 1) = v.testBit i := by
      intro b
      constructor
      · cases b <;> simp [bitOf]
      · intro i
        rw [Nat.testBit_succ]
        congr 1
        have := bitOf_le_one b
        omega
    refine ⟨fun j hj => ?_, fun i => ?_⟩
    · cases j with
      | zero =>
        have := i2 0
        rw [Nat.add_zero] at this
        rw [show w + 1 - 1 - 0 = w by omega, this, (hbit _).1, hnext]
        rfl
      | succ j =>
        have := i1 j (by omega)
        rw [hb, hin] at this
        rw [show w + 1 - 1 - (j + 1) = w - 1 - j by omega, this]
        congr 1
        omega
    · have := i2 (i + 1)
      rw [show w + 1 + i = w + (i + 1) by omega, this, (hbit _).2]

/-- Everything a successful `unpack_read` can do (R116). -/
theorem State.unpackRead_ok {s t : State} {v : Code} {w : Nat} (h : s.unpackRead w = .ok (v, t)) :
    s.bitsIn + w ≤ 8 * s.srcLen.toNat ∧
    v = BitVec.ofNat 16 (s.unpackBits 0 w).1 ∧
    ∃ p q, t = { s with srcPos := p, srcBit := q, codeCount := s.codeCount + 1 } := by
  unfold State.unpackRead at h
  split at h
  · cases h
  · cases h
    obtain ⟨p, q, hf⟩ := State.unpackBits_frame w 0 s
    exact ⟨by unfold State.bitsIn; omega, rfl, p, q, by rw [hf]⟩

/-- A read succeeds when its bits are there (R116). -/
theorem State.unpackRead_ok_of_le {s : State} {w : Nat} (h : s.bitsIn + w ≤ 8 * s.srcLen.toNat) :
    ∃ c t, s.unpackRead w = .ok (c, t) := by
  unfold State.bitsIn at h
  unfold State.unpackRead
  rw [if_neg (by omega)]
  exact ⟨_, _, rfl⟩

/-- A successful `unpack_read` moves the read position by its width (R116). -/
theorem State.unpackRead_bitsIn {s t : State} {v : Code} {w : Nat} (h : s.unpackRead w = .ok (v, t)) :
    t.bitsIn = s.bitsIn + w := by
  unfold State.unpackRead at h
  split at h
  · cases h
  · cases h
    have := s.srcLen.isLt
    exact State.unpackBits_bitsIn w 0 s (by unfold State.bitsIn; omega)

/-- `unpack_read` raises only TruncatedStream(w) (R116, R167). -/
theorem State.unpackRead_error {s : State} {w : Nat} {e : Err} (h : s.unpackRead w = .error e) :
    e = Err.truncated w ∧ 8 * s.srcLen.toNat < s.bitsIn + w := by
  unfold State.unpackRead at h
  split at h
  · cases h
    exact ⟨rfl, by unfold State.bitsIn; omega⟩
  · cases h

end Sys2Proof.Machine
end

