-- ==== Sys2Proof/Laws/Engine.lean ====
section
/-! SUPPORT. What the engine can do: one equation for each phase, runs of engine steps, and what `exec` answers (40_command.md R75 to
R79, 44_encoder.md R128, 45_decoder.md R151). -/

namespace Sys2Proof.Machine

/-! ### One step in each phase -/

theorem State.engineStep_idle {s : State} (h : s.phase = .idle) : s.engineStep = s := by simp only [State.engineStep, h]
theorem State.engineStep_exec {s : State} (h : s.phase = .exec) : s.engineStep = s.execStep := by simp only [State.engineStep, h]
theorem State.engineStep_encStart {s : State} (h : s.phase = .encStart) : s.engineStep = s.encStartStep := by
  simp only [State.engineStep, h]
theorem State.engineStep_encFirst {s : State} (h : s.phase = .encFirst) : s.engineStep = s.encFirstStep := by
  simp only [State.engineStep, h]
theorem State.engineStep_encNext {s : State} (h : s.phase = .encNext) : s.engineStep = s.encNextStep := by
  simp only [State.engineStep, h]
theorem State.engineStep_encLookup {s : State} (h : s.phase = .encLookup) : s.engineStep = s.encLookupStep := by
  simp only [State.engineStep, h]
theorem State.engineStep_encEmit {s : State} (h : s.phase = .encEmit) : s.engineStep = s.encEmitStep := by
  simp only [State.engineStep, h]
theorem State.engineStep_encGrow {s : State} (h : s.phase = .encGrow) : s.engineStep = s.encGrowStep := by
  simp only [State.engineStep, h]
theorem State.engineStep_encFinal {s : State} (h : s.phase = .encFinal) : s.engineStep = s.encFinalStep := by
  simp only [State.engineStep, h]
theorem State.engineStep_encEnd {s : State} (h : s.phase = .encEnd) : s.engineStep = s.encEndStep := by
  simp only [State.engineStep, h]
theorem State.engineStep_encFlush {s : State} (h : s.phase = .encFlush) : s.engineStep = s.encFlushStep := by
  simp only [State.engineStep, h]
theorem State.engineStep_decStart {s : State} (h : s.phase = .decStart) : s.engineStep = s.decStartStep := by
  simp only [State.engineStep, h]
theorem State.engineStep_decTest {s : State} (h : s.phase = .decTest) : s.engineStep = s.decTestStep := by
  simp only [State.engineStep, h]
theorem State.engineStep_decRead {s : State} (h : s.phase = .decRead) : s.engineStep = s.decReadStep := by
  simp only [State.engineStep, h]
theorem State.engineStep_decClassify {s : State} (h : s.phase = .decClassify) : s.engineStep = s.decClassifyStep := by
  simp only [State.engineStep, h]
theorem State.engineStep_decWrite {s : State} (h : s.phase = .decWrite) : s.engineStep = s.decWriteStep := by
  simp only [State.engineStep, h]
theorem State.engineStep_decGrow {s : State} (h : s.phase = .decGrow) : s.engineStep = s.decGrowStep := by
  simp only [State.engineStep, h]

/-- The one step of a primitive command ends it: idle, with DONE set (R76, R77, R168). -/
theorem State.execStep_idle_done {s : State} {i : Instr} (hd : decode s.cmd = .ok i) (hi : firstPhase i = .exec) :
    s.execStep.phase = .idle ∧ s.execStep.done = true := by
  unfold State.execStep
  rw [hd]
  cases i with
  | nop => exact ⟨rfl, rfl⟩
  | dinit => exact State.finish_idle_done _ _
  | dlookup =>
    simp only [State.dlookupBody]
    split <;> exact ⟨rfl, rfl⟩
  | dinsert => exact State.finish_idle_done _ _
  | dread => exact State.finish_idle_done _ _
  | pinit => exact ⟨rfl, rfl⟩
  | pwrite => exact State.finish_idle_done _ _
  | pflush => exact State.finish_idle_done _ _
  | uinit => exact ⟨rfl, rfl⟩
  | uread => exact State.finish_idle_done _ _
  | encode => exact absurd hi (by decide)
  | decode => exact absurd hi (by decide)

/-! ### Runs of steps -/

@[simp] theorem State.engineSteps_zero (s : State) : s.engineSteps 0 = s := rfl
theorem State.engineSteps_succ (s : State) (n : Nat) : s.engineSteps (n + 1) = s.engineStep.engineSteps n := rfl

theorem State.engineSteps_add : ∀ (m n : Nat) (s : State), s.engineSteps (m + n) = (s.engineSteps m).engineSteps n
  | 0, n, s => by rw [Nat.zero_add]; rfl
  | m + 1, n, s => by
    rw [show m + 1 + n = (m + n) + 1 by omega, State.engineSteps_succ, State.engineSteps_succ, State.engineSteps_add m n]

theorem State.engineSteps_idle {s : State} (h : s.phase = .idle) : ∀ n : Nat, s.engineSteps n = s
  | 0 => rfl
  | n + 1 => by rw [State.engineSteps_succ, State.engineStep_idle h, State.engineSteps_idle h n]

theorem State.runEngine_idle {s : State} (h : s.phase = .idle) (n : Nat) : s.runEngine n = .next s := by
  cases n <;> simp only [State.runEngine, h, if_true]

theorem State.runEngine_busy {s : State} (h : s.phase ≠ .idle) (n : Nat) :
    s.runEngine (n + 1) = s.engineStep.runEngine n := by
  simp only [State.runEngine, h, if_false]

/-- Everything a run to the end can answer: the idle state that engine steps reach, or the overrun fault. -/
theorem State.runEngine_cases : ∀ (n : Nat) (s : State),
    (∃ m ≤ n, (s.engineSteps m).phase = .idle ∧ s.runEngine n = .next (s.engineSteps m)) ∨
    ((s.engineSteps n).phase ≠ .idle ∧ s.runEngine n = .fault .engineOverrun)
  | 0, s => by
    by_cases h : s.phase = .idle
    · exact .inl ⟨0, le_rfl, h, State.runEngine_idle h 0⟩
    · exact .inr ⟨h, by simp only [State.runEngine, h, if_false]⟩
  | n + 1, s => by
    by_cases h : s.phase = .idle
    · exact .inl ⟨0, Nat.zero_le _, h, State.runEngine_idle h _⟩
    · rw [State.runEngine_busy h]
      rcases State.runEngine_cases n s.engineStep with ⟨m, hm, h1, h2⟩ | ⟨h1, h2⟩
      · exact .inl ⟨m + 1, by omega, h1, h2⟩
      · exact .inr ⟨h1, h2⟩

/-- A run whose steps reach an idle state within the bound answers that state. -/
theorem State.runEngine_eq_next {n : Nat} : ∀ {m : Nat} {s : State}, m ≤ n → (s.engineSteps m).phase = .idle →
    s.runEngine n = .next (s.engineSteps m) := by
  induction n with
  | zero =>
    intro m s hm h
    have : m = 0 := by omega
    subst this
    exact State.runEngine_idle h 0
  | succ n ih =>
    intro m s hm h
    by_cases hs : s.phase = .idle
    · rw [State.runEngine_idle hs, State.engineSteps_idle hs]
    · cases m with
      | zero => exact absurd h hs
      | succ m =>
        rw [State.runEngine_busy hs, State.engineSteps_succ]
        exact ih (by omega) h

/-! ### What `exec` answers -/

/-- A command word written while the engine is busy changes nothing (10_state.md R40). -/
theorem exec_busy {s : State} (h : s.phase ≠ .idle) (i : Instr) : exec i s = .next s := by
  cases i <;> simp only [exec, execNop, execDinit, execDlookup, execDinsert, execDread, execPinit, execPwrite, execPflush,
    execUinit, execUread, execEncode, execDecode, State.runPrimitive, State.runWhole, h, if_false]

/-- A primitive command written while the engine is idle answers its acceptance followed by its one engine step (R75, R77). -/
theorem exec_primitive {s : State} (h : s.phase = .idle) {i : Instr} (hi : firstPhase i = .exec) :
    exec i s = .next (s.accept (encode i) .exec).engineStep := by
  cases i <;> first | exact absurd hi (by decide) | skip
  all_goals
    simp only [exec, execNop, execDinit, execDlookup, execDinsert, execDread, execPinit, execPwrite, execPflush, execUinit,
      execUread, State.runPrimitive, h, if_true, firstPhase, State.engineStep, State.accept_phase, State.execStep,
      State.accept_cmd, decode_encode]

/-- ENCODE written while the engine is idle: the run of its state machine. -/
theorem exec_encode {s : State} (h : s.phase = .idle) :
    exec .encode s = (s.accept (encode .encode) .encStart).runEngine s.encodeBound := by
  simp only [exec, execEncode, State.runWhole, h, if_true, firstPhase]

/-- DECODE written while the engine is idle: the run of its state machine. -/
theorem exec_decode {s : State} (h : s.phase = .idle) :
    exec .decode s = (s.accept (encode .decode) .decStart).runEngine s.decodeBound := by
  simp only [exec, execDecode, State.runWhole, h, if_true, firstPhase]

/-- Everything `exec` can answer: the same state while busy; else an idle state that engine steps reach from the accepted
command; else the overrun fault of ENCODE or DECODE. -/
theorem exec_cases (i : Instr) (s : State) :
    (s.phase ≠ .idle ∧ exec i s = .next s) ∨
    (s.phase = .idle ∧ ∃ n, ((s.accept (encode i) (firstPhase i)).engineSteps n).phase = .idle ∧
      exec i s = .next ((s.accept (encode i) (firstPhase i)).engineSteps n)) ∨
    (s.phase = .idle ∧ (i = .encode ∨ i = .decode) ∧ exec i s = .fault .engineOverrun) := by
  by_cases h : s.phase = .idle
  · right
    by_cases hi : firstPhase i = .exec
    · left
      refine ⟨h, 1, ?_, ?_⟩
      · rw [hi, State.engineSteps_succ, State.engineSteps_zero, State.engineStep_exec (State.accept_phase _ _ _)]
        exact (State.execStep_idle_done (i := i) (by simp) hi).1
      · rw [exec_primitive h hi, hi]
        rfl
    · cases i <;> first | exact absurd rfl hi | skip
      case encode =>
        rw [exec_encode h]
        rcases State.runEngine_cases s.encodeBound (s.accept (encode .encode) .encStart) with ⟨m, -, h1, h2⟩ | ⟨-, h2⟩
        · exact .inl ⟨h, m, h1, h2⟩
        · exact .inr ⟨h, .inl rfl, h2⟩
      case decode =>
        rw [exec_decode h]
        rcases State.runEngine_cases s.decodeBound (s.accept (encode .decode) .decStart) with ⟨m, -, h1, h2⟩ | ⟨-, h2⟩
        · exact .inl ⟨h, m, h1, h2⟩
        · exact .inr ⟨h, .inr rfl, h2⟩
  · exact .inl ⟨h, exec_busy h i⟩

end Sys2Proof.Machine
end

