-- ==== Sys2Proof/Laws/Step.lean ====
section
/-! SUPPORT. What one step of the machine can do (60_exceptions.md R174): the cases of a host access and of the schedule, each with the
state it answers. Invariants are derived from these, not from unfolding the step. -/

namespace Sys2Proof.Machine

/-- Everything a write at a register offset can do (10_state.md R22, R23, R40). -/
theorem State.csrWrite_cases (s : State) (off : BitVec 8) (v : Word) :
    (csrAt off = none ∧ s.csrWrite off v = .next s) ∨
    (csrAt off = some .ctrl ∧ s.csrWrite off v = .next (s.writeCtrl v)) ∨
    (csrAt off = some .cmd ∧ s.csrWrite off v = s.writeCmd v) ∨
    (∃ r, csrAt off = some r ∧ r ≠ .ctrl ∧ r ≠ .cmd ∧ s.csrWrite off v = .next (s.csrStore r v)) := by
  unfold State.csrWrite
  cases h : csrAt off with
  | none => exact .inl ⟨rfl, rfl⟩
  | some r => cases r <;> simp

/-- Everything a write of CMD can do (R40, R57, R75). -/
theorem State.writeCmd_cases (s : State) (w : Word) :
    (s.phase ≠ .idle ∧ s.writeCmd w = .next s) ∨
    (s.phase = .idle ∧ ∃ r, decode w = .error r ∧ s.writeCmd w = .next ((s.accept w .exec).raise (illegalWordErr r))) ∨
    (s.phase = .idle ∧ ∃ i, decode w = .ok i ∧ hostWaits s.host = true ∧ s.writeCmd w = exec i s) ∨
    (s.phase = .idle ∧ ∃ i, decode w = .ok i ∧ hostWaits s.host = false ∧ s.writeCmd w = .next (s.accept w (firstPhase i))) := by
  unfold State.writeCmd State.busy
  by_cases h : s.phase = .idle
  · cases hd : decode w with
    | error r => simp [h]
    | ok i => cases hw : hostWaits s.host <;> simp [h]
  · simp [h]

/-- A step with no host access left is an engine step (R193, R196). -/
theorem step_noHost {s : State} (h : s.host = []) : step s = .next s.engineStep := by
  simp only [step, State.advance, h]

/-- A step of an idle machine makes the host's next access (R174). -/
theorem step_idle {s : State} {ev : HostEvent} {rest : List HostEvent} (hi : s.phase = .idle) (h : s.host = ev :: rest) :
    step s = State.hostAccess { s with host := rest } ev.op := by
  simp only [step, State.advance, h, hi, if_true]

/-- A `wait` lets a busy engine make its step (R60). -/
theorem step_wait {s : State} {ev : HostEvent} {rest : List HostEvent} (hb : s.phase ≠ .idle) (h : s.host = ev :: rest)
    (hw : ev.op = .wait) : step s = .next s.engineStep := by
  simp only [step, State.advance, h, hb, hw, if_true, if_false]

/-- An access that is due is made, busy or not (R40, R174). -/
theorem step_due {s : State} {op : HostOp} {rest : List HostEvent} (hb : s.phase ≠ .idle) (h : s.host = ⟨0, op⟩ :: rest)
    (hw : op ≠ .wait) : step s = State.hostAccess { s with host := rest } op := by
  simp only [step, State.advance, h, hb, hw, if_false]

/-- Before an access is due, a busy engine makes its step (R174, R196). -/
theorem step_notDue {s : State} {k : Nat} {op : HostOp} {rest : List HostEvent} (hb : s.phase ≠ .idle)
    (h : s.host = ⟨k + 1, op⟩ :: rest) (hw : op ≠ .wait) :
    step s = .next ({ s with host := ⟨k, op⟩ :: rest }).engineStep := by
  simp only [step, State.advance, h, hb, hw, if_false]

/-- Everything a step can be: an engine step, with at most the delay of the next access counted down, or one host access. -/
theorem step_cases (s : State) :
    (∃ l, step s = .next ({ s with host := l }).engineStep) ∨
    (∃ ev rest, s.host = ev :: rest ∧ step s = State.hostAccess { s with host := rest } ev.op) := by
  cases h : s.host with
  | nil => exact .inl ⟨[], by rw [step_noHost h, ← h]⟩
  | cons ev rest =>
    by_cases hi : s.phase = .idle
    · exact .inr ⟨ev, rest, rfl, step_idle hi h⟩
    · by_cases hw : ev.op = .wait
      · exact .inl ⟨ev :: rest, by rw [step_wait hi h hw, ← h]⟩
      · obtain ⟨k, op⟩ := ev
        cases k with
        | zero => exact .inr ⟨_, rest, rfl, step_due hi h hw⟩
        | succ k => exact .inl ⟨_, step_notDue hi h hw⟩

/-- What a reset leaves (70_reset_and_hazards.md R191, R192). -/
theorem State.doReset_cases (s : State) :
    (s.phase = .idle ∧ s.doReset = s.resetTo s.mem) ∨
    (s.phase ≠ .idle ∧ ∃ k ≤ s.stepBytes, s.doReset = s.drawn.resetTo (s.partialMem k)) := by
  unfold State.doReset State.busy
  by_cases h : s.phase = .idle
  · exact .inl ⟨h, by simp [h]⟩
  · exact .inr ⟨h, min (Config.abortCut s.draws) s.stepBytes, Nat.min_le_right _ _, by simp [h]⟩

/-- A write of an operand register is stored while the engine is idle and ignored while it is busy (R40). -/
theorem State.setOperand_cases (s t : State) :
    (s.phase = .idle ∧ s.setOperand t = t) ∨ (s.phase ≠ .idle ∧ s.setOperand t = s) := by
  unfold State.setOperand State.busy
  by_cases h : s.phase = .idle
  · exact .inl ⟨h, by simp [h]⟩
  · exact .inr ⟨h, by simp [h]⟩

/-- A register other than CTRL and CMD that is written is stored, or the write is ignored (R23, R28, R40). -/
theorem State.csrStore_cases (s : State) (r : Csr) (v : Word) :
    s.csrStore r v = s ∨ s.csrStore r v = { s with done := false } ∨
    (s.phase = .idle ∧ ∃ c a0 a1 sa sl da dc tl, s.csrStore r v =
      { s with cfg := c, arg0 := a0, arg1 := a1, srcAddr := sa, srcLen := sl, dstAddr := da, dstCap := dc, targetLen := tl }) := by
  have operand : ∀ c a0 a1 sa sl da dc tl,
      s.csrStore r v = s.setOperand { s with
        cfg := c, arg0 := a0, arg1 := a1, srcAddr := sa, srcLen := sl, dstAddr := da, dstCap := dc, targetLen := tl } →
      s.csrStore r v = s ∨ (s.phase = .idle ∧ ∃ c a0 a1 sa sl da dc tl, s.csrStore r v =
        { s with cfg := c, arg0 := a0, arg1 := a1, srcAddr := sa, srcLen := sl, dstAddr := da, dstCap := dc, targetLen := tl }) := by
    intro c a0 a1 sa sl da dc tl h
    rcases State.setOperand_cases s { s with
        cfg := c, arg0 := a0, arg1 := a1, srcAddr := sa, srcLen := sl, dstAddr := da, dstCap := dc, targetLen := tl } with
      ⟨hi, he⟩ | ⟨-, he⟩
    · exact .inr ⟨hi, c, a0, a1, sa, sl, da, dc, tl, h.trans he⟩
    · exact .inl (h.trans he)
  have lift : (s.csrStore r v = s ∨ (s.phase = .idle ∧ ∃ c a0 a1 sa sl da dc tl, s.csrStore r v =
        { s with cfg := c, arg0 := a0, arg1 := a1, srcAddr := sa, srcLen := sl, dstAddr := da, dstCap := dc, targetLen := tl })) →
      s.csrStore r v = s ∨ s.csrStore r v = { s with done := false } ∨
      (s.phase = .idle ∧ ∃ c a0 a1 sa sl da dc tl, s.csrStore r v =
        { s with cfg := c, arg0 := a0, arg1 := a1, srcAddr := sa, srcLen := sl, dstAddr := da, dstCap := dc, targetLen := tl }) :=
    fun h => h.elim .inl fun h => .inr (.inr h)
  cases r with
  | status =>
    unfold State.csrStore State.writeStatus
    cases v.getLsbD 1
    · exact .inl rfl
    · exact .inr (.inl rfl)
  | cfg => exact lift (operand _ _ _ _ _ _ _ _ rfl)
  | arg0 => exact lift (operand _ _ _ _ _ _ _ _ rfl)
  | arg1 => exact lift (operand _ _ _ _ _ _ _ _ rfl)
  | srcAddr => exact lift (operand _ _ _ _ _ _ _ _ rfl)
  | srcLen => exact lift (operand _ _ _ _ _ _ _ _ rfl)
  | dstAddr => exact lift (operand _ _ _ _ _ _ _ _ rfl)
  | dstCap => exact lift (operand _ _ _ _ _ _ _ _ rfl)
  | targetLen => exact lift (operand _ _ _ _ _ _ _ _ rfl)
  | id | ctrl | acfg | cmd | res | dictSize | codeWidth | outLen | packState | srcPos | srcBit | codeCount | errInfo =>
    exact .inl rfl

end Sys2Proof.Machine
end

