-- ==== Sys2Proof/Laws/Host.lean ====
section
/-! SUPPORT. What the register block and the host's memory accesses can do (10_state.md R21 to R23, 20_memory.md R51, 30_encoding.md R60). -/

namespace Sys2Proof.Machine

theorem State.busy_eq_false {s : State} (h : s.phase = .idle) : s.busy = false := by
  unfold State.busy
  simp [h]

theorem State.busy_eq_true {s : State} (h : s.phase ≠ .idle) : s.busy = true := by
  unfold State.busy
  simp [h]

/-- All four byte offsets of a register name it (R21). -/
theorem csrAt_of_word {off : BitVec 8} {r : Csr} {n : Nat} (h : off.toNat / 4 = n)
    (hr : csrAt (BitVec.ofNat 8 (4 * n)) = some r) : csrAt off = some r := by
  have : (BitVec.ofNat 8 (4 * n)).toNat = 4 * n := by
    have := off.isLt
    simp
    omega
  unfold csrAt at *
  rw [this, show 4 * n / 4 = n by omega] at hr
  rw [h]
  exact hr

/-- The unmapped offsets (R23). -/
theorem csrAt_unmapped {off : BitVec 8} (h : 0x58 ≤ off.toNat) : csrAt off = none := by
  unfold csrAt
  split <;> first | omega | rfl

theorem State.csrValue_idle {s : State} (h : s.phase = .idle) {off : BitVec 8} {r : Csr} (hr : csrAt off = some r) :
    s.csrValue off = s.csrIdle r := by
  unfold State.csrValue
  rw [hr, State.busy_eq_false h]
  rfl

theorem State.csrValue_busy {s : State} (h : s.phase ≠ .idle) {off : BitVec 8} {r : Csr} (hr : csrAt off = some r) :
    s.csrValue off = s.csrBusy (Config.busyValue s.draws) r := by
  unfold State.csrValue
  rw [hr, State.busy_eq_true h]
  rfl

theorem State.csrValue_unmapped {s : State} {off : BitVec 8} (h : 0x58 ≤ off.toNat) : s.csrValue off = 0 := by
  unfold State.csrValue
  rw [csrAt_unmapped h]

/-! ### Accesses at the register port (R21, R195 item 4) -/

theorem wordAligned_iff {off : BitVec 8} : wordAligned off = true ↔ off.toNat % 4 = 0 := by
  unfold wordAligned
  simp

theorem State.portWrite_aligned {s : State} {off : BitVec 8} {v : Word} (h : off.toNat % 4 = 0) :
    s.portWrite off v = s.csrWrite off v := by
  unfold State.portWrite
  rw [wordAligned_iff.2 h]
  rfl

theorem State.portRead_aligned {s : State} {off : BitVec 8} (h : off.toNat % 4 = 0) :
    s.portRead off = .next (s.csrRead off) := by
  unfold State.portRead
  rw [wordAligned_iff.2 h]
  rfl

theorem State.portWrite_misaligned {s : State} {off : BitVec 8} {v : Word} (h : off.toNat % 4 ≠ 0) :
    s.portWrite off v = .refused .misalignedAccess := by
  unfold State.portWrite
  rw [show wordAligned off = false from by simp [wordAligned, h]]
  rfl

theorem State.portRead_misaligned {s : State} {off : BitVec 8} (h : off.toNat % 4 ≠ 0) :
    s.portRead off = .refused .misalignedAccess := by
  unfold State.portRead
  rw [show wordAligned off = false from by simp [wordAligned, h]]
  rfl

/-- The bus address of an offset names that offset (R21, R60). -/
theorem busOffset_busAddr (off : BitVec 8) : busOffset (busAddr off) = some off := by
  have h : busAddr off - Config.csrBase = off.setWidth 32 := by
    unfold busAddr
    rw [BitVec.add_comm, BitVec.add_sub_cancel]
  have hlt := off.isLt
  unfold busOffset
  rw [h, if_pos (by rw [BitVec.toNat_setWidth, Nat.mod_eq_of_lt (by omega)]; omega)]
  simp

/-- A bus address outside the 0x100 bytes from P_CSR_BASE names no offset (R21). -/
theorem busOffset_outside {a : Word} (h : 0x100 ≤ (a - Config.csrBase).toNat) : busOffset a = none := by
  unfold busOffset
  rw [if_neg (by omega)]

/-- A write at the bus address of an offset is a write at the offset (R21, R60). -/
theorem State.hostAccess_busWrite (s : State) (off : BitVec 8) (v : Word) :
    s.hostAccess (.busWrite (busAddr off) v) = s.portWrite off v := by
  simp only [State.hostAccess, busOffset_busAddr]

/-- A read at the bus address of an offset is a read at the offset (R21, R60). -/
theorem State.hostAccess_busRead (s : State) (off : BitVec 8) : s.hostAccess (.busRead (busAddr off)) = s.portRead off := by
  simp only [State.hostAccess, busOffset_busAddr]

/-- A bus access outside the block is no step (R21, R177). -/
theorem State.hostAccess_outside (s : State) {a : Word} (h : 0x100 ≤ (a - Config.csrBase).toNat) :
    (∀ v, s.hostAccess (.busWrite a v) = .refused .outsideBlock) ∧ s.hostAccess (.busRead a) = .refused .outsideBlock := by
  simp only [State.hostAccess, busOffset_outside h, implies_true, and_self]

/-! ### Lists of bytes in memory -/

theorem anyByte_iff (f : Word → Bool) : ∀ (n : Nat) (a : Word),
    anyByte f a n = true ↔ ∃ i < n, f (a + BitVec.ofNat 32 i) = true
  | 0, a => by simp [anyByte]
  | n + 1, a => by
    unfold anyByte
    rw [Bool.or_eq_true, anyByte_iff f n (a + 1)]
    constructor
    · rintro (h | ⟨i, hi, h⟩)
      · exact ⟨0, by omega, by simpa using h⟩
      · exact ⟨i + 1, by omega, by rwa [addr_succ] at h⟩
    · rintro ⟨i, hi, h⟩
      cases i with
      | zero => exact .inl (by simpa using h)
      | succ i => exact .inr ⟨i, by omega, by rwa [addr_succ]⟩

/-- The host's writes change only memory. -/
theorem State.memWriteList_frame : ∀ (l : List Byte) (a : Word) (s : State), ∃ m, s.memWriteList a l = { s with mem := m }
  | [], _, s => ⟨s.mem, rfl⟩
  | v :: l, a, s => by
    obtain ⟨m, h⟩ := State.memWriteList_frame l (a + 1) (s.memWrite a v)
    exact ⟨m, by rw [State.memWriteList, h]; rfl⟩

/-- The host's writes change only the bytes they name. -/
theorem State.memWriteList_other : ∀ (l : List Byte) (a : Word) (s : State) (x : Nat),
    (∀ i < l.length, x ≠ (a + BitVec.ofNat 32 i).toNat) → (s.memWriteList a l).mem.read x = s.mem.read x
  | [], _, _, _, _ => rfl
  | v :: l, a, s, x, h => by
    rw [State.memWriteList, State.memWriteList_other l (a + 1) _ x
      (fun i hi => by rw [addr_succ]; exact h (i + 1) (by simpa using hi))]
    refine Memory.read_write_other ?_ _
    simpa using h 0 (by simp)

/-- Two states whose bytes agree give the same list of bytes. -/
theorem State.memReadList_congr : ∀ (n : Nat) (a : Word) (s t : State),
    (∀ i < n, s.memRead (a + BitVec.ofNat 32 i) = t.memRead (a + BitVec.ofNat 32 i)) → s.memReadList a n = t.memReadList a n
  | 0, _, _, _, _ => rfl
  | n + 1, a, s, t, h => by
    rw [State.memReadList, State.memReadList,
      State.memReadList_congr n (a + 1) s t (fun i hi => by rw [addr_succ]; exact h (i + 1) (by omega))]
    have h0 := h 0 (by omega)
    simp only [BitVec.add_zero] at h0
    rw [h0]

@[simp] theorem State.memReadList_length : ∀ (n : Nat) (a : Word) (s : State), (s.memReadList a n).length = n
  | 0, _, _ => rfl
  | n + 1, a, s => by rw [State.memReadList, List.length_cons, State.memReadList_length n]

/-- The byte at a place of the list. -/
theorem State.memReadList_getElem? : ∀ (n : Nat) (a : Word) (s : State) (i : Nat), i < n →
    (s.memReadList a n)[i]? = some (s.memRead (a + BitVec.ofNat 32 i))
  | 0, _, _, _, h => absurd h (Nat.not_lt_zero _)
  | n + 1, a, s, i, h => by
    cases i with
    | zero => simp [State.memReadList]
    | succ i =>
      rw [State.memReadList, List.getElem?_cons_succ, State.memReadList_getElem? n (a + 1) s i (by omega), addr_succ]

@[simp] theorem State.busyMemList_length (s : State) : ∀ (n : Nat) (a : Word), (s.busyMemList a n).length = n
  | 0, _ => rfl
  | n + 1, a => by rw [State.busyMemList, List.length_cons, State.busyMemList_length s n]

/-- The byte at a place of a busy read: a free value in the DST region, the byte of memory elsewhere (log entry 9). -/
theorem State.busyMemList_getElem? (s : State) : ∀ (n : Nat) (a : Word) (i : Nat), i < n →
    (s.busyMemList a n)[i]? = some (bif s.inDst (a + BitVec.ofNat 32 i) then
      Config.busyByte s.draws (a + BitVec.ofNat 32 i).toNat else s.memRead (a + BitVec.ofNat 32 i))
  | 0, _, _, h => absurd h (Nat.not_lt_zero _)
  | n + 1, a, i, h => by
    cases i with
    | zero => simp [State.busyMemList]
    | succ i =>
      rw [State.busyMemList, List.getElem?_cons_succ, State.busyMemList_getElem? s n (a + 1) i (by omega), addr_succ]

end Sys2Proof.Machine
end

