-- ==== Sys2Proof/Laws/Invariant.lean ====
section
/-! SUPPORT. The shared operations and the engine's steps keep the invariant of Safety.lean (10_state.md R42). -/

namespace Sys2Proof.Machine

theorem State.packWrite_pad_wf {s t : State} {v : Code} {w : Nat} (h : s.packWrite v w = .ok t) (hp : s.PadZero) (hm : s.mem.wf = true) :
    t.PadZero ∧ t.mem.wf = true := by
  obtain ⟨-, rfl, -⟩ := State.packWrite_ok h
  exact ⟨State.packBits_padZero v w hp, State.packBits_wf v w hm⟩

theorem State.packFlush_pad_wf {s t : State} (h : s.packFlush = .ok t) (hp : s.PadZero) (hm : s.mem.wf = true) :
    t.PadZero ∧ t.mem.wf = true := by
  rcases State.packFlush_ok h with ⟨-, rfl⟩ | ⟨-, -, rfl⟩
  · exact ⟨hp, hm⟩
  · exact ⟨fun i _ => by simp, State.putByte_wf hm _⟩

/-- The parts of the invariant that do not speak of the phase. -/
structure State.Sound (s : State) : Prop where
  legal : s.acfg.legal = true
  size : s.dsize ≤ s.acfg.maxSize
  links : s.LinksBack
  pad : s.PadZero
  mem : s.mem.wf = true

theorem State.Inv.sound {s : State} (h : s.Inv) : s.Sound := ⟨h.legal, h.size, h.links, h.pad, h.mem⟩

theorem State.Sound.raise {s : State} (h : s.Sound) (e : Err) : (s.raise e).Inv :=
  ⟨h.legal, h.size, h.links, h.pad, h.mem, fun hh => absurd rfl hh, trivial⟩

theorem State.Sound.idle {s : State} (h : s.Sound) (hi : s.phase = .idle) : s.Inv :=
  ⟨h.legal, h.size, h.links, h.pad, h.mem, fun hh => absurd hi hh, by unfold State.WorkOk; rw [hi]; trivial⟩

theorem State.Sound.complete {s : State} (h : s.Sound) : s.complete.Inv := State.Sound.idle ⟨h.legal, h.size, h.links, h.pad, h.mem⟩ rfl

theorem State.Sound.finish {s : State} (h : s.Sound) {r : Except Err State} (hr : ∀ t, r = .ok t → State.Sound t) : (s.finish r).Inv := by
  cases r with
  | ok t => exact State.Sound.complete (hr t rfl)
  | error e => exact State.Sound.raise h e

theorem State.Sound.latchAndInit {s : State} (h : s.Sound) (hc : s.cfg.legal = true) : State.Sound s.latchAndInit := by
  refine ⟨hc, ?_, ?_, h.pad, h.mem⟩
  · show s.cfg.firstFree + 0 ≤ s.cfg.maxSize
    have := CfgFields.maxSize_bounds hc
    have := CfgFields.firstFree_cases s.cfg
    omega
  · intro n e he
    simp [State.latchAndInit] at he

theorem State.Sound.dictInit {s : State} (h : s.Sound) : State.Sound s.dictInit := by
  refine ⟨h.legal, ?_, ?_, h.pad, h.mem⟩
  · show s.acfg.firstFree + 0 ≤ s.acfg.maxSize
    have := h.size
    unfold State.dsize at this
    omega
  · intro n e he
    simp [State.dictInit] at he

theorem State.Sound.insert {s : State} (h : s.Sound) {p : Code} (y : Byte) (hp : s.isEntry p.toNat = true) (hs : s.dsize < s.acfg.maxSize) :
    State.Sound (s.insert p y) := by
  refine ⟨h.legal, ?_, ?_, h.pad, h.mem⟩
  · show s.acfg.firstFree + (s.dict ++ [_]).length ≤ _
    unfold State.dsize at hs
    simp only [List.length_append, List.length_singleton]
    exact hs
  · intro n e he
    have he : (s.dict ++ [⟨p, y⟩])[n]? = some e := he
    rw [State.isEntry_iff] at hp
    have hff := CfgFields.firstFree_cases s.acfg
    unfold State.dsize at hp
    rw [List.getElem?_append] at he
    split at he
    · exact h.links n e he
    · have h0 : n - s.dict.length = 0 := by
        by_contra h0
        rw [List.getElem?_eq_none (by simp; omega)] at he
        cases he
      rw [h0] at he
      cases he
      show p.toNat < s.acfg.firstFree + n ∧ (p.toNat ≤ 255 ∨ s.acfg.firstFree ≤ p.toNat)
      omega

theorem State.Sound.packInit {s : State} (h : s.Sound) : State.Sound s.packInit := ⟨h.legal, h.size, h.links, fun i _ => by simp [State.packInit], h.mem⟩

theorem State.Sound.unpackInit {s : State} (h : s.Sound) : State.Sound s.unpackInit := ⟨h.legal, h.size, h.links, h.pad, h.mem⟩

theorem State.Sound.packWrite {s t : State} {v : Code} {w : Nat} (h : s.Sound) (he : s.packWrite v w = .ok t) : State.Sound t := by
  obtain ⟨hp, hm⟩ := State.packWrite_pad_wf he h.pad h.mem
  obtain ⟨-, -, m, a, n, o, rfl⟩ := State.packWrite_ok he
  exact ⟨h.legal, h.size, h.links, hp, hm⟩

theorem State.Sound.packFlush {s t : State} (h : s.Sound) (he : s.packFlush = .ok t) : State.Sound t := by
  obtain ⟨hp, hm⟩ := State.packFlush_pad_wf he h.pad h.mem
  rcases State.packFlush_ok he with ⟨-, rfl⟩ | ⟨-, -, rfl⟩
  · exact h
  · exact ⟨h.legal, h.size, h.links, hp, hm⟩

theorem State.Sound.unpackRead {s t : State} {v : Code} {w : Nat} (h : s.Sound) (he : s.unpackRead w = .ok (v, t)) : State.Sound t := by
  obtain ⟨-, -, p, q, rfl⟩ := State.unpackRead_ok he
  exact ⟨h.legal, h.size, h.links, h.pad, h.mem⟩

theorem State.Sound.execStep {s : State} (h : s.Sound) (hd : ∃ i : Instr, decode s.cmd = .ok i ∧ firstPhase i = .exec) : s.execStep.Inv := by
  obtain ⟨i, hd, hi⟩ := hd
  unfold State.execStep
  rw [hd]
  cases i with
  | nop => exact State.Sound.complete h
  | dinit =>
    refine State.Sound.finish h ?_
    intro t ht
    split at ht
    · cases ht
    · rename_i hc
      cases ht
      exact State.Sound.latchAndInit h ((State.cfgCheck_eq_ok_iff s).1 hc)
  | dlookup =>
    show s.dlookupBody.Inv
    unfold State.dlookupBody
    split <;> exact State.Sound.complete ⟨h.legal, h.size, h.links, h.pad, h.mem⟩
  | dinsert =>
    refine State.Sound.finish h ?_
    intro t ht
    split at ht
    · cases ht
    · split at ht
      · cases ht
      · rename_i h1 h2
        cases ht
        have hs : s.dsize < s.acfg.maxSize := by
          have := h.size
          have : s.dsize ≠ s.acfg.maxSize := by simpa [State.isFull] using h1
          omega
        have := State.Sound.insert h s.symbolArg (p := s.codeArg) (by simpa using h2) hs
        exact ⟨this.legal, this.size, this.links, this.pad, this.mem⟩
  | dread =>
    refine State.Sound.finish h ?_
    intro t ht
    split at ht
    · cases ht; exact ⟨h.legal, h.size, h.links, h.pad, h.mem⟩
    · split at ht
      · cases ht; exact ⟨h.legal, h.size, h.links, h.pad, h.mem⟩
      · cases ht
  | pinit => exact State.Sound.complete (State.Sound.packInit h)
  | pwrite =>
    refine State.Sound.finish h ?_
    intro t ht
    split at ht
    · cases ht
    · exact State.Sound.packWrite h ht
  | pflush => exact State.Sound.finish h fun t ht => State.Sound.packFlush h ht
  | uinit => exact State.Sound.complete (State.Sound.unpackInit h)
  | uread =>
    refine State.Sound.finish h ?_
    intro t ht
    split at ht
    · cases ht
    · split at ht
      · cases ht
      · rename_i hr
        cases ht
        have := State.Sound.unpackRead h hr
        exact ⟨this.legal, this.size, this.links, this.pad, this.mem⟩
  | encode => exact absurd hi (by decide)
  | decode => exact absurd hi (by decide)

theorem State.Sound.inv {s : State} (h : s.Sound) (hc : s.done = false ∧ s.hit = false ∧ s.err = none) (hw : s.WorkOk) : s.Inv :=
  ⟨h.legal, h.size, h.links, h.pad, h.mem, fun _ => hc, hw⟩

theorem State.Sound.goOn {s : State} (h : s.Sound) {p : Phase} {r : Except Err State}
    (hr : ∀ t, r = .ok t → ({ t with phase := p } : State).Inv) : (s.goOn p r).Inv := by
  cases r with
  | ok t => exact hr t rfl
  | error e => exact State.Sound.raise h e

theorem State.Sound.setPhase {s : State} (h : s.Sound) (p : Phase) : State.Sound { s with phase := p } := ⟨h.legal, h.size, h.links, h.pad, h.mem⟩

theorem State.Inv.engineStep {s : State} (h : s.Inv) : s.engineStep.Inv := by
  have hc := State.Inv.sound h
  have hff := CfgFields.firstFree_cases s.acfg
  have hmx := CfgFields.maxSize_bounds h.legal
  have hw := h.work
  have hclean := h.clean
  unfold State.WorkOk at hw
  cases hp : s.phase <;> rw [hp] at hw hclean <;> simp only at hw
  case idle => rw [State.engineStep_idle hp]; exact h
  case exec => rw [State.engineStep_exec hp]; exact State.Sound.execStep hc hw
  all_goals replace hclean := hclean (by decide)
  case encStart =>
    rw [State.engineStep_encStart hp]
    unfold State.encStartStep
    split
    · exact State.Sound.raise hc _
    · rename_i hs
      obtain ⟨hl, -⟩ := (State.startCheck_eq_ok_iff _ _).1 hs
      have := State.Sound.packInit (State.Sound.latchAndInit hc hl)
      refine State.Sound.inv ⟨this.legal, this.size, this.links, this.pad, this.mem⟩ hclean ?_
      unfold State.WorkOk
      dsimp only
      split <;> rename_i hx <;> split at hx <;> trivial
  case encFirst =>
    rw [State.engineStep_encFirst hp]
    refine State.Sound.inv ⟨h.legal, h.size, h.links, h.pad, h.mem⟩ hclean ?_
    show ({ s with cur := (s.memRead s.srcAddr).setWidth 16, srcPos := 1, phase := .encNext } : State).isEntry _ = true
    rw [State.isEntry_iff]
    left
    have := (s.memRead s.srcAddr).isLt
    show ((s.memRead s.srcAddr).setWidth 16).toNat ≤ 255
    simp
    omega
  case encNext =>
    rw [State.engineStep_encNext hp]
    unfold State.encNextStep
    split
    · exact State.Sound.inv (State.Sound.setPhase hc _) hclean hw
    · exact State.Sound.inv ⟨h.legal, h.size, h.links, h.pad, h.mem⟩ hclean hw
  case encLookup =>
    rw [State.engineStep_encLookup hp]
    unfold State.encLookupStep
    split
    · rename_i r hr
      refine State.Sound.inv ⟨h.legal, h.size, h.links, h.pad, h.mem⟩ hclean ?_
      show s.isEntry r.toNat = true
      unfold State.lookup at hr
      rw [Option.map_eq_some_iff] at hr
      obtain ⟨n, hn, rfl⟩ := hr
      have hn := ((findPair_eq_some_iff _ _ _ _).1 hn).1
      have hlt : n < s.dict.length := by
        by_contra hge
        rw [List.getElem?_eq_none (by omega)] at hn
        cases hn
      rw [State.isEntry_iff]
      have := h.size
      unfold State.dsize at *
      right
      rw [BitVec.toNat_ofNat, Nat.mod_eq_of_lt (by omega)]
      omega
    · exact State.Sound.inv (State.Sound.setPhase hc _) hclean hw
  case encEmit =>
    rw [State.engineStep_encEmit hp]
    refine State.Sound.goOn hc fun t ht => ?_
    have := State.Sound.packWrite hc ht
    obtain ⟨-, -, m, a, n, o, rfl⟩ := State.packWrite_ok ht
    exact State.Sound.inv (State.Sound.setPhase this _) hclean hw
  case encGrow =>
    rw [State.engineStep_encGrow hp]
    refine State.Sound.goOn hc fun t ht => ?_
    have hb : ∀ u : State, ({ u with cur := s.b.setWidth 16, phase := .encNext } : State).WorkOk := by
      intro u
      show ({ u with cur := s.b.setWidth 16, phase := .encNext } : State).isEntry _ = true
      rw [State.isEntry_iff]
      left
      have := s.b.isLt
      simp
      omega
    split at ht
    · cases ht
    · rename_i u hu
      cases ht
      have : State.Sound u ∧ u.done = s.done ∧ u.hit = s.hit ∧ u.err = s.err := by
        unfold State.growTable at hu
        split at hu
        · cases hu
          exact ⟨State.Sound.insert hc _ hw ‹_›, rfl, rfl, rfl⟩
        · split at hu
          · split at hu
            · cases hu
            · rename_i hx
              cases hu
              have := State.Sound.dictInit (State.Sound.packWrite hc hx)
              obtain ⟨-, -, m, a, n, o, rfl⟩ := State.packWrite_ok hx
              exact ⟨this, rfl, rfl, rfl⟩
          · cases hu
            exact ⟨State.Sound.dictInit hc, rfl, rfl, rfl⟩
      obtain ⟨c, h1, h2, h3⟩ := this
      refine State.Sound.inv ⟨c.legal, c.size, c.links, c.pad, c.mem⟩ ?_ (hb u)
      rw [h1, h2, h3]; exact hclean
  case encFinal =>
    rw [State.engineStep_encFinal hp]
    refine State.Sound.goOn hc fun t ht => ?_
    have := State.Sound.packWrite hc ht
    obtain ⟨-, -, m, a, n, o, rfl⟩ := State.packWrite_ok ht
    exact State.Sound.inv (State.Sound.setPhase this _) hclean trivial
  case encEnd =>
    rw [State.engineStep_encEnd hp]
    refine State.Sound.goOn hc fun t ht => ?_
    split at ht
    · have := State.Sound.packWrite hc ht
      obtain ⟨-, -, m, a, n, o, rfl⟩ := State.packWrite_ok ht
      exact State.Sound.inv (State.Sound.setPhase this _) hclean trivial
    · cases ht
      exact State.Sound.inv (State.Sound.setPhase hc _) hclean trivial
  case encFlush =>
    rw [State.engineStep_encFlush hp]
    exact State.Sound.finish hc fun t ht => State.Sound.packFlush hc ht
  case decStart =>
    rw [State.engineStep_decStart hp]
    unfold State.decStartStep
    split
    · exact State.Sound.raise hc _
    · rename_i hs
      obtain ⟨hl, -⟩ := (State.startCheck_eq_ok_iff _ _).1 hs
      have := State.Sound.unpackInit (State.Sound.packInit (State.Sound.latchAndInit hc hl))
      refine State.Sound.inv ⟨this.legal, this.size, this.links, this.pad, this.mem⟩ hclean ?_
      show State.PrevOk _
      intro hx
      simp at hx
  case decTest =>
    rw [State.engineStep_decTest hp]
    unfold State.decTestStep
    split
    · exact State.Sound.complete hc
    · exact State.Sound.inv (State.Sound.setPhase hc _) hclean hw
  case decRead =>
    rw [State.engineStep_decRead hp]
    unfold State.decReadStep
    split
    · exact State.Sound.raise hc _
    · rename_i hr
      have := State.Sound.unpackRead hc hr
      obtain ⟨-, -, p, q, rfl⟩ := State.unpackRead_ok hr
      exact State.Sound.inv ⟨this.legal, this.size, this.links, this.pad, this.mem⟩ hclean hw
  case decClassify =>
    rw [State.engineStep_decClassify hp]
    unfold State.decClassifyStep
    split
    · have := State.Sound.dictInit hc
      refine State.Sound.inv ⟨this.legal, this.size, this.links, this.pad, this.mem⟩ hclean ?_
      show State.PrevOk _
      intro hx
      simp at hx
    · split
      · exact State.Sound.raise hc _
      · split
        · exact State.Sound.raise hc _
        · rename_i h1 h2 h3
          split
          · exact State.Sound.raise hc _
          · rename_i str hstr
            refine State.Sound.inv ⟨h.legal, h.size, h.links, h.pad, h.mem⟩ hclean ?_
            show State.CodeOk s
            have hcode : s.acfg.ctrl = true → s.code.toNat ≠ 256 ∧ s.code.toNat ≠ 257 ∧ s.dsize ≠ s.acfg.maxSize := by
              intro hct
              refine ⟨fun hx => h1 ⟨hct, BitVec.eq_of_toNat_eq hx⟩, fun hx => h2 ⟨hct, BitVec.eq_of_toNat_eq hx⟩, fun hx => h3 ⟨hct, by simp [State.isFull, hx]⟩⟩
            have hsz := h.size
            have hpv : s.prevValid = true → s.isEntry s.prev.toNat = true ∧ s.dsize < s.acfg.maxSize := by
              intro hpv
              refine ⟨(hw hpv).1, ?_⟩
              cases hct : s.acfg.ctrl with
              | false => exact (hw hpv).2 hct
              | true => have := hcode hct; omega
            unfold State.codeString at hstr
            refine ⟨hpv, ?_, ?_⟩
            · rw [State.isEntry_iff]
              split at hstr
              · split at hstr
                · cases hstr
                · left; left; omega
              · rename_i hpt
                have hpt : s.prevValid = true := by simpa using hpt
                split at hstr
                · left
                  rcases hff with ⟨h1, h2⟩ | ⟨h1, h2⟩
                  · omega
                  · have := hcode h1; omega
                · split at hstr
                  · right; exact ⟨hpt, ‹_›⟩
                  · cases hstr
            · intro hx
              rw [if_pos hx] at hstr
              split at hstr
              · cases hstr
              · omega
  case decWrite =>
    rw [State.engineStep_decWrite hp]
    unfold State.decWriteStep
    split
    · exact State.Sound.raise hc _
    · have hmem := State.putBytes_wf s.seq h.mem
      obtain ⟨m, o, hf⟩ := State.putBytes_frame s.seq s
      rw [hf] at hmem ⊢
      exact State.Sound.inv ⟨h.legal, h.size, h.links, h.pad, hmem⟩ hclean hw
  case decGrow =>
    rw [State.engineStep_decGrow hp]
    unfold State.decGrowStep
    obtain ⟨w1, w2, w3⟩ := hw
    have hins : State.Sound s.decInsert ∧ (s.decInsert.done = false ∧ s.decInsert.hit = false ∧ s.decInsert.err = none) ∧ s.decInsert.isEntry s.code.toNat = true := by
      unfold State.decInsert
      split
      · rename_i hx
        refine ⟨State.Sound.insert hc _ (w1 hx.1).1 (w1 hx.1).2, hclean, ?_⟩
        rw [State.isEntry_iff]
        rw [State.isEntry_iff] at w2
        have : (s.insert s.prev (s.seq.headD 0)).dsize = s.dsize + 1 := by
          simp [State.insert, State.dsize]; omega
        show s.code.toNat ≤ 255 ∨ s.acfg.firstFree ≤ s.code.toNat ∧ s.code.toNat < (s.insert s.prev (s.seq.headD 0)).dsize
        rw [this]
        unfold State.dsize at *
        omega
      · rename_i hx
        refine ⟨hc, hclean, ?_⟩
        rcases w2 with w2 | ⟨w2, -⟩
        · exact w2
        · exact absurd ⟨w2, (w1 w2).2⟩ hx
    obtain ⟨hc', hcl', he'⟩ := hins
    dsimp only
    split
    · have := State.Sound.dictInit hc'
      refine State.Sound.inv ⟨this.legal, this.size, this.links, this.pad, this.mem⟩ hcl' ?_
      show State.PrevOk _
      intro hx
      simp at hx
    · rename_i hx
      refine State.Sound.inv ⟨hc'.legal, hc'.size, hc'.links, hc'.pad, hc'.mem⟩ hcl' ?_
      show State.PrevOk _
      intro _
      refine ⟨he', fun hct => ?_⟩
      have hct : s.decInsert.acfg.ctrl = false := hct
      have hs := hc'.size
      show s.decInsert.dsize < s.decInsert.acfg.maxSize
      have : s.decInsert.dsize ≠ s.decInsert.acfg.maxSize := fun hf => hx ⟨hct, by simp [State.isFull, hf]⟩
      omega

theorem State.Inv.engineSteps : ∀ (n : Nat) {s : State}, s.Inv → (s.engineSteps n).Inv
  | 0, _, h => h
  | n + 1, _, h => State.Inv.engineSteps n (State.Inv.engineStep h)

theorem State.Inv.accept {s : State} (h : s.Inv) (i : Instr) : (s.accept (encode i) (firstPhase i)).Inv := by
  refine State.Sound.inv ⟨h.legal, h.size, h.links, h.pad, h.mem⟩ ⟨rfl, rfl, rfl⟩ ?_
  unfold State.WorkOk
  cases i <;> first | trivial | exact ⟨_, decode_encode _, rfl⟩

end Sys2Proof.Machine
end

