-- ==== Sys2Proof/Laws/PerInstr.lean ====
section
/-! SUPPORT. Statements about each command as syntax (30_encoding.md R55 to R57): the family `RoundTrip`, one lemma per constructor. -/

namespace Sys2Proof.Laws.RoundTrip

/-- The command is well formed, its word has no bit above OP and is an assigned opcode, and the word is read back as the command. -/
def Statement (i : Instr) : Prop :=
  i.wf = true ∧ (encode i).toNat < 12 ∧ decode (encode i) = .ok i ∧ decodeTableWord 32 (encode i).toNat = some i

theorem nop : Statement .nop := by unfold Statement; decide
theorem dinit : Statement .dinit := by unfold Statement; decide
theorem dlookup : Statement .dlookup := by unfold Statement; decide
theorem dinsert : Statement .dinsert := by unfold Statement; decide
theorem dread : Statement .dread := by unfold Statement; decide
theorem pinit : Statement .pinit := by unfold Statement; decide
theorem pwrite : Statement .pwrite := by unfold Statement; decide
theorem pflush : Statement .pflush := by unfold Statement; decide
theorem uinit : Statement .uinit := by unfold Statement; decide
theorem uread : Statement .uread := by unfold Statement; decide
theorem encode : Statement .encode := by unfold Statement; decide
theorem decode : Statement .decode := by unfold Statement; decide

end Sys2Proof.Laws.RoundTrip
end

