-- ==== Sys2Proof/Laws/Progress.lean ====
section
/-! SUPPORT. Every engine step of a busy engine brings the end of the command nearer, and the one that ends it sets DONE
(40_command.md R76, R79, 60_exceptions.md R168). -/

namespace Sys2Proof.Machine

/-- The source bytes the encoder has still to read. -/
def State.unread (s : State) : Nat := (s.srcLen - s.srcPos).toNat

/-- A bound on the codes the decoder can still read: each has nine bits or more. -/
def State.readsLeft (s : State) : Nat := (8 * s.srcLen.toNat - s.bitsIn) / 9

/-- A bound on the engine steps that are left. -/
def State.stepsLeft (s : State) : Nat :=
  match s.phase with
  | .idle => 0
  | .exec => 1
  | .encStart => 4 * s.srcLen.toNat + 2
  | .encFirst => 4 * (s.srcLen - 1).toNat + 5
  | .encNext => 4 * s.unread + 4
  | .encLookup => 4 * s.unread + 7
  | .encEmit => 4 * s.unread + 6
  | .encGrow => 4 * s.unread + 5
  | .encFinal => 3
  | .encEnd => 2
  | .encFlush => 1
  | .decStart => 5 * s.srcLen.toNat + 4
  | .decTest => 5 * s.readsLeft + 3
  | .decRead => 5 * s.readsLeft + 2
  | .decClassify => 5 * s.readsLeft + 6
  | .decWrite => 5 * s.readsLeft + 5
  | .decGrow => 5 * s.readsLeft + 4

/-- What makes `stepsLeft` a bound: EXEC holds a primitive command, and the decoder runs under a legal configuration. -/
def State.Runs (s : State) : Prop :=
  match s.phase with
  | .exec => ∃ i : Instr, decode s.cmd = .ok i ∧ firstPhase i = .exec
  | .decTest | .decRead | .decClassify | .decWrite | .decGrow => s.acfg.legal = true
  | .idle | .encStart | .encFirst | .encNext | .encLookup | .encEmit | .encGrow => True
  | .encFinal | .encEnd | .encFlush | .decStart => True

theorem State.progress_idle {s t : State} (h : s.phase = .idle) (ht : 0 < t.stepsLeft) : s.Runs ∧ s.stepsLeft < t.stepsLeft := by
  unfold State.Runs State.stepsLeft
  rw [h]
  exact ⟨trivial, ht⟩

theorem State.progress_goOn {s : State} {p : Phase} {r : Except Err State} (hs : 0 < s.stepsLeft)
    (h : ∀ t, r = .ok t → ({ t with phase := p } : State).Runs ∧ ({ t with phase := p } : State).stepsLeft < s.stepsLeft) :
    (s.goOn p r).Runs ∧ (s.goOn p r).stepsLeft < s.stepsLeft := by
  cases r with
  | ok t => exact h t rfl
  | error e => exact State.progress_idle rfl hs

theorem State.engineStep_progress {s : State} (hr : s.Runs) (hb : s.phase ≠ .idle) : s.engineStep.Runs ∧ s.engineStep.stepsLeft < s.stepsLeft := by
  have hpos : 0 < s.stepsLeft := by
    unfold State.stepsLeft
    cases hp : s.phase <;> first | exact absurd hp hb | (simp only; omega)
  cases hp : s.phase
  case idle => exact absurd hp hb
  case exec =>
    unfold State.Runs at hr
    rw [hp] at hr
    obtain ⟨i, hd, hi⟩ := hr
    rw [State.engineStep_exec hp]
    exact State.progress_idle (State.execStep_idle_done hd hi).1 hpos
  case encStart =>
    rw [State.engineStep_encStart hp]
    unfold State.encStartStep
    split
    · exact State.progress_idle rfl hpos
    · have e : s.stepsLeft = 4 * s.srcLen.toNat + 2 := by unfold State.stepsLeft; rw [hp]
      rw [e]
      split
      · refine ⟨trivial, ?_⟩
        show 1 < _
        omega
      · rename_i h0
        refine ⟨trivial, ?_⟩
        show 4 * (s.srcLen - 1).toNat + 5 < _
        have h1 : s.srcLen.toNat ≠ 0 := fun hx => h0 (BitVec.eq_of_toNat_eq hx)
        have : (s.srcLen - 1).toNat = s.srcLen.toNat - 1 := by
          rw [BitVec.toNat_sub]
          have := s.srcLen.isLt
          have h1 : (1 : BitVec 32).toNat = 1 := rfl
          omega
        have := s.srcLen.isLt
        omega
  case encFirst =>
    rw [State.engineStep_encFirst hp]
    have e : s.stepsLeft = 4 * (s.srcLen - 1).toNat + 5 := by unfold State.stepsLeft; rw [hp]
    rw [e]
    refine ⟨trivial, ?_⟩
    show 4 * (s.srcLen - 1).toNat + 4 < _
    omega
  case encNext =>
    rw [State.engineStep_encNext hp]
    have e : s.stepsLeft = 4 * s.unread + 4 := by unfold State.stepsLeft; rw [hp]
    rw [e]
    unfold State.encNextStep
    split
    · refine ⟨trivial, ?_⟩
      show 3 < _
      omega
    · rename_i h0
      refine ⟨trivial, ?_⟩
      show 4 * (s.srcLen - (s.srcPos + 1)).toNat + 7 < 4 * (s.srcLen - s.srcPos).toNat + 4
      bv_omega
  case encLookup =>
    rw [State.engineStep_encLookup hp]
    have e : s.stepsLeft = 4 * s.unread + 7 := by unfold State.stepsLeft; rw [hp]
    rw [e]
    unfold State.encLookupStep
    split
    · refine ⟨trivial, ?_⟩
      show 4 * s.unread + 4 < _
      omega
    · refine ⟨trivial, ?_⟩
      show 4 * s.unread + 6 < _
      omega
  case encEmit =>
    rw [State.engineStep_encEmit hp]
    refine State.progress_goOn hpos fun t ht => ?_
    have e : s.stepsLeft = 4 * s.unread + 6 := by unfold State.stepsLeft; rw [hp]
    rw [e]
    obtain ⟨-, -, m, a, n, o, rfl⟩ := State.packWrite_ok ht
    refine ⟨trivial, ?_⟩
    show 4 * s.unread + 5 < _
    omega
  case encGrow =>
    rw [State.engineStep_encGrow hp]
    refine State.progress_goOn hpos fun t ht => ?_
    have e : s.stepsLeft = 4 * s.unread + 5 := by unfold State.stepsLeft; rw [hp]
    rw [e]
    split at ht
    · cases ht
    · rename_i u hu
      cases ht
      refine ⟨trivial, ?_⟩
      show 4 * u.unread + 4 < _
      have : u.unread = s.unread := by
        unfold State.growTable at hu
        split at hu
        · cases hu; rfl
        · split at hu
          · split at hu
            · cases hu
            · rename_i hx
              cases hu
              obtain ⟨-, -, m, a, n, o, rfl⟩ := State.packWrite_ok hx
              rfl
          · cases hu; rfl
      omega
  case encFinal =>
    rw [State.engineStep_encFinal hp]
    refine State.progress_goOn hpos fun t ht => ?_
    have e : s.stepsLeft = 3 := by unfold State.stepsLeft; rw [hp]
    rw [e]
    exact ⟨trivial, by show 2 < 3; omega⟩
  case encEnd =>
    rw [State.engineStep_encEnd hp]
    refine State.progress_goOn hpos fun t ht => ?_
    have e : s.stepsLeft = 2 := by unfold State.stepsLeft; rw [hp]
    rw [e]
    exact ⟨trivial, by show 1 < 2; omega⟩
  case encFlush =>
    rw [State.engineStep_encFlush hp]
    exact State.progress_idle (State.finish_idle_done _ _).1 hpos
  case decStart =>
    rw [State.engineStep_decStart hp]
    unfold State.decStartStep
    split
    · exact State.progress_idle rfl hpos
    · rename_i hs
      obtain ⟨hl, -⟩ := (State.startCheck_eq_ok_iff _ _).1 hs
      have e : s.stepsLeft = 5 * s.srcLen.toNat + 4 := by unfold State.stepsLeft; rw [hp]
      rw [e]
      refine ⟨hl, ?_⟩
      show 5 * ((8 * s.srcLen.toNat - (8 * (0 : Word).toNat + (0 : BitVec 3).toNat)) / 9) + 3 < _
      have h1 : (0 : Word).toNat = 0 := rfl
      have h2 : (0 : BitVec 3).toNat = 0 := rfl
      omega
  all_goals
    have hl : s.acfg.legal = true := by unfold State.Runs at hr; rw [hp] at hr; exact hr
  case decTest =>
    rw [State.engineStep_decTest hp]
    unfold State.decTestStep
    split
    · exact State.progress_idle rfl hpos
    · have e : s.stepsLeft = 5 * s.readsLeft + 3 := by unfold State.stepsLeft; rw [hp]
      rw [e]
      refine ⟨hl, ?_⟩
      show 5 * s.readsLeft + 2 < _
      omega
  case decRead =>
    rw [State.engineStep_decRead hp]
    unfold State.decReadStep
    split
    · exact State.progress_idle rfl hpos
    · rename_i v t ht
      have e : s.stepsLeft = 5 * s.readsLeft + 2 := by unfold State.stepsLeft; rw [hp]
      rw [e]
      have hw : 9 ≤ s.readWidth := (CfgFields.widthOf_bounds hl _).1
      have hb := State.unpackRead_bitsIn ht
      obtain ⟨hle, -, p, q, rfl⟩ := State.unpackRead_ok ht
      refine ⟨hl, ?_⟩
      show 5 * ((8 * s.srcLen.toNat - ({ s with srcPos := p, srcBit := q, codeCount := s.codeCount + 1 } : State).bitsIn) / 9) + 6 < 5 * ((8 * s.srcLen.toNat - s.bitsIn) / 9) + 2
      omega
  case decClassify =>
    rw [State.engineStep_decClassify hp]
    unfold State.decClassifyStep
    have e : s.stepsLeft = 5 * s.readsLeft + 6 := by unfold State.stepsLeft; rw [hp]
    split
    · rw [e]
      refine ⟨hl, ?_⟩
      show 5 * s.readsLeft + 3 < _
      omega
    · split
      · exact State.progress_idle rfl hpos
      · split
        · exact State.progress_idle rfl hpos
        · split
          · exact State.progress_idle rfl hpos
          · rw [e]
            refine ⟨hl, ?_⟩
            show 5 * s.readsLeft + 5 < _
            omega
  case decWrite =>
    rw [State.engineStep_decWrite hp]
    unfold State.decWriteStep
    split
    · exact State.progress_idle rfl hpos
    · have e : s.stepsLeft = 5 * s.readsLeft + 5 := by unfold State.stepsLeft; rw [hp]
      rw [e]
      obtain ⟨m, o, hf⟩ := State.putBytes_frame s.seq s
      rw [hf]
      refine ⟨hl, ?_⟩
      show 5 * s.readsLeft + 4 < _
      omega
  case decGrow =>
    rw [State.engineStep_decGrow hp]
    have e : s.stepsLeft = 5 * s.readsLeft + 4 := by unfold State.stepsLeft; rw [hp]
    rw [e]
    have hi : s.decInsert.readsLeft = s.readsLeft ∧ s.decInsert.acfg = s.acfg := by
      unfold State.decInsert
      split <;> exact ⟨rfl, rfl⟩
    unfold State.decGrowStep
    dsimp only
    split
    · refine ⟨by show s.decInsert.acfg.legal = true; rw [hi.2]; exact hl, ?_⟩
      show 5 * s.decInsert.readsLeft + 3 < _
      omega
    · refine ⟨by show s.decInsert.acfg.legal = true; rw [hi.2]; exact hl, ?_⟩
      show 5 * s.decInsert.readsLeft + 3 < _
      omega

theorem State.engineSteps_idle_of_stepsLeft : ∀ (n : Nat) {s : State}, s.Runs → s.stepsLeft ≤ n → (s.engineSteps n).phase = .idle
  | 0, s, hr, hn => by
    by_contra hb
    have := (State.engineStep_progress hr hb).2
    omega
  | n + 1, s, hr, hn => by
    rw [State.engineSteps_succ]
    by_cases hb : s.phase = .idle
    · rw [State.engineStep_idle hb, State.engineSteps_idle hb]; exact hb
    · have := State.engineStep_progress hr hb
      exact State.engineSteps_idle_of_stepsLeft n this.1 (by omega)

theorem State.goOn_done {s : State} {p : Phase} {r : Except Err State} (hp : p ≠ .idle) (hi : (s.goOn p r).phase = .idle) :
    (s.goOn p r).done = true := by
  cases r with
  | ok t => exact absurd hi hp
  | error e => rfl

/-- The engine step that ends a command sets DONE. -/
theorem State.engineStep_done {s : State} (hr : s.Runs) (hb : s.phase ≠ .idle) (hi : s.engineStep.phase = .idle) : s.engineStep.done = true := by
  cases hp : s.phase
  case idle => exact absurd hp hb
  case exec =>
    unfold State.Runs at hr
    rw [hp] at hr
    obtain ⟨i, hd, h⟩ := hr
    rw [State.engineStep_exec hp]
    exact (State.execStep_idle_done hd h).2
  case encStart =>
    rw [State.engineStep_encStart hp] at hi ⊢
    unfold State.encStartStep at hi ⊢
    split
    · rfl
    · rename_i h1
      rw [h1] at hi
      dsimp only at hi
      split at hi <;> cases hi
  case encFirst => rw [State.engineStep_encFirst hp] at hi; cases hi
  case encNext =>
    rw [State.engineStep_encNext hp] at hi
    unfold State.encNextStep at hi
    split at hi <;> cases hi
  case encLookup =>
    rw [State.engineStep_encLookup hp] at hi
    unfold State.encLookupStep at hi
    split at hi <;> cases hi
  case encEmit =>
    rw [State.engineStep_encEmit hp] at hi ⊢
    exact State.goOn_done (by decide) hi
  case encGrow =>
    rw [State.engineStep_encGrow hp] at hi ⊢
    exact State.goOn_done (by decide) hi
  case encFinal =>
    rw [State.engineStep_encFinal hp] at hi ⊢
    exact State.goOn_done (by decide) hi
  case encEnd =>
    rw [State.engineStep_encEnd hp] at hi ⊢
    exact State.goOn_done (by decide) hi
  case encFlush =>
    rw [State.engineStep_encFlush hp]
    exact (State.finish_idle_done _ _).2
  case decStart =>
    rw [State.engineStep_decStart hp] at hi ⊢
    unfold State.decStartStep at hi ⊢
    split
    · rfl
    · rename_i h1
      rw [h1] at hi
      cases hi
  case decTest =>
    rw [State.engineStep_decTest hp] at hi ⊢
    unfold State.decTestStep at hi ⊢
    split
    · rfl
    · rename_i h1
      rw [if_neg h1] at hi
      cases hi
  case decRead =>
    rw [State.engineStep_decRead hp] at hi ⊢
    unfold State.decReadStep at hi ⊢
    split
    · rfl
    · rename_i h1
      rw [h1] at hi
      cases hi
  case decClassify =>
    rw [State.engineStep_decClassify hp] at hi ⊢
    unfold State.decClassifyStep at hi ⊢
    split
    · rename_i h1
      rw [if_pos h1] at hi
      cases hi
    · rename_i h1
      rw [if_neg h1] at hi
      split
      · rfl
      · rename_i h2
        rw [if_neg h2] at hi
        split
        · rfl
        · rename_i h3
          rw [if_neg h3] at hi
          split
          · rfl
          · rename_i h4
            rw [h4] at hi
            cases hi
  case decWrite =>
    rw [State.engineStep_decWrite hp] at hi ⊢
    unfold State.decWriteStep at hi ⊢
    split
    · rfl
    · rename_i h1
      rw [if_neg h1] at hi
      cases hi
  case decGrow =>
    rw [State.engineStep_decGrow hp] at hi
    unfold State.decGrowStep at hi
    dsimp only at hi
    split at hi <;> cases hi

theorem State.engineSteps_done : ∀ (n : Nat) {s : State}, s.Runs → (s.phase = .idle → s.done = true) → (s.engineSteps n).phase = .idle → (s.engineSteps n).done = true
  | 0, s, _, h, hi => h hi
  | n + 1, s, hr, h, hi => by
    rw [State.engineSteps_succ] at hi ⊢
    by_cases hb : s.phase = .idle
    · rw [State.engineStep_idle hb] at hi ⊢
      exact State.engineSteps_done n hr h hi
    · exact State.engineSteps_done n (State.engineStep_progress hr hb).1 (State.engineStep_done hr hb) hi

theorem State.accept_runs (s : State) (i : Instr) : (s.accept (encode i) (firstPhase i)).Runs := by
  cases i <;> first | trivial | exact ⟨_, decode_encode _, rfl⟩

end Sys2Proof.Machine
end

