-- ==== Sys2Proof/Tests/Slice0.lean ====
section
/-! SUPPORT. The model's own tests. Expected results are the spec's: its encodings (30_encoding.md R55 to R57) and its worked vectors
(95_test_vectors.md, named beside each test). The last part shows, for each statement with hypotheses, states and operands that meet
them (theorems `test_witness_…`). -/

namespace Sys2Proof.Tests

open Sys2Proof.Machine

/-! ### Helpers -/

/-- The outcome is a next state with a property. -/
def ends (o : Outcome) (p : State → Bool) : Bool :=
  match o with
  | .next t => p t
  | .fault _ | .refused _ => false

theorem ends_exists {o : Outcome} {p : State → Bool} (h : ends o p = true) : ∃ t, o = .next t ∧ p t = true := by
  cases o with
  | next t => exact ⟨t, rfl, h⟩
  | fault r => cases h
  | refused r => cases h

/-- The outcome is a refusal for a reason. -/
def refusedWith (o : Outcome) (r : Refusal) : Bool :=
  match o with
  | .refused r' => decide (r' = r)
  | .next _ | .fault _ => false

/-- The reset state with the two operand registers set. -/
def withArgs (a0 a1 : Word) : State := { State.reset with arg0 := a0, arg1 := a1 }

/-- One step: the host writes a command word to CMD. -/
def runWord (w : Nat) (s : State) : Outcome := step (s.withFetchWord 32 w)

/-- The reset state with two entries, `(65, 65)` and `(256, 66)`, as in V-D-5 after its step 5. -/
def twoEntries (a0 a1 : Word) : State := { withArgs a0 a1 with dict := [⟨65, 65⟩, ⟨256, 66⟩] }

/-- `n` bytes 'A' at 0x1000 as the source, and a destination at 0x2000. -/
def sourceA (n : Nat) (cap : Word) : State :=
  { State.reset with
    mem := (List.range n).map fun i => (0x1000 + i, 65), srcAddr := 0x1000, srcLen := BitVec.ofNat 32 n
    dstAddr := 0x2000, dstCap := cap, targetLen := BitVec.ofNat 32 n }

/-- A packed stream at 0x1000 as the source, and a destination at 0x2000. -/
def streamAt (bytes : Memory) (len target : Word) : State :=
  { State.reset with mem := bytes, srcAddr := 0x1000, srcLen := len, dstAddr := 0x2000, targetLen := target }

/-- The decoder about to handle a code, with 65 as its previous code. -/
def classifying (c : Code) : State := { State.reset with phase := .decClassify, prev := 65, prevValid := true, code := c }

/-- The decoder about to handle a code under CTRL = 1. -/
def classifyingCtrl (c : Code) : State := { classifying c with acfg := ⟨12, 9, true⟩ }

/-! ### Well-formedness -/

theorem test_wf_refuses_byte_access : (HostOp.csrNarrow 0x14 1).wf = false := by decide
theorem test_wf_refuses_halfword_access : (HostOp.csrNarrow 0x14 2).wf = false := by decide
theorem test_wf_refuses_misaligned_access : (HostOp.csrWrite 0x15 0).wf = false ∧ (HostOp.csrRead 0x0E).wf = false := by decide
theorem test_wf_accepts_word_access : (HostOp.csrWrite 0x14 0).wf = true := by decide
theorem test_wf_accepts_every_command : Instr.wf .nop ∧ Instr.wf .dread ∧ Instr.wf .decode := by decide
theorem test_memory_wf_refuses_disorder : Memory.wf [(2, 1), (1, 1)] = false := by decide
theorem test_memory_wf_refuses_a_repeat : Memory.wf [(1, 1), (1, 2)] = false := by decide
theorem test_memory_wf_refuses_an_unlisted_value : Memory.wf [(1, 0)] = false := by decide
theorem test_memory_wf_refuses_an_address_outside : Memory.wf [(2 ^ 32, 1)] = false := by decide
theorem test_narrow_access_is_refused : refusedWith (State.reset.hostAccess (.csrNarrow 0x14 1)) .narrowAccess = true := by decide

/-- R195 item 4: a 32-bit access at an offset that is no multiple of 4 is no step. -/
theorem test_misaligned_access_is_refused :
    refusedWith (State.reset.hostAccess (.csrWrite 0x16 1)) .misalignedAccess = true ∧
    refusedWith (State.reset.hostAccess (.csrRead 0x39)) .misalignedAccess = true := by decide

/-! ### Decoding: each command's word, bit by bit as R55 and R56 lay it out -/

theorem test_decode_nop : decode 0b00000000000000000000000000000000 = .ok .nop := by decide
theorem test_decode_dinit : decode 0b00000000000000000000000000000001 = .ok .dinit := by decide
theorem test_decode_dlookup : decode 0b00000000000000000000000000000010 = .ok .dlookup := by decide
theorem test_decode_dinsert : decode 0b00000000000000000000000000000011 = .ok .dinsert := by decide
theorem test_decode_dread : decode 0b00000000000000000000000000000100 = .ok .dread := by decide
theorem test_decode_pinit : decode 0b00000000000000000000000000000101 = .ok .pinit := by decide
theorem test_decode_pwrite : decode 0b00000000000000000000000000000110 = .ok .pwrite := by decide
theorem test_decode_pflush : decode 0b00000000000000000000000000000111 = .ok .pflush := by decide
theorem test_decode_uinit : decode 0b00000000000000000000000000001000 = .ok .uinit := by decide
theorem test_decode_uread : decode 0b00000000000000000000000000001001 = .ok .uread := by decide
theorem test_decode_encode : decode 0b00000000000000000000000000001010 = .ok .encode := by decide
theorem test_decode_decode : decode 0b00000000000000000000000000001011 = .ok .decode := by decide
theorem test_decode_refuses_opcode_c : decode 0b00000000000000000000000000001100 = .error .unassignedOpcode := by decide
theorem test_decode_checks_reserved_bits_first : decode 0b00000000000000000000000000011100 = .error .reservedBits := by decide

/-! ### One step of each command -/

/-- V-C-2: NOP clears the error state. -/
theorem test_nop_clears_the_error :
    ends (runWord 0x0 { State.reset with err := some .illegalCommand, errInfo := 1 })
      (fun t => t.statusWord == 0x002 && t.errInfo == 0) = true := by decide

/-- V-C-1, row 3: 0x0000000F is IllegalCommand(1). -/
theorem test_illegal_opcode : ends (runWord 0xF State.reset) (fun t => t.statusWord == 0x602 && t.errInfo == 1) = true := by decide

/-- V-D-2: DINIT with control codes. -/
theorem test_dinit_with_control_codes :
    ends (runWord 0x1 { State.reset with cfg := CfgFields.ofWord 0x0001090C })
      (fun t => t.acfg.toWord == 0x0001090C && t.dictSizeWord == 258 && t.codeWidthWord == 9 && t.statusWord == 0x002) = true := by
  decide

/-- V-D-3, row 6: MAX_WIDTH is checked first. -/
theorem test_dinit_checks_max_width_first :
    ends (runWord 0x1 { State.reset with cfg := CfgFields.ofWord 0x00000808 })
      (fun t => t.statusWord == 0x102 && t.errInfo == 1 && t.acfg.toWord == 0x0000090C) = true := by decide

/-- V-D-5, step 7: ARG0 bits above 15 are ignored. -/
theorem test_dlookup_hit :
    ends (runWord 0x2 (twoEntries 0x10041 65)) (fun t => t.res == 256 && t.statusWord == 0x006) = true := by decide

/-- V-D-5, step 4: a miss. -/
theorem test_dlookup_miss : ends (runWord 0x2 (twoEntries 65 66)) (fun t => t.res == 0 && t.statusWord == 0x002) = true := by decide

/-- V-D-5, step 2. -/
theorem test_dinsert_assigns_256 :
    ends (runWord 0x3 (withArgs 65 65)) (fun t => t.res == 256 && t.dictSizeWord == 257 && t.statusWord == 0x002) = true := by decide

/-- V-D-6, first line: code 256 is not allocated yet. -/
theorem test_dinsert_refuses_the_next_code :
    ends (runWord 0x3 (withArgs 256 0))
      (fun t => t.statusWord == 0x602 && t.errInfo == 4 && t.dictSizeWord == 256 && t.res == 0) = true := by decide

/-- V-D-9: DREAD of the entry `(65, 66)`. -/
theorem test_dread_entry :
    ends (runWord 0x4 { withArgs 256 0 with dict := [⟨65, 66⟩] }) (fun t => t.res == 0x00420041) = true := by decide

/-- V-D-9: DREAD of the singleton 255. -/
theorem test_dread_singleton : ends (runWord 0x4 (withArgs 255 0)) (fun t => t.res == 0x01FF0000) = true := by decide

/-- V-P-8: PINIT discards the pending bits. -/
theorem test_pinit_discards_pending_bits :
    ends (runWord 0x5 { State.reset with pacc := 0x80, pnb := 1, outLen := 1, codeCount := 1 })
      (fun t => t.packState == 0 && t.outLen == 0 && t.codeCount == 0) = true := by decide

/-- V-P-3: a 16-bit write with PNB = 7. -/
theorem test_pwrite_two_bytes :
    ends (runWord 0x6 { withArgs 0xABCD 16 with dstAddr := 0x2000, dstCap := 100, pacc := 0xAA, pnb := 7, codeCount := 1 })
      (fun t => t.mem == [(0x2000, 0xAB), (0x2001, 0x57)] && t.packState == 0x79A && t.outLen == 2 && t.codeCount == 2) = true := by
  decide

/-- V-P-6: the write would complete a byte past DST_CAP. -/
theorem test_pwrite_overflow :
    ends (runWord 0x6 { withArgs 1 7 with dstAddr := 0x2000, dstCap := 1, pacc := 0x80, pnb := 1, outLen := 1, codeCount := 1 })
      (fun t => t.statusWord == 0x502 && t.errInfo == 1 && t.outLen == 1 && t.packState == 0x180 && t.codeCount == 1 &&
        t.mem == []) = true := by decide

/-- V-P-1: PFLUSH writes 0x80 at 0x2001. -/
theorem test_pflush :
    ends (runWord 0x7 { State.reset with dstAddr := 0x2000, dstCap := 100, pacc := 0x80, pnb := 1, outLen := 1 })
      (fun t => t.mem == [(0x2001, 0x80)] && t.outLen == 2 && t.packState == 0) = true := by decide

/-- V-P-6, last line: OutputOverflow(0). -/
theorem test_pflush_overflow :
    ends (runWord 0x7 { State.reset with dstAddr := 0x2000, dstCap := 1, pacc := 0x82, pnb := 7, outLen := 1 })
      (fun t => t.statusWord == 0x502 && t.errInfo == 0 && t.packState == 0x782 && t.outLen == 1) = true := by decide

/-- R118, its example. -/
theorem test_uinit :
    ends (runWord 0x8 { State.reset with srcPos := 3, srcBit := 5, codeCount := 7 })
      (fun t => t.srcPos == 0 && t.srcBit == 0 && t.codeCount == 0) = true := by decide

/-- V-U-2: a 16-bit read that touches three bytes. -/
theorem test_uread_three_bytes :
    ends (runWord 0x9 { withArgs 0 16 with
        mem := [(0x1000, 0x01), (0x1001, 0xFF), (0x1002, 0x80)], srcAddr := 0x1000, srcLen := 3, srcBit := 7 })
      (fun t => t.res == 0xFFC0 && t.srcPos == 2 && t.srcBit == 7 && t.codeCount == 1) = true := by decide

/-- V-U-1, step 4: TruncatedStream(9). -/
theorem test_uread_past_the_end :
    ends (runWord 0x9 { withArgs 0 9 with srcLen := 4, srcPos := 3, srcBit := 3, codeCount := 3, res := 256 })
      (fun t => t.statusWord == 0x202 && t.errInfo == 9 && t.res == 256 && t.srcPos == 3 && t.srcBit == 3 && t.codeCount == 3) = true := by
  decide

set_option maxRecDepth 4000 in
/-- V-ENC-1: "AAAAA" under the reset configuration. -/
theorem test_encode_five_a :
    ends (runWord 0xA (sourceA 5 16))
      (fun t => t.memReadList 0x2000 4 == [0x20, 0xC0, 0x20, 0x00] && t.statusWord == 0x002 && t.outLen == 4 && t.packState == 0 &&
        t.srcPos == 5 && t.srcBit == 0 && t.codeCount == 3 && t.dictSizeWord == 258) = true := by decide +kernel

set_option maxRecDepth 4000 in
/-- P4, row 7: "AAAAA" with DST_CAP = 1 is OutputOverflow(256). -/
theorem test_encode_overflow :
    ends (runWord 0xA (sourceA 5 1))
      (fun t => t.statusWord == 0x502 && t.errInfo == 256 && t.packState == 0x180 && t.outLen == 1 && t.codeCount == 1 &&
        t.srcPos == 4 && t.dictSizeWord == 257) = true := by decide +kernel

set_option maxRecDepth 4000 in
/-- V-DEC-2: "ABABABA", whose code 258 is the KwKwK case. -/
theorem test_decode_kwkwk :
    ends (runWord 0xB (streamAt [(0x1000, 0x20), (0x1001, 0x90), (0x1002, 0xA0), (0x1003, 0x10), (0x1004, 0x20)] 5 7))
      (fun t => t.memReadList 0x2000 7 == [65, 66, 65, 66, 65, 66, 65] && t.statusWord == 0x002 && t.dictSizeWord == 259 &&
        t.srcPos == 4 && t.srcBit == 4 && t.codeCount == 4) = true := by decide +kernel

set_option maxRecDepth 4000 in
/-- R154 item 3: a first code above 255 is CorruptStream(256). -/
theorem test_decode_first_code_corrupt :
    ends (runWord 0xB (streamAt [(0x1000, 0x80)] 2 1)) (fun t => t.statusWord == 0x302 && t.errInfo == 256 && t.outLen == 0) = true := by
  decide +kernel

/-! ### Resets and the host's side -/

/-- V-I-2: a soft reset forces IE to 0. -/
theorem test_soft_reset :
    ends (State.csrWrite { State.reset with ie := true, res := 7, outLen := 3, done := true } 0x04 0x3)
      (fun t => t == State.reset) = true := by decide

/-- V-I-1: only a 1 in bit 1 of STATUS clears DONE. -/
theorem test_status_write_keeps_done :
    ends (State.csrWrite { State.reset with ie := true, done := true } 0x08 0xFFFFFFFD) (fun t => t.irq) = true := by decide

/-- V-C-3: a command word written during a command is ignored. -/
theorem test_busy_command_is_ignored :
    ends (State.csrWrite { State.reset with phase := .encNext } 0x14 0x1)
      (fun t => t == { State.reset with phase := .encNext }) = true := by decide

/-- R60 `csrr`: the host's own record of a read of DICT_SIZE after reset. -/
theorem test_host_reads_dict_size :
    ends (step { State.reset with host := csrr .dictSize }) (fun t => t.obs == [.reg 0x38 256] && t.host == []) = true := by decide

/-- R61 `lzw.config 9, 9, 1` is one write of CFG. -/
theorem test_lzw_config : lzwConfig 9 9 1 = [⟨0, .csrWrite 0x0C 0x00010909⟩] := by decide

/-! ### Witnesses: states and operands that meet the hypotheses of each statement, clause by clause -/

theorem pMaxw_lt_17 : Config.pMaxw < 17 := by
  have := pMaxw_bounds
  omega

/-- A decoder in the middle of a stream, with one entry in its table and the KwKwK code in hand. -/
def midStream : State := { classifying 257 with dict := [⟨65, 65⟩], prev := 256 }

theorem midStream_inv : midStream.Inv := by
  refine ⟨by show resetCfg.legal = true; decide, by decide, ?_, ?_, rfl, fun _ => ⟨rfl, rfl, rfl⟩, ?_⟩
  · intro n e he
    have he : ([⟨65, 65⟩] : List Entry)[n]? = some e := he
    cases n with
    | zero => cases he; decide
    | succ n => simp at he
  · intro i _
    show (0 : Byte).getLsbD i = false
    simp
  · show State.PrevOk midStream
    intro _
    exact ⟨by decide, fun _ => by decide⟩

/-- A decoder whose table, of nine-bit codes, lacks one entry, with 65 as its previous code and the KwKwK code 511 in hand. -/
def filling (ct : Bool) : State :=
  { classifying 511 with acfg := ⟨9, 9, ct⟩, dict := List.replicate (bif ct then 253 else 255) ⟨65, 65⟩, targetLen := 2 }

theorem filling_inv (ct : Bool) : (filling ct).Inv := by
  refine ⟨by cases ct <;> decide, by cases ct <;> decide +kernel, ?_, ?_, rfl, fun _ => ⟨rfl, rfl, rfl⟩, ?_⟩
  · intro n e he
    have he : (List.replicate (bif ct then 253 else 255) (⟨65, 65⟩ : Entry))[n]? = some e := he
    rw [List.getElem?_replicate] at he
    split at he
    · cases he
      exact ⟨Nat.lt_of_lt_of_le (by decide : 65 < 256) (Nat.le_trans (by cases ct <;> decide) (Nat.le_add_right _ n)), .inl (by decide)⟩
    · cases he
  · intro i _
    show (0 : Byte).getLsbD i = false
    simp
  · show State.PrevOk (filling ct)
    intro _
    exact ⟨by cases ct <;> decide +kernel, fun _ => by cases ct <;> decide +kernel⟩

theorem test_witness_EncodeThenDecodeIsTheCommand : Instr.wf .decode = true := by decide

theorem test_witness_EveryWordDecodesByItsFields :
    (16 ≤ (16 : Word).toNat ∧ 16 ≤ (0xFFFFFFFF : Word).toNat) ∧
    (12 ≤ (12 : Word).toNat ∧ (12 : Word).toNat < 16 ∧ 12 ≤ (15 : Word).toNat ∧ (15 : Word).toNat < 16) ∧
    ((0 : Word).toNat < 12 ∧ (11 : Word).toNat < 12) := by decide

theorem test_witness_CommandWordsDispatchOrRaise :
    State.reset.phase = .idle ∧ hostWaits State.reset.host = true ∧ hostWaits (csrr .status) = false ∧
    ((0 : Word).toNat < 12 ∧ (11 : Word).toNat < 12) ∧ (12 ≤ (12 : Word).toNat ∧ 12 ≤ (15 : Word).toNat ∧ 12 ≤ (16 : Word).toNat) := by
  decide

theorem test_witness_StepRunsTheDecodedCommand :
    (∀ op : HostOp, op = .csrWrite 0x14 0xB ∨ op = .busWrite (Config.csrBase + 0x14) 0xB →
      let s : State := { State.reset with host := ⟨3, op⟩ :: waitIdle }
      s.phase = .idle ∧ s.host = ⟨3, op⟩ :: waitIdle) ∧
    hostWaits waitIdle = true ∧ hostWaits [] = true ∧ decode 0xB = .ok .decode := ⟨fun _ _ => ⟨rfl, rfl⟩, by decide⟩

theorem test_witness_InterleavedRunsEndWhereWholeRunsEnd :
    State.reset.phase = .idle ∧ (∃ t, exec .nop State.reset = .next t) ∧ (∃ t, exec .decode State.reset = .next t ∧ t.done = true) ∧
    HostOp.csrRead 0x08 ≠ .wait :=
  ⟨rfl, ⟨_, rfl⟩, ends_exists (p := State.done) (by decide), by decide⟩

theorem test_witness_EveryCommandTerminates : State.reset.phase = .idle := rfl

theorem test_witness_BusyEngineFinishes :
    midStream.Inv ∧ midStream.phase ≠ .idle := ⟨midStream_inv, by decide⟩

theorem test_witness_EveryStepKeepsTheInvariant :
    midStream.Inv ∧ ∃ t, step midStream = .next t ∧ decide (t.phase = .decWrite) = true :=
  ⟨midStream_inv, ends_exists (by decide +kernel)⟩

theorem test_witness_EveryEntryHasAShortString :
    midStream.Inv ∧ midStream.isEntry (0 : Code).toNat = true ∧ midStream.isEntry (255 : Code).toNat = true ∧
      midStream.isEntry (256 : Code).toNat = true ∧ midStream.entry? (256 : Code).toNat = some ⟨65, 65⟩ :=
  ⟨midStream_inv, by decide, by decide, by decide, by decide⟩

theorem test_witness_CodeWidthHoldsEveryAllocatedCode :
    resetCfg.legal = true ∧ 4096 ≤ 2 ^ resetCfg.maxWidth.toNat ∧ 4095 < 4096 := ⟨by decide, by show 4096 ≤ 2 ^ 12; norm_num, by omega⟩

theorem test_witness_NopOnlyCompletes :
    State.reset.phase = .idle ∧ (0x10 : Word).extractLsb' 0 4 = 0 ∧ (0x10 : Word) ≠ 0 := by decide

theorem test_witness_DinitLatchesOrRefusesTheConfiguration :
    (∀ c : CfgFields, c = ⟨9, 9, false⟩ ∨ c = ⟨12, 12, true⟩ → 9 ≤ c.maxWidth.toNat ∧ c.maxWidth.toNat ≤ Config.pMaxw ∧
      9 ≤ c.initWidth.toNat ∧ c.initWidth.toNat ≤ c.maxWidth.toNat) ∧
    ((8 : BitVec 5).toNat < 9 ∧ Config.pMaxw < (17 : BitVec 5).toNat) ∧
    (9 ≤ (12 : BitVec 5).toNat ∧ (12 : BitVec 5).toNat ≤ Config.pMaxw ∧ (8 : BitVec 5).toNat < 9 ∧
      (12 : BitVec 5).toNat < (13 : BitVec 5).toNat) := by
  refine ⟨?_, ⟨by decide, pMaxw_lt_17⟩, by decide, by decide, by decide, by decide⟩
  rintro c (rfl | rfl) <;> decide

theorem test_witness_DlookupAnswersTheLeastCode :
    (twoEntries 256 66).phase = .idle ∧ (twoEntries 256 66).dsize ≤ 65536 ∧
    ((twoEntries 256 66).entry? 257 = some ⟨256, 66⟩ ∧ (∀ c' < 257, (twoEntries 256 66).entry? c' ≠ some ⟨256, 66⟩)) ∧
    (∀ c : Nat, (withArgs 65 66).entry? c ≠ some ⟨65, 66⟩) ∧
    (midStream.LinksBack ∧ ¬ (257 ≤ 255 ∨ (midStream.acfg.firstFree ≤ 257 ∧ 257 < midStream.dsize))) := by
  refine ⟨rfl, by decide, ⟨by decide, ?_⟩, fun c => ?_, midStream_inv.links, by decide⟩
  · intro c hc
    unfold State.entry?
    split
    · simp
    · rename_i h
      have h : ¬ c < 256 := h
      have : c = 256 := by omega
      subst this
      decide
  · unfold State.entry?
    split
    · simp
    · show ([] : List Entry)[_]? ≠ _
      simp

theorem test_witness_DinsertAssignsTheNextCode :
    let full : State := { withArgs 9999 0 with acfg := ⟨9, 9, false⟩, dict := List.replicate 256 ⟨0, 0⟩ }
    (full.phase = .idle ∧ full.dsize = 2 ^ full.acfg.maxWidth.toNat) ∧
    (256 ≠ 2 ^ 12 ∧ (withArgs 256 0).dsize = 256 ∧ ¬ (256 ≤ 255 ∨ (256 ≤ 256 ∧ 256 < 256))) ∧
    ((twoEntries 257 0).dsize = 258 ∧ (256 ≤ 257 ∧ 257 < 258) ∧ (withArgs 255 0).arg0.extractLsb' 0 16 = 255) := by
  exact ⟨⟨rfl, by decide +kernel⟩, by decide, by decide⟩

theorem test_witness_DreadShowsTheEntry :
    (((withArgs 0 0).arg0.extractLsb' 0 16).toNat ≤ 255 ∧ ((withArgs 255 0).arg0.extractLsb' 0 16).toNat ≤ 255) ∧
    (256 ≤ ((twoEntries 256 0).arg0.extractLsb' 0 16).toNat ∧ ((twoEntries 257 0).arg0.extractLsb' 0 16).toNat < (twoEntries 257 0).dsize) ∧
    (255 < ((twoEntries 258 0).arg0.extractLsb' 0 16).toNat ∧ (twoEntries 258 0).dsize ≤ ((twoEntries 258 0).arg0.extractLsb' 0 16).toNat) ∧
    (255 < ((withArgs 257 0).arg0.extractLsb' 0 16).toNat ∧
      ((withArgs 257 0).arg0.extractLsb' 0 16).toNat < ({ withArgs 257 0 with acfg := ⟨12, 9, true⟩ } : State).acfg.firstFree) := by decide

theorem test_witness_InsertedEntryIsReadAndFound :
    (withArgs 65 66).phase = .idle ∧ (withArgs 65 66).acfg.legal = true ∧ (withArgs 65 66).dsize ≤ (withArgs 65 66).acfg.maxSize ∧
    (∃ t, exec .dinsert (withArgs 65 66) = .next t ∧ t.err.isNone = true) ∧
    (∀ c : Nat, (withArgs 65 66).entry? c ≠ some ⟨65, 66⟩) := by
  refine ⟨rfl, by decide, by decide, ends_exists (by decide), fun c => ?_⟩
  unfold State.entry?
  split
  · simp
  · show ([] : List Entry)[_]? ≠ _
    simp

theorem test_witness_PinitStartsAStream : State.reset.phase = .idle := rfl

/-- The widths 0, 17 and 31; a write that overflows and one that just fits, at the widths 1 and 16. -/
theorem test_witness_PwriteAppendsTheBits :
    (State.reset.phase = .idle ∧ State.reset.mem.wf = true) ∧
    (((withArgs 5 0).arg1.extractLsb' 0 5).toNat < 1 ∧ 16 < ((withArgs 5 17).arg1.extractLsb' 0 5).toNat ∧
      16 < ((withArgs 5 31).arg1.extractLsb' 0 5).toNat) ∧
    (0 < 0 + ((7 : BitVec 3).toNat + ((withArgs 5 1).arg1.extractLsb' 0 5).toNat) / 8 ∧
      1 < 0 + ((0 : BitVec 3).toNat + ((withArgs 5 16).arg1.extractLsb' 0 5).toNat) / 8) ∧
    (0 + ((6 : BitVec 3).toNat + ((withArgs 5 1).arg1.extractLsb' 0 5).toNat) / 8 ≤ 0 ∧
      0 + ((7 : BitVec 3).toNat + ((withArgs 5 16).arg1.extractLsb' 0 5).toNat) / 8 ≤ 2) := by decide

theorem test_witness_PflushEmitsThePartialByte :
    (State.reset.phase = .idle ∧ State.reset.mem.wf = true ∧ State.reset.pnb = 0) ∧
    ((1 : BitVec 3) ≠ 0 ∧ State.reset.dstCap.toNat ≤ State.reset.outLen.toNat) ∧
    ((7 : BitVec 3) ≠ 0 ∧ (0 : Word).toNat < (1 : Word).toNat) := by decide

theorem test_witness_PackedRegionIsExactlyTheStream :
    let l : List (Code × Nat) := [(65, 9), (0xABCD, 16), (1, 1), (3, 6)]
    State.reset.mem.wf = true ∧ (∀ x ∈ l, 1 ≤ x.2 ∧ x.2 ≤ 16) ∧ ((l.map Prod.snd).sum + 7) / 8 ≤ (4 : Word).toNat := by decide

theorem test_witness_UinitStartsAtTheFirstBit : State.reset.phase = .idle := rfl

/-- A read one bit too long, and one that ends exactly at the last bit, at the widths 1 and 16. -/
theorem test_witness_UreadTakesTheNextBits :
    (((withArgs 0 0).arg1.extractLsb' 0 5).toNat < 1 ∧ 16 < ((withArgs 0 17).arg1.extractLsb' 0 5).toNat) ∧
    (8 * (0 : Word).toNat < (withArgs 0 1).bitsIn + ((withArgs 0 1).arg1.extractLsb' 0 5).toNat ∧
      8 * (2 : Word).toNat < ({ withArgs 0 16 with srcBit := 1 } : State).bitsIn + ((withArgs 0 16).arg1.extractLsb' 0 5).toNat) ∧
    (({ withArgs 0 1 with srcBit := 7 } : State).bitsIn + ((withArgs 0 1).arg1.extractLsb' 0 5).toNat ≤ 8 * (1 : Word).toNat ∧
      (withArgs 0 16).bitsIn + ((withArgs 0 16).arg1.extractLsb' 0 5).toNat ≤ 8 * (2 : Word).toNat) := by decide

/-- After the nine bits of one code in two bytes, seven pad bits are left: reads of 7 and of 8 bits meet the two last clauses. -/
theorem test_witness_UnpackerInvertsPacker :
    let s : State := { State.reset with dstAddr := 0x2000, dstCap := 2 }
    s.mem.wf = true ∧ (∀ x ∈ ([(256, 9)] : List (Code × Nat)), 1 ≤ x.2 ∧ x.2 ≤ 16 ∧ x.1.toNat < 2 ^ x.2) ∧
    (∃ t u, s.packInit.packAll [(256, 9)] = .ok t ∧ t.packFlush = .ok u ∧ u.outLen = 2) ∧
    7 ≤ 8 * (2 : Word).toNat - 9 ∧ 8 * (2 : Word).toNat - 9 < 8 :=
  ⟨by decide, by decide, ⟨_, _, rfl, rfl, by decide⟩, by decide, by decide⟩

theorem test_witness_WholeBufferCommandsCheckTheirStart :
    State.reset.phase = .idle ∧ resetCfg.legal = true ∧
    ((8 : BitVec 5).toNat < 9 ∧ Config.pMaxw < (17 : BitVec 5).toNat) ∧
    (9 ≤ (9 : BitVec 5).toNat ∧ (9 : BitVec 5).toNat ≤ Config.pMaxw ∧ (9 : BitVec 5).toNat < (10 : BitVec 5).toNat) ∧
    2 ^ 32 < (0xFFFFFFFF : Word).toNat + (2 : Word).toNat ∧
    ((0xFFFFFFFF : Word).toNat + (1 : Word).toNat ≤ 2 ^ 32 ∧ 2 ^ 32 < (0xFFFFFFF0 : Word).toNat + (17 : Word).toNat) ∧
    (0 < (5 : Word).toNat ∧ (0x1000 : Word).toNat < (0x0FF1 : Word).toNat + (16 : Word).toNat ∧
      (0x0FF1 : Word).toNat < (0x1000 : Word).toNat + (5 : Word).toNat) ∧
    State.RegionsFit { State.reset with srcAddr := 0x1000, srcLen := 5, dstAddr := 0x0FF0 } 16 := by
  refine ⟨rfl, by decide, ⟨by decide, pMaxw_lt_17⟩, by decide, by decide, by decide, by decide, ?_⟩
  unfold State.RegionsFit
  decide

theorem test_witness_EncodeOfNothingEmitsNothing :
    State.reset.phase = .idle ∧ State.reset.cfg.legal = true ∧ State.reset.RegionsFit State.reset.dstCap ∧ State.reset.srcLen = 0 := by
  unfold State.RegionsFit
  decide

/-- One byte needs `ceil(3 × 12 / 8) = 5` bytes of room; no byte needs none. -/
theorem test_witness_EncodeCompletesWithRoom :
    (sourceA 1 5).phase = .idle ∧ (sourceA 1 5).cfg.legal = true ∧ (sourceA 1 5).RegionsFit (sourceA 1 5).dstCap ∧
    ((2 * (sourceA 1 5).srcLen.toNat + 1) * (sourceA 1 5).cfg.maxWidth.toNat + 7) / 8 ≤ (sourceA 1 5).dstCap.toNat ∧
    (sourceA 0 0).srcLen = 0 := by
  unfold State.RegionsFit
  decide

set_option maxRecDepth 4000 in
theorem test_witness_EncodeWritesTheGreedyLzwStream :
    (sourceA 2 3).phase = .idle ∧ (sourceA 2 3).mem.wf = true ∧ (sourceA 2 3).cfg.legal = true ∧
    (sourceA 2 3).RegionsFit (sourceA 2 3).dstCap ∧
    (Textbook.compress (sourceA 2 3).cfg ((sourceA 2 3).memReadList (sourceA 2 3).srcAddr (sourceA 2 3).srcLen.toNat)).length
      ≤ (sourceA 2 3).dstCap.toNat := by
  unfold State.RegionsFit
  decide +kernel

set_option maxRecDepth 4000 in
theorem test_witness_EncodeWritesOnlyItsOutput :
    (sourceA 2 3).phase = .idle ∧ (∃ t, exec .encode (sourceA 2 3) = .next t ∧ t.err.isNone = true) ∧
    (∃ t, exec .encode (sourceA 2 0) = .next t ∧ decide (t.err = some .outputOverflow) = true) ∧
    (∃ t, exec .encode { sourceA 2 3 with cfg := ⟨8, 9, false⟩ } = .next t ∧ decide (t.err = some .invalidConfiguration) = true) :=
  ⟨rfl, ends_exists (by decide +kernel), ends_exists (by decide +kernel), ends_exists (by decide +kernel)⟩

set_option maxRecDepth 4000 in
theorem test_witness_EncodeDependsOnlyOnItsInput :
    let s := sourceA 1 5
    let s' : State := { sourceA 1 5 with dstAddr := 0x3000, pacc := 0x80, pnb := 1, dict := [⟨65, 65⟩] }
    (s.phase = .idle ∧ s'.phase = .idle ∧ s.mem.wf = true ∧ s'.mem.wf = true ∧ s.cfg = s'.cfg ∧ s.cfg.legal = true ∧ s.dstCap = s'.dstCap ∧
      s.RegionsFit s.dstCap ∧ s'.RegionsFit s'.dstCap ∧ s.srcLen = s'.srcLen ∧
      s.memReadList s.srcAddr s.srcLen.toNat = s'.memReadList s'.srcAddr s'.srcLen.toNat) ∧
    (∃ t, exec .encode s = .next t ∧ t.done = true) ∧ (∃ t, exec .encode s' = .next t ∧ t.done = true) := by
  refine ⟨?_, ends_exists (by decide +kernel), ends_exists (by decide +kernel)⟩
  unfold State.RegionsFit
  decide

set_option maxRecDepth 4000 in
theorem test_witness_EncodeLeavesDistinctStrings :
    (sourceA 2 3).phase = .idle ∧ (sourceA 2 3).cfg.legal = true ∧
    (∃ t, exec .encode (sourceA 2 3) = .next t ∧
      (decide (t.err ≠ some .invalidConfiguration) && t.isEntry (65 : Code).toNat && t.isEntry (256 : Code).toNat) = true) :=
  ⟨rfl, by decide, ends_exists (by decide +kernel)⟩

theorem test_witness_DecodeToNothingReadsNothing :
    State.reset.phase = .idle ∧ State.reset.cfg.legal = true ∧ State.reset.RegionsFit State.reset.targetLen ∧ State.reset.targetLen = 0 := by
  unfold State.RegionsFit
  decide

/-- "A" encodes as the two bytes 20 80 (V-ENC-6). -/
theorem test_witness_DecodeInvertsTheGreedyLzwStream :
    let s := streamAt [(0x1000, 0x20), (0x1001, 0x80)] 2 1
    s.phase = .idle ∧ s.mem.wf = true ∧ s.cfg.legal = true ∧ s.RegionsFit s.targetLen ∧ s.targetLen.toNat = ([65] : List Byte).length ∧
    (Textbook.compress s.cfg [65]).length ≤ s.srcLen.toNat ∧
    s.memReadList s.srcAddr (Textbook.compress s.cfg [65]).length = Textbook.compress s.cfg [65] := by
  unfold State.RegionsFit
  decide +kernel

set_option maxRecDepth 4000 in
theorem test_witness_EncodeThenDecodeGivesTheInputBack :
    (sourceA 1 5).phase = .idle ∧ (sourceA 1 5).mem.wf = true ∧ (sourceA 1 5).cfg.legal = true ∧
    (sourceA 1 5).RegionsFit (sourceA 1 5).dstCap ∧
    (∃ t, exec .encode (sourceA 1 5) = .next t ∧
      (decide (t.err = none) && decide (t.dstAddr = 0x2000) && decide (t.outLen = 2)) = true) ∧
    ∀ t : State, t.dstAddr = 0x2000 → t.outLen = 2 →
      State.RegionsFit { t with srcAddr := t.dstAddr, srcLen := t.outLen, dstAddr := 0x3000, targetLen := 1 } 1 := by
  unfold State.RegionsFit
  refine ⟨rfl, by decide, by decide, by decide, ends_exists (by decide +kernel), fun t h1 h2 => ?_⟩
  dsimp only
  rw [h1, h2]
  decide

set_option maxRecDepth 4000 in
theorem test_witness_DecodeWritesOnlyItsOutput :
    (∃ t, exec .decode (streamAt [(0x1000, 0x20), (0x1001, 0x80)] 2 1) = .next t ∧ t.err.isNone = true) ∧
    (∃ t, exec .decode (streamAt [(0x1000, 0x80)] 2 1) = .next t ∧ decide (t.err = some .corruptStream) = true) ∧
    (∃ t, exec .decode { streamAt [] 2 1 with cfg := ⟨9, 10, false⟩ } = .next t ∧ decide (t.err = some .invalidConfiguration) = true) :=
  ⟨ends_exists (by decide +kernel), ends_exists (by decide +kernel), ends_exists (by decide +kernel)⟩

/-- DEC_READ: 9 bits of a one-byte source, and the last 9 bits of a two-byte source. DEC_WRITE: two bytes with room for one, and for two. -/
theorem test_witness_DecoderRefusesBadCodes :
    ((classifyingCtrl 256).phase = .decClassify ∧ (classifyingCtrl 256).acfg.ctrl = true ∧ (classifyingCtrl 256).code = 256 ∧
      (classifyingCtrl 257).code = 257 ∧
      ((classifyingCtrl 258).code ≠ 256 ∧ (classifyingCtrl 258).code ≠ 257 ∧
        ({ classifyingCtrl 258 with acfg := ⟨9, 9, true⟩, dict := List.replicate 254 ⟨0, 0⟩ } : State).dsize = 2 ^ 9) ∧
      ((classifyingCtrl 259).code ≠ 256 ∧ (classifyingCtrl 259).code ≠ 257 ∧ (classifyingCtrl 259).dsize < (classifyingCtrl 259).code.toNat) ∧
      ((classifying 256).acfg.ctrl = false ∧ ({ classifying 256 with prevValid := false } : State).prevValid = false ∧
        255 < (classifying 256).code.toNat) ∧
      ((classifying 257).prevValid = true ∧ (classifying 257).dsize < (classifying 257).code.toNat)) ∧
    (let s : State := { State.reset with phase := .decRead, srcLen := 1 };
      s.phase = .decRead ∧ s.acfg.legal = true ∧ 9 = min s.acfg.maxWidth.toNat (max s.acfg.initWidth.toNat (bitlen 256)) ∧
      8 * s.srcLen.toNat < s.bitsIn + 9 ∧ ({ s with srcBit := 7 } : State).bitsIn + 9 ≤ 8 * (2 : Word).toNat) ∧
    (let s : State := { classifying 65 with phase := .decWrite, seq := [65, 66], targetLen := 1 };
      s.phase = .decWrite ∧ s.mem.wf = true ∧ s.targetLen.toNat < s.outLen.toNat + s.seq.length ∧
      s.outLen.toNat + s.seq.length ≤ (2 : Word).toNat) :=
  ⟨⟨by decide, by decide, by decide, by decide, ⟨by decide, by decide, by decide +kernel⟩, by decide, by decide, by decide⟩,
    by decide, by decide⟩

/-- In the middle of a table, and at the code that fills it under either CTRL. -/
theorem test_witness_KwKwKCodeGetsItsString :
    (let s : State := { midStream with targetLen := 3 };
      s.Inv ∧ s.phase = .decClassify ∧ s.prevValid = true ∧ s.code.toNat = s.dsize ∧ s.dsize < s.acfg.maxSize ∧
      s.outLen.toNat + (2 + 1) ≤ s.targetLen.toNat ∧ s.dsize + 1 < s.acfg.maxSize) ∧
    (∀ ct : Bool, (filling ct).Inv ∧ (filling ct).phase = .decClassify ∧ (filling ct).prevValid = true ∧
      (filling ct).code.toNat = (filling ct).dsize ∧ (filling ct).dsize < (filling ct).acfg.maxSize ∧
      (filling ct).outLen.toNat + (1 + 1) ≤ (filling ct).targetLen.toNat ∧ (filling ct).dsize + 1 = (filling ct).acfg.maxSize) :=
  ⟨⟨⟨midStream_inv.legal, midStream_inv.size, midStream_inv.links, midStream_inv.pad, midStream_inv.mem, midStream_inv.clean,
    midStream_inv.work⟩, by decide, by decide, by decide, by decide, by decide, by decide⟩,
    fun ct => ⟨filling_inv ct, rfl, rfl, by cases ct <;> decide +kernel, by cases ct <;> decide +kernel, by cases ct <;> decide,
      by cases ct <;> decide +kernel⟩⟩

set_option maxRecDepth 4000 in
/-- Each of the six kinds is raised by some command. -/
theorem test_witness_CommandsRaiseOnlyTheirErrors :
    (∃ t, exec .dinit { State.reset with cfg := ⟨8, 9, false⟩ } = .next t ∧ decide (t.err = some .invalidConfiguration) = true) ∧
    (∃ t, exec .uread (withArgs 0 1) = .next t ∧ decide (t.err = some .truncatedStream) = true) ∧
    (∃ t, exec .decode (streamAt [(0x1000, 0x80)] 2 1) = .next t ∧ decide (t.err = some .corruptStream) = true) ∧
    (∃ t, exec .decode (streamAt [(0x1000, 0x20), (0x1001, 0xC0)] 3 2) = .next t ∧ decide (t.err = some .lengthMismatch) = true) ∧
    (∃ t, exec .encode (sourceA 2 0) = .next t ∧ decide (t.err = some .outputOverflow) = true) ∧
    (∃ t, exec .dread (withArgs 256 0) = .next t ∧ decide (t.err = some .illegalCommand) = true) :=
  ⟨ends_exists (by decide +kernel), ends_exists (by decide +kernel), ends_exists (by decide +kernel), ends_exists (by decide +kernel),
    ends_exists (by decide +kernel), ends_exists (by decide +kernel)⟩

theorem test_witness_FailingPrimitivesChangeNothingElse :
    State.reset.phase = .idle ∧ Instr.dread ≠ .encode ∧ Instr.dread ≠ .decode ∧
    (∃ t, exec .dread (withArgs 256 0) = .next t ∧ decide (t.err = some .illegalCommand) = true) :=
  ⟨rfl, by decide, by decide, ends_exists (by decide)⟩

theorem test_witness_AnErrorDoesNotTouchTheNextCommand : State.reset.phase = .idle := rfl

theorem test_witness_NoCommandWritesAnOperand :
    (∃ t, exec .nop State.reset = .next t) ∧ (∃ t, exec .nop (classifying 65) = .next t) := ⟨⟨_, rfl⟩, ⟨_, rfl⟩⟩

theorem test_witness_OnlyInitialisationWritesAcfg :
    (∃ t, exec .pwrite (withArgs 5 1) = .next t) ∧ Instr.pwrite ≠ .dinit ∧ Instr.pwrite ≠ .encode ∧ Instr.pwrite ≠ .decode ∧
    Instr.pwrite ≠ .dinsert := ⟨⟨_, rfl⟩, by decide⟩

theorem test_witness_OnlyResultCommandsWriteRes :
    (∃ t, exec .pinit State.reset = .next t) ∧
    (Instr.pinit ≠ .dlookup ∧ Instr.pinit ≠ .dinsert ∧ Instr.pinit ≠ .dread ∧ Instr.pinit ≠ .uread) ∧
    (∃ t, exec .dread (withArgs 256 0) = .next t ∧ decide (t.err ≠ none) = true) :=
  ⟨⟨_, rfl⟩, by decide, ends_exists (by decide)⟩

theorem test_witness_OnlyWritersWriteMemory :
    Instr.uread ≠ .pwrite ∧ Instr.uread ≠ .pflush ∧ Instr.uread ≠ .encode ∧ Instr.uread ≠ .decode ∧
    (∃ t, exec .uread (withArgs 0 1) = .next t) := ⟨by decide, by decide, by decide, by decide, ⟨_, rfl⟩⟩

theorem test_witness_StatusShowsAndClearsItsFields :
    State.reset.phase = .idle ∧ (4 ≤ 4 ∧ 7 < 8 ∧ 12 ≤ 12) ∧ (2 : Word).getLsbD 1 = true ∧ (0xFFFFFFFD : Word).getLsbD 1 = false := by decide

theorem test_witness_InterruptFollowsDoneAndEnable :
    State.reset.phase = .idle ∧ (2 : Word).getLsbD 1 = true ∧ (1 : Word).getLsbD 1 = false := by decide

theorem test_witness_CfgKeepsItsFields : State.reset.phase = .idle := rfl

theorem test_witness_OperandRegistersHoldWhatIsWritten : State.reset.phase = .idle := rfl

theorem test_witness_ReservedAccessesDoNothing :
    ((0x58 : BitVec 8).toNat % 4 = 0 ∧ 0x58 ≤ (0x58 : BitVec 8).toNat) ∧ ((0xFC : BitVec 8).toNat % 4 = 0 ∧ 0x58 ≤ (0xFC : BitVec 8).toNat) ∧
    ((0x14 : BitVec 8).toNat % 4 = 0 ∧ (0x00 : BitVec 8).toNat % 4 = 0 ∧ (0x10 : BitVec 8).toNat % 4 = 0 ∧ (0x20 : BitVec 8).toNat % 4 = 0) ∧
    ((0x38 : BitVec 8).toNat % 4 = 0 ∧ 0x38 ≤ (0x38 : BitVec 8).toNat ∧ 0x38 ≤ (0x54 : BitVec 8).toNat) := by decide

theorem test_witness_BusyReadsShowOnlyWhatTheyMay :
    (classifying 65).phase ≠ .idle ∧ (0x58 : BitVec 8).toNat % 4 = 0 ∧ 0x58 ≤ (0x58 : BitVec 8).toNat ∧ (0xFC : BitVec 8).toNat % 4 = 0 ∧
    12 ≤ 12 := by decide

theorem test_witness_ReadsChangeOnlyTheHostRecord :
    State.reset.phase = .idle ∧ (classifying 65).phase ≠ .idle ∧ (0x00 : BitVec 8).toNat % 4 = 0 ∧ (0xFC : BitVec 8).toNat % 4 = 0 := by
  decide

theorem test_witness_BusyWritesAreIgnored :
    (classifying 65).phase ≠ .idle ∧ (1 : Word).getLsbD 1 = false ∧ (2 : Word).getLsbD 1 = true := by decide

theorem test_witness_IdleResetGivesTheResetState :
    State.reset.phase = .idle ∧ (2 : Word).getLsbD 1 = true ∧ (3 : Word).getLsbD 1 = true := by decide

/-- The decoder about to write two bytes: `k` may be 0, 1 or 2. -/
theorem test_witness_BusyResetAbortsTheCommand :
    let s : State := { classifying 65 with phase := .decWrite, seq := [65, 66], targetLen := 2 }
    s.phase ≠ .idle ∧ s.mem.wf = true ∧ (2 : Word).getLsbD 1 = true ∧ s.stepBytes = 2 := by decide

theorem test_witness_HostReadsWhatItWrote :
    State.reset.phase = .idle ∧ State.reset.mem.wf = true ∧ ([1, 0, 2] : List Byte).length ≤ 2 ^ 32 := by decide

/-- The last byte written is the first of the SRC region; the last byte written is just below it. -/
theorem test_witness_HostMustKeepItsHandsOff :
    let s : State := { classifying 65 with srcAddr := 0x1000, srcLen := 1, dstAddr := 0x2000, targetLen := 1 }
    s.phase ≠ .idle ∧
    (∃ i < ([1, 2] : List Byte).length, s.inSrc (0x0FFF + BitVec.ofNat 32 i) = true ∨ s.inDst (0x0FFF + BitVec.ofNat 32 i) = true) ∧
    (∀ i < ([1, 2] : List Byte).length, s.inSrc (0x0FFE + BitVec.ofNat 32 i) = false ∧ s.inDst (0x0FFE + BitVec.ofNat 32 i) = false) ∧
    (∃ i < 2, s.inSrc (0x0FFF + BitVec.ofNat 32 i) = true) ∧
    ((∀ i < 2, s.inSrc (0x1FFF + BitVec.ofNat 32 i) = false) ∧ s.inDst (0x1FFF + BitVec.ofNat 32 0) = false ∧
      s.inDst (0x1FFF + BitVec.ofNat 32 1) = true) :=
  ⟨by decide, ⟨1, by decide, by decide⟩, by decide, ⟨1, by decide, by decide⟩, by decide⟩

/-- Reset, and a full table of the largest code width that every LZWC has: DICT_SIZE and CODE_WIDTH at the two ends of their range. -/
theorem test_witness_IdleReadsShowTheRegisters :
    State.reset.phase = .idle ∧ (State.reset.acfg.legal = true ∧ State.reset.dsize ≤ 2 ^ State.reset.acfg.maxWidth.toNat) ∧
    ({ State.reset with dict := List.replicate 3840 ⟨0, 0⟩ } : State).dsize = 2 ^ State.reset.acfg.maxWidth.toNat :=
  ⟨rfl, by decide, by decide +kernel⟩

theorem test_witness_RegisterAccessesAreAlignedWords :
    ((0x00 : BitVec 8).toNat % 4 = 0 ∧ (0xFC : BitVec 8).toNat % 4 = 0) ∧ ((0x01 : BitVec 8).toNat % 4 ≠ 0 ∧ (0xFF : BitVec 8).toNat % 4 ≠ 0) ∧
    (∀ d : Word, d = 0x100 ∨ d = 0xFFFFFFFF → 0x100 ≤ (Config.csrBase + d - Config.csrBase).toNat) := by
  refine ⟨by decide, by decide, fun d hd => ?_⟩
  rw [BitVec.add_comm, BitVec.add_sub_cancel]
  rcases hd with rfl | rfl <;> decide

end Sys2Proof.Tests
end

section
/-! PROOFS. Obligations of 10_state.md: the invariant along every step, the strings of the table, and the register block. -/

namespace Sys2Proof.Machine

/-! ### The invariant along a step (10_state.md R42)

A host access changes only fields that the invariant does not read, or clears DONE, or resets, or writes memory in canonical
form, or starts a command; `State.Inv.engineStep` has the rest. -/

/-- The invariant does not read the host's accesses still to be made. -/
theorem State.Inv.setHost {s : State} (h : s.Inv) (l : List HostEvent) : ({ s with host := l } : State).Inv :=
  ⟨h.legal, h.size, h.links, h.pad, h.mem, h.clean, h.work⟩

theorem State.Inv.observe {s : State} (h : s.Inv) (o : Observation) : (s.observe o).Inv :=
  ⟨h.legal, h.size, h.links, h.pad, h.mem, h.clean, h.work⟩

theorem State.Inv.drawn {s : State} (h : s.Inv) : s.drawn.Inv :=
  ⟨h.legal, h.size, h.links, h.pad, h.mem, h.clean, h.work⟩

/-- The invariant reads of memory only its canonical form. -/
theorem State.Inv.setMem {s : State} (h : s.Inv) {m : Memory} (hm : m.wf = true) : ({ s with mem := m } : State).Inv :=
  ⟨h.legal, h.size, h.links, h.pad, hm, h.clean, h.work⟩

/-- Clearing DONE keeps the invariant, which wants it clear while busy. -/
theorem State.Inv.clearDone {s : State} (h : s.Inv) : ({ s with done := false } : State).Inv :=
  ⟨h.legal, h.size, h.links, h.pad, h.mem, fun hb => ⟨rfl, (h.clean hb).2⟩, h.work⟩

/-- A reset gives an idle state that meets the invariant, whatever was there before (R41). -/
theorem State.resetTo_inv (s : State) {m : Memory} (hm : m.wf = true) : (s.resetTo m).Inv := by
  refine State.Sound.idle ⟨resetCfg_legal, ?_, ?_, fun _ _ => BitVec.getLsbD_zero, hm⟩ rfl
  · show (256 : Nat) ≤ 2 ^ 12
    decide
  · intro n e he
    exact absurd he (by simp [State.resetTo, State.reset])

theorem State.Inv.doReset {s : State} (h : s.Inv) : s.doReset.Inv := by
  rcases State.doReset_cases s with ⟨-, he⟩ | ⟨-, k, -, he⟩ <;> rw [he]
  · exact State.resetTo_inv s h.mem
  · exact State.resetTo_inv s.drawn (State.partialMem_wf h.mem k)

theorem State.Inv.writeCtrl {s : State} (h : s.Inv) (v : Word) : (s.writeCtrl v).Inv := by
  unfold State.writeCtrl
  cases v.getLsbD 1 with
  | true => exact h.doReset
  | false => exact ⟨h.legal, h.size, h.links, h.pad, h.mem, h.clean, h.work⟩

theorem State.Inv.csrStore {s : State} (h : s.Inv) (r : Csr) (v : Word) : (s.csrStore r v).Inv := by
  rcases State.csrStore_cases s r v with he | he | ⟨-, c, a0, a1, sa, sl, da, dc, tl, he⟩ <;> rw [he]
  · exact h
  · exact h.clearDone
  · exact ⟨h.legal, h.size, h.links, h.pad, h.mem, h.clean, h.work⟩

/-- The acceptance of a word that decodes, which need not be written as its command's own word (R75). -/
theorem State.Inv.acceptWord {s : State} (h : s.Inv) {w : Word} {i : Instr} (hd : decode w = .ok i) :
    (s.accept w (firstPhase i)).Inv := by
  refine State.Sound.inv ⟨h.legal, h.size, h.links, h.pad, h.mem⟩ ⟨rfl, rfl, rfl⟩ ?_
  unfold State.WorkOk
  cases i with
  | encode | decode => trivial
  | _ => exact ⟨_, hd, rfl⟩

/-- Whatever `exec` answers meets the invariant: it is an idle state that engine steps reach from the accepted command. -/
theorem State.Inv.exec {s t : State} (h : s.Inv) {i : Instr} (he : exec i s = .next t) : t.Inv := by
  rcases exec_cases i s with ⟨-, hx⟩ | ⟨-, n, -, hx⟩ | ⟨-, -, hx⟩ <;> rw [hx] at he <;> cases he
  · exact h
  · exact (h.accept i).engineSteps n

theorem State.Inv.writeCmd {s t : State} (h : s.Inv) {w : Word} (he : s.writeCmd w = .next t) : t.Inv := by
  rcases State.writeCmd_cases s w with ⟨-, hx⟩ | ⟨-, r, -, hx⟩ | ⟨-, i, -, -, hx⟩ | ⟨-, i, hd, -, hx⟩ <;> rw [hx] at he
  · cases he
    exact h
  · cases he
    exact State.Sound.raise (s := s.accept w .exec) ⟨h.legal, h.size, h.links, h.pad, h.mem⟩ _
  · exact h.exec he
  · cases he
    exact h.acceptWord hd

theorem State.Inv.csrWrite {s t : State} (h : s.Inv) {off : BitVec 8} {v : Word} (he : s.csrWrite off v = .next t) :
    t.Inv := by
  rcases State.csrWrite_cases s off v with ⟨-, hx⟩ | ⟨-, hx⟩ | ⟨-, hx⟩ | ⟨r, -, -, -, hx⟩ <;> rw [hx] at he
  · cases he
    exact h
  · cases he
    exact h.writeCtrl v
  · exact h.writeCmd he
  · cases he
    exact h.csrStore r v

theorem State.Inv.csrRead {s : State} (h : s.Inv) (off : BitVec 8) : (s.csrRead off).Inv := by
  unfold State.csrRead
  cases s.busy with
  | true => exact h.drawn.observe _
  | false => exact h.observe _

theorem State.Inv.portWrite {s t : State} (h : s.Inv) {off : BitVec 8} {v : Word} (he : s.portWrite off v = .next t) :
    t.Inv := by
  by_cases ha : off.toNat % 4 = 0
  · exact h.csrWrite (State.portWrite_aligned ha ▸ he)
  · rw [State.portWrite_misaligned ha] at he
    cases he

theorem State.Inv.portRead {s t : State} (h : s.Inv) {off : BitVec 8} (he : s.portRead off = .next t) : t.Inv := by
  by_cases ha : off.toNat % 4 = 0
  · rw [State.portRead_aligned ha] at he
    cases he
    exact h.csrRead off
  · rw [State.portRead_misaligned ha] at he
    cases he

theorem State.Inv.hostMemWrite {s t : State} (h : s.Inv) {a : Word} {l : List Byte} (he : s.hostMemWrite a l = .next t) :
    t.Inv := by
  have hw : (s.memWriteList a l).Inv := by
    have hm := State.memWriteList_wf a l h.mem
    obtain ⟨m, hf⟩ := State.memWriteList_frame l a s
    rw [hf] at hm ⊢
    exact h.setMem hm
  unfold State.hostMemWrite at he
  rcases Bool.eq_false_or_eq_true (s.busy && anyByte (fun x => s.inSrc x || s.inDst x) a l.length) with hb | hb <;>
    rw [hb] at he <;> cases he
  exact hw

theorem State.Inv.hostMemRead {s t : State} (h : s.Inv) {a : Word} {n : Nat} (he : s.hostMemRead a n = .next t) : t.Inv := by
  unfold State.hostMemRead at he
  cases hb : s.busy <;> rw [hb] at he
  case false =>
    cases he
    exact h.observe _
  case true =>
    cases hin : anyByte s.inSrc a n <;> rw [hin] at he <;> cases he
    exact h.drawn.observe _

/-- Every host access that is a step keeps the invariant. -/
theorem State.Inv.hostAccess {s t : State} (h : s.Inv) {op : HostOp} (he : s.hostAccess op = .next t) : t.Inv := by
  unfold State.hostAccess at he
  cases op with
  | csrWrite off v => exact h.portWrite he
  | csrRead off => exact h.portRead he
  | busWrite a v =>
    cases hb : busOffset a with
    | none => simp only [hb] at he; cases he
    | some off => exact h.portWrite (by simpa only [hb] using he)
  | busRead a =>
    cases hb : busOffset a with
    | none => simp only [hb] at he; cases he
    | some off => exact h.portRead (by simpa only [hb] using he)
  | csrNarrow off n => cases he
  | memWrite a l => exact h.hostMemWrite he
  | memRead a n => exact h.hostMemRead he
  | wait =>
    cases he
    exact h.csrRead _
  | hardReset =>
    cases he
    exact h.doReset

/-- A step keeps the invariant: it is an engine step or one host access (60_exceptions.md R174). -/
theorem State.Inv.step {s t : State} (h : s.Inv) (he : step s = .next t) : t.Inv := by
  rcases step_cases s with ⟨l, hx⟩ | ⟨ev, rest, -, hx⟩ <;> rw [hx] at he
  · cases he
    exact (h.setHost l).engineStep
  · exact (h.setHost rest).hostAccess he

/-- Settles O9: a step is an engine step or a host access, and each keeps the invariant. -/
theorem everyStepKeepsTheInvariant : Obligations.EveryStepKeepsTheInvariant :=
  fun _ _ h he => h.step he

/-- Settles O10: the reset state is a reset of itself with empty memory. -/
theorem resetMeetsTheInvariant : Obligations.ResetMeetsTheInvariant :=
  State.resetTo_inv State.reset State.reset_wf

/-! ### The walk of expansion (45_decoder.md R140) -/

/-- A singleton ends the walk, whatever fuel is left. -/
theorem State.walk_singleton (s : State) {k : Nat} (hk : k < 256) (out : List Byte) (fuel : Nat) :
    s.walk k out fuel = some (BitVec.ofNat 8 k :: out) := by
  cases fuel <;> simp only [State.walk, if_pos hk]

/-- An entry puts its symbol in front of what is collected and goes on at the code it links to. -/
theorem State.walk_entry {s : State} {k : Nat} {e : Entry} (he : s.entry? k = some e) (out : List Byte) (fuel : Nat) :
    s.walk k out (fuel + 1) = s.walk e.pre.toNat (e.sym :: out) fuel := by
  have hk : ¬ k < 256 := by
    have := (State.entry?_eq_some he).1
    have := CfgFields.firstFree_cases s.acfg
    omega
  simp only [State.walk, if_neg hk, he]

/-- What is already collected only follows what the walk still finds. -/
theorem State.walk_append (s : State) : ∀ (fuel k : Nat) (out : List Byte),
    s.walk k out fuel = (s.walk k [] fuel).map (· ++ out)
  | 0, k, out => by
    unfold State.walk
    split <;> rfl
  | fuel + 1, k, out => by
    unfold State.walk
    split
    · rfl
    · cases s.entry? k with
      | none => rfl
      | some e =>
        dsimp only
        rw [State.walk_append s fuel _ (e.sym :: out), State.walk_append s fuel _ [e.sym], Option.map_map]
        congr 1
        funext l
        simp

/-- More fuel does not change a string that was found. -/
theorem State.walk_succ {s : State} : ∀ {fuel k : Nat} {out str : List Byte},
    s.walk k out fuel = some str → s.walk k out (fuel + 1) = some str
  | 0, k, out, str, h => by
    by_cases hk : k < 256
    · rw [State.walk_singleton s hk] at h ⊢
      exact h
    · simp only [State.walk, if_neg hk] at h
      cases h
  | fuel + 1, k, out, str, h => by
    by_cases hk : k < 256
    · rw [State.walk_singleton s hk] at h ⊢
      exact h
    · cases he : s.entry? k with
      | none =>
        simp only [State.walk, if_neg hk, he] at h
        cases h
      | some e =>
        rw [State.walk_entry he] at h ⊢
        exact State.walk_succ h

/-- An allocated code from FIRST_FREE on has an entry. -/
theorem State.exists_entry {s : State} {k : Nat} (h1 : s.acfg.firstFree ≤ k) (h2 : k < s.dsize) :
    ∃ e, s.entry? k = some e := by
  unfold State.dsize at h2
  have hlt : k - s.acfg.firstFree < s.dict.length := by omega
  exact ⟨s.dict[k - s.acfg.firstFree], by
    rw [State.entry?, if_neg (by omega), List.getElem?_eq_getElem hlt]⟩

/-- An entry links to an earlier code that is allocated and not reserved (R42 item 2). -/
theorem State.LinksBack.pre_isEntry {s : State} (hl : s.LinksBack) {k : Nat} {e : Entry} (he : s.entry? k = some e) :
    e.pre.toNat < k ∧ s.isEntry e.pre.toNat = true := by
  obtain ⟨h1, h2, hd⟩ := State.entry?_eq_some he
  obtain ⟨hlt, hres⟩ := hl _ _ hd
  rw [State.isEntry_iff]
  omega

/-- With backward links, a code walks back to a singleton in as many links as it lies above FIRST_FREE (R42 item 3). -/
theorem State.walk_finds {s : State} (hl : s.LinksBack) : ∀ (fuel k : Nat), s.isEntry k = true →
    k < s.acfg.firstFree + fuel →
    ∃ str, s.walk k [] fuel = some str ∧ 1 ≤ str.length ∧ str.length ≤ (k + 1 - s.acfg.firstFree) + 1 := by
  intro fuel
  induction fuel with
  | zero =>
    intro k hk hlt
    have hsmall : k < 256 := by
      rw [State.isEntry_iff] at hk
      omega
    exact ⟨_, State.walk_singleton s hsmall [] 0, by simp⟩
  | succ fuel ih =>
    intro k hk hlt
    by_cases hsmall : k < 256
    · exact ⟨_, State.walk_singleton s hsmall [] _, by simp⟩
    · rw [State.isEntry_iff] at hk
      have hff : s.acfg.firstFree ≤ k ∧ k < s.dsize := by omega
      obtain ⟨e, he⟩ := State.exists_entry hff.1 hff.2
      obtain ⟨hback, hpre⟩ := hl.pre_isEntry he
      obtain ⟨front, hfront, -, hlen⟩ := ih e.pre.toNat hpre (by omega)
      refine ⟨front ++ [e.sym], ?_, by simp, ?_⟩
      · rw [State.walk_entry he, State.walk_append, hfront]
        rfl
      · rw [List.length_append, List.length_singleton]
        omega

theorem State.expand_of_walk {s : State} {c : Code} {str : List Byte} (h : s.walk c.toNat [] s.acfg.maxSize = some str) :
    s.expand c = .ok str := by
  unfold State.expand
  rw [h]

/-- Under the invariant the walk of an allocated, non-reserved code has fuel enough. -/
theorem State.Inv.walk_finds {s : State} (h : s.Inv) {k : Nat} (hk : s.isEntry k = true) :
    ∃ str, s.walk k [] s.acfg.maxSize = some str ∧ 1 ≤ str.length ∧
      str.length ≤ (k + 1 - s.acfg.firstFree) + 1 := by
  refine State.walk_finds h.links _ k hk ?_
  rw [State.isEntry_iff] at hk
  have := h.size
  have := CfgFields.firstFree_cases s.acfg
  omega

/-- An entry's string is that of the code it links to, and then its symbol (R140). -/
theorem State.Inv.expand_entry {s : State} (h : s.Inv) {c : Code} {e : Entry} (he : s.entry? c.toNat = some e) :
    ∃ front, s.expand e.pre = .ok front ∧ s.expand c = .ok (front ++ [e.sym]) := by
  obtain ⟨hff, hsize, -⟩ := State.entry?_eq_some he
  obtain ⟨str, hstr, -⟩ := h.walk_finds ((State.isEntry_iff s _).2 (.inr ⟨hff, hsize⟩))
  obtain ⟨front, hfront, -⟩ := h.walk_finds (h.links.pre_isEntry he).2
  have heq : some (front ++ [e.sym]) = some str := by
    rw [← State.walk_succ hstr, State.walk_entry he, State.walk_append, hfront]
    rfl
  refine ⟨front, State.expand_of_walk hfront, State.expand_of_walk ?_⟩
  rw [heq, hstr]

/-- Settles O11: the walk ends because links go back, and it ends at a singleton because no link names a reserved code. -/
theorem everyEntryHasAShortString : Obligations.EveryEntryHasAShortString := by
  intro s c h hc
  obtain ⟨str, hwalk, hpos, hlen⟩ := h.walk_finds hc
  have hexp : s.expand c = .ok str := State.expand_of_walk hwalk
  refine ⟨str, hexp, hpos, ?_, ?_, ?_⟩
  · intro hsmall
    rw [State.walk_singleton s (by omega)] at hwalk
    cases hwalk
    rw [BitVec.ofNat_toNat]
  · intro hbig
    have : s.acfg.firstFree ≤ c.toNat := by
      rw [State.isEntry_iff] at hc
      omega
    omega
  · intro e he
    obtain ⟨front, hfront, hstr⟩ := h.expand_entry he
    rw [hexp] at hstr
    exact ⟨front, hfront, Except.ok.inj hstr⟩

/-! ### What writes ACFG and the table (10_state.md R27, R29) -/

/-- CFG stays, and ACFG stays or takes CFG: nothing else is ever latched (R27). -/
def LatchesOnlyCfg (s t : State) : Prop := t.cfg = s.cfg ∧ (t.acfg = s.acfg ∨ t.acfg = s.cfg)

/-- CFG, ACFG and the table all stay. -/
def KeepsTable (s t : State) : Prop := t.cfg = s.cfg ∧ SameTable s t

theorem KeepsTable.refl (s : State) : KeepsTable s s := ⟨.refl _, .refl _, .refl _⟩

theorem KeepsTable.latches {s t : State} (h : KeepsTable s t) : LatchesOnlyCfg s t := ⟨h.1, .inl h.2.1⟩

theorem LatchesOnlyCfg.refl (s : State) : LatchesOnlyCfg s s := (KeepsTable.refl s).latches

theorem LatchesOnlyCfg.trans {s t u : State} (h : LatchesOnlyCfg s t) (h' : LatchesOnlyCfg t u) : LatchesOnlyCfg s u := by
  obtain ⟨hcfg, hacfg⟩ := h
  obtain ⟨hcfg', hacfg'⟩ := h'
  refine ⟨hcfg'.trans hcfg, ?_⟩
  rcases hacfg' with h1 | h1 <;> rw [h1]
  · exact hacfg
  · exact .inr hcfg

/-- A one-step command keeps the table if its work does: neither ending touches it (R76, R168). -/
theorem KeepsTable.finish {s : State} {r : Except Err State} (h : ∀ t, r = .ok t → KeepsTable s t) :
    KeepsTable s (s.finish r) := by
  rcases State.finish_cases s r with ⟨t, ht, hf⟩ | ⟨e, -, hf⟩ <;> rw [hf]
  · exact h t ht
  · exact KeepsTable.refl _

theorem LatchesOnlyCfg.goOn {s : State} {p : Phase} {r : Except Err State} (h : ∀ t, r = .ok t → LatchesOnlyCfg s t) :
    LatchesOnlyCfg s (s.goOn p r) := by
  rcases State.goOn_cases s p r with ⟨t, ht, hf⟩ | ⟨e, -, hf⟩ <;> rw [hf]
  · exact h t ht
  · exact LatchesOnlyCfg.refl _

theorem KeepsTable.packWrite {s t : State} {v : Code} {w : Nat} (h : s.packWrite v w = .ok t) : KeepsTable s t := by
  obtain ⟨-, -, m, a, n, o, rfl⟩ := State.packWrite_ok h
  exact KeepsTable.refl _

theorem KeepsTable.packFlush {s t : State} (h : s.packFlush = .ok t) : KeepsTable s t := by
  rcases State.packFlush_ok h with ⟨-, rfl⟩ | ⟨-, -, rfl⟩ <;> exact KeepsTable.refl _

theorem KeepsTable.unpackRead {s t : State} {v : Code} {w : Nat} (h : s.unpackRead w = .ok (v, t)) : KeepsTable s t := by
  obtain ⟨-, -, p, q, rfl⟩ := State.unpackRead_ok h
  exact KeepsTable.refl _

/-- The one step of a primitive command that is neither DINIT nor DINSERT keeps the table. -/
theorem State.execStep_keepsTable {s : State} {i : Instr} (hd : decode s.cmd = .ok i) (h1 : i ≠ .dinit) (h2 : i ≠ .dinsert) :
    KeepsTable s s.execStep := by
  unfold State.execStep
  rw [hd]
  cases i with
  | dinit => exact absurd rfl h1
  | dinsert => exact absurd rfl h2
  | nop | pinit | uinit | encode | decode => exact KeepsTable.refl _
  | dlookup =>
    simp only [State.dlookupBody]
    split <;> exact KeepsTable.refl _
  | dread =>
    refine KeepsTable.finish fun t ht => ?_
    split at ht
    · cases ht
      exact KeepsTable.refl _
    · split at ht <;> cases ht
      exact KeepsTable.refl _
  | pwrite =>
    refine KeepsTable.finish fun t ht => ?_
    split at ht
    · cases ht
    · exact KeepsTable.packWrite ht
  | pflush => exact KeepsTable.finish fun t ht => KeepsTable.packFlush ht
  | uread =>
    refine KeepsTable.finish fun t ht => ?_
    split at ht
    · cases ht
    · split at ht
      · cases ht
      · rename_i hr
        cases ht
        have hkeep := KeepsTable.unpackRead hr
        exact hkeep

/-- DINSERT leaves CFG and ACFG alone (R95). -/
theorem State.dinsertBody_cfg (s : State) : s.dinsertBody.cfg = s.cfg ∧ s.dinsertBody.acfg = s.acfg := by
  unfold State.dinsertBody
  split
  · exact ⟨rfl, rfl⟩
  · split <;> exact ⟨rfl, rfl⟩

/-- DINIT latches CFG or, with an illegal CFG, leaves ACFG alone (R87, R93). -/
theorem State.dinitBody_latches (s : State) : LatchesOnlyCfg s s.dinitBody := by
  unfold State.dinitBody
  split
  · exact LatchesOnlyCfg.refl _
  · exact ⟨rfl, .inr rfl⟩

theorem State.execStep_dinit {s : State} (hd : decode s.cmd = .ok .dinit) : s.execStep = s.dinitBody := by
  rw [State.execStep, hd]

theorem State.execStep_dinsert {s : State} (hd : decode s.cmd = .ok .dinsert) : s.execStep = s.dinsertBody := by
  rw [State.execStep, hd]

theorem State.execStep_latches (s : State) : LatchesOnlyCfg s s.execStep := by
  cases hd : decode s.cmd with
  | error r =>
    unfold State.execStep
    rw [hd]
    exact LatchesOnlyCfg.refl _
  | ok i =>
    by_cases h1 : i = .dinit
    · subst h1
      rw [State.execStep_dinit hd]
      exact s.dinitBody_latches
    · by_cases h2 : i = .dinsert
      · subst h2
        rw [State.execStep_dinsert hd]
        exact ⟨s.dinsertBody_cfg.1, .inl s.dinsertBody_cfg.2⟩
      · exact (State.execStep_keepsTable hd h1 h2).latches

theorem State.growTable_latches {s t : State} (h : s.growTable = .ok t) : LatchesOnlyCfg s t := by
  unfold State.growTable at h
  split at h
  · cases h
    exact ⟨rfl, .inl rfl⟩
  · split at h
    · split at h <;> cases h
      rename_i u hu
      exact (KeepsTable.packWrite hu).latches
    · cases h
      exact ⟨rfl, .inl rfl⟩

theorem State.decInsert_latches (s : State) : LatchesOnlyCfg s s.decInsert := by
  unfold State.decInsert
  split <;> exact ⟨rfl, .inl rfl⟩

/-- One engine step latches nothing but CFG. -/
theorem State.engineStep_latches (s : State) : LatchesOnlyCfg s s.engineStep := by
  have same := LatchesOnlyCfg.refl s
  cases hp : s.phase with
  | idle => rw [State.engineStep_idle hp]; exact same
  | exec => rw [State.engineStep_exec hp]; exact s.execStep_latches
  | encStart =>
    rw [State.engineStep_encStart hp, State.encStartStep]
    split
    · exact same
    · exact ⟨rfl, .inr rfl⟩
  | encFirst => rw [State.engineStep_encFirst hp]; exact same
  | encNext =>
    rw [State.engineStep_encNext hp, State.encNextStep]
    split <;> exact same
  | encLookup =>
    rw [State.engineStep_encLookup hp, State.encLookupStep]
    split <;> exact same
  | encEmit =>
    rw [State.engineStep_encEmit hp]
    exact LatchesOnlyCfg.goOn fun t ht => (KeepsTable.packWrite ht).latches
  | encGrow =>
    rw [State.engineStep_encGrow hp]
    refine LatchesOnlyCfg.goOn fun t ht => ?_
    split at ht <;> cases ht
    rename_i u hu
    have hgrow := State.growTable_latches hu
    exact hgrow
  | encFinal =>
    rw [State.engineStep_encFinal hp]
    exact LatchesOnlyCfg.goOn fun t ht => (KeepsTable.packWrite ht).latches
  | encEnd =>
    rw [State.engineStep_encEnd hp]
    refine LatchesOnlyCfg.goOn fun t ht => ?_
    split at ht
    · exact (KeepsTable.packWrite ht).latches
    · cases ht
      exact same
  | encFlush =>
    rw [State.engineStep_encFlush hp]
    exact (KeepsTable.finish fun t ht => KeepsTable.packFlush ht).latches
  | decStart =>
    rw [State.engineStep_decStart hp, State.decStartStep]
    split
    · exact same
    · exact ⟨rfl, .inr rfl⟩
  | decTest =>
    rw [State.engineStep_decTest hp, State.decTestStep]
    split <;> exact same
  | decRead =>
    rw [State.engineStep_decRead hp, State.decReadStep]
    split
    · exact same
    · rename_i hr
      exact (KeepsTable.unpackRead hr).latches
  | decClassify =>
    rw [State.engineStep_decClassify hp, State.decClassifyStep]
    split
    · exact same
    · split
      · exact same
      · split
        · exact same
        · split <;> exact same
  | decWrite =>
    rw [State.engineStep_decWrite hp, State.decWriteStep]
    split
    · exact same
    · obtain ⟨m, o, hf⟩ := State.putBytes_frame s.seq s
      rw [hf]
      exact same
  | decGrow =>
    rw [State.engineStep_decGrow hp, State.decGrowStep]
    dsimp only
    split <;> exact s.decInsert_latches

theorem State.engineSteps_latches : ∀ (n : Nat) (s : State), LatchesOnlyCfg s (s.engineSteps n)
  | 0, _ => LatchesOnlyCfg.refl _
  | n + 1, s => s.engineStep_latches.trans (State.engineSteps_latches n s.engineStep)

/-- Whatever command runs, ACFG is as before or equal to CFG (R27). -/
theorem exec_latches {i : Instr} {s t : State} (he : exec i s = .next t) : LatchesOnlyCfg s t := by
  rcases exec_cases i s with ⟨-, hx⟩ | ⟨-, n, -, hx⟩ | ⟨-, -, hx⟩ <;> rw [hx] at he <;> cases he
  · exact LatchesOnlyCfg.refl _
  · exact State.engineSteps_latches n (s.accept (encode i) (firstPhase i))

/-- A primitive command answers its one engine step from the accepted state, or, while busy, the same state (R40, R77). -/
theorem exec_execStep {i : Instr} {s t : State} (hi : firstPhase i = .exec) (he : exec i s = .next t) :
    t = s ∨ t = (s.accept (encode i) .exec).execStep := by
  by_cases hidle : s.phase = .idle
  · rw [exec_primitive hidle hi, State.engineStep_exec (State.accept_phase _ _ _)] at he
    cases he
    exact .inr rfl
  · rw [exec_busy hidle] at he
    cases he
    exact .inl rfl

/-- Settles O43: only ENC_START, DEC_START and DINIT latch, and a primitive other than DINIT and DINSERT keeps the table. -/
theorem onlyInitialisationWritesAcfg : Obligations.OnlyInitialisationWritesAcfg := by
  intro i s t he
  refine ⟨fun h1 h2 h3 => ?_, (exec_latches he).2⟩
  have hi : firstPhase i = .exec := by
    cases i with
    | dinit | encode | decode => contradiction
    | _ => rfl
  rcases exec_execStep hi he with rfl | rfl
  · exact ⟨rfl, fun _ => rfl⟩
  have hd : decode (s.accept (encode i) .exec).cmd = .ok i := decode_encode i
  by_cases h4 : i = .dinsert
  · subst h4
    rw [State.execStep_dinsert hd]
    exact ⟨(State.dinsertBody_cfg _).2, fun h => absurd rfl h⟩
  · obtain ⟨-, hacfg, hdict⟩ := State.execStep_keepsTable hd h1 h4
    exact ⟨hacfg, fun _ => hdict⟩

/-! ### Words made of fields (10_state.md R24 to R34) -/

/-- A flag at place `n` of a word shows there and nowhere else. -/
theorem getLsbD_flag (v : Bool) {n : Nat} (hn : n < 32) (k : Nat) :
    (((BitVec.ofBool v).setWidth 32 : Word) <<< n).getLsbD k = (decide (k = n) && v) := by
  rw [BitVec.getLsbD_shiftLeft, BitVec.getLsbD_setWidth, BitVec.getLsbD_ofBool]
  rcases Nat.lt_trichotomy k n with hk | rfl | hk
  · simp [hk, Nat.ne_of_lt hk]
  · simp [hn]
  · simp [Nat.ne_of_gt hk, Nat.sub_ne_zero_of_lt hk]

/-- STATUS bit by bit (R28). -/
theorem statusLayout_getLsbD (b d h f : Bool) (e : BitVec 4) (k : Nat) :
    (statusLayout b d h f e).getLsbD k =
      (decide (k = 0) && b || decide (k = 1) && d || decide (k = 2) && h || decide (k = 3) && f ||
        decide (8 ≤ k) && e.getLsbD (k - 8)) := by
  have hbusy : ((BitVec.ofBool b).setWidth 32 : Word).getLsbD k = (decide (k = 0) && b) := by
    simpa using getLsbD_flag b (n := 0) (by decide) k
  have herr : ((e.setWidth 32 : Word) <<< 8).getLsbD k = (decide (8 ≤ k) && e.getLsbD (k - 8)) := by
    rw [BitVec.getLsbD_shiftLeft, BitVec.getLsbD_setWidth]
    by_cases hk : k < 12
    · have h1 : k < 32 := by omega
      have h2 : k - 8 < 32 := by omega
      have h3 : (!decide (k < 8)) = decide (8 ≤ k) := by rw [← decide_not, decide_eq_decide, Nat.not_lt]
      simp [h1, h2, h3]
    · simp [BitVec.getLsbD_of_ge e (k - 8) (by omega)]
  simp only [statusLayout, BitVec.getLsbD_or, hbusy, herr, getLsbD_flag _ (show 1 < 32 by decide),
    getLsbD_flag _ (show 2 < 32 by decide), getLsbD_flag _ (show 3 < 32 by decide)]

/-- The fields of a word laid out as STATUS: four flags, the error code in bits 11:8, and 0 in every reserved bit (R23, R28). -/
theorem statusLayout_fields {w : Word} {b d h f : Bool} {e : BitVec 4} (hw : w = statusLayout b d h f e) :
    w.getLsbD 0 = b ∧ w.getLsbD 1 = d ∧ w.getLsbD 2 = h ∧ w.getLsbD 3 = f ∧ w.extractLsb' 8 4 = e ∧
    ∀ k : Nat, (4 ≤ k ∧ k < 8) ∨ 12 ≤ k → w.getLsbD k = false := by
  have hbit : ∀ k, w.getLsbD k = _ := fun k => hw ▸ statusLayout_getLsbD b d h f e k
  refine ⟨by rw [hbit]; simp, by rw [hbit]; simp, by rw [hbit]; simp, by rw [hbit]; simp, ?_, fun k hk => ?_⟩
  · refine BitVec.eq_of_getLsbD_eq fun i hi => ?_
    have hne : 8 + i ≠ 0 ∧ 8 + i ≠ 1 ∧ 8 + i ≠ 2 ∧ 8 + i ≠ 3 := by omega
    rw [BitVec.getLsbD_extractLsb', hbit]
    simp [hi, hne]
  · have hne : k ≠ 0 ∧ k ≠ 1 ∧ k ≠ 2 ∧ k ≠ 3 := by omega
    rw [hbit]
    rcases hk with hk | hk
    · simp [hne, hk]
    · simp [hne, BitVec.getLsbD_of_ge e (k - 8) (by omega)]

/-- A field placed above another one adds to it. -/
theorem toNat_or_shiftLeft {x y : Word} {n : Nat} (hx : x.toNat < 2 ^ n) (hy : y.toNat * 2 ^ n < 2 ^ 32) :
    (x ||| (y <<< n)).toNat = x.toNat + y.toNat * 2 ^ n := by
  rw [BitVec.toNat_or, BitVec.toNat_shiftLeft, Nat.shiftLeft_eq, Nat.mod_eq_of_lt hy, Nat.or_comm, ← Nat.shiftLeft_eq,
    ← Nat.shiftLeft_add_eq_or_of_lt hx, Nat.shiftLeft_eq, Nat.add_comm]

/-- A configuration word is the sum of its fields at their places (R26, R27). -/
theorem CfgFields.toWord_toNat (c : CfgFields) :
    c.toWord.toNat = c.maxWidth.toNat + c.initWidth.toNat * 2 ^ 8 + (if c.ctrl = true then 2 ^ 16 else 0) := by
  have h1 := c.maxWidth.isLt
  have h2 := c.initWidth.isLt
  have hlow : (c.maxWidth.setWidth 32 ||| (c.initWidth.setWidth 32 <<< 8)).toNat =
      c.maxWidth.toNat + c.initWidth.toNat * 2 ^ 8 := by
    rw [toNat_or_shiftLeft] <;> simp <;> omega
  unfold CfgFields.toWord
  cases c.ctrl <;> rw [toNat_or_shiftLeft (by omega) (by decide), hlow] <;> simp

/-- Writing a word to CFG and reading it back clears the reserved bits (R23, R26). -/
theorem CfgFields.toWord_ofWord (v : Word) : (CfgFields.ofWord v).toWord = v &&& 0x00011F1F := by
  refine BitVec.eq_of_getLsbD_eq fun i hi => ?_
  unfold CfgFields.toWord CfgFields.ofWord
  rw [BitVec.getLsbD_or, getLsbD_flag _ (by decide)]
  interval_cases i <;> simp

/-- ID shows P_MAXW in its low byte (R24). -/
theorem idWord_toNat : idWord.toNat = 0x4C5A0100 + Config.pMaxw := by
  have hb := pMaxw_bounds
  have hp : (BitVec.ofNat 32 Config.pMaxw).toNat = Config.pMaxw := by
    rw [BitVec.toNat_ofNat]
    omega
  unfold idWord
  rw [show 0x4C5A0100#32 = 0x4C5A01#32 <<< 8 from rfl, BitVec.or_comm, toNat_or_shiftLeft (by omega) (by decide), hp]
  exact Nat.add_comm _ _

/-- PACK_STATE is PNB above PACC (R34). -/
theorem State.packState_toNat (s : State) : s.packState.toNat = s.pnb.toNat * 2 ^ 8 + s.pacc.toNat := by
  have h1 := s.pnb.isLt
  have h2 := s.pacc.isLt
  unfold State.packState
  rw [BitVec.or_comm, toNat_or_shiftLeft] <;> simp <;> omega

/-- DICT_SIZE has room for the size of every legal table (R30). -/
theorem State.dictSizeWord_toNat {s : State} (hl : s.acfg.legal = true) (hs : s.dsize ≤ s.acfg.maxSize) :
    s.dictSizeWord.toNat = s.dsize := by
  have := CfgFields.maxSize_bounds hl
  unfold State.dictSizeWord
  rw [BitVec.toNat_setWidth, BitVec.toNat_ofNat]
  omega

/-- CODE_WIDTH has room for every width of a legal configuration (R30, R85). -/
theorem State.codeWidthWord_toNat {s : State} (hl : s.acfg.legal = true) :
    s.codeWidthWord.toNat = s.acfg.widthOf s.dsize := by
  have := CfgFields.widthOf_bounds hl s.dsize
  unfold State.codeWidthWord
  rw [BitVec.toNat_setWidth, BitVec.toNat_ofNat]
  omega

/-! ### Reads (10_state.md R22 to R37, R39) -/

/-- A stored register reads the same idle and busy if R39 lets a busy read show it. -/
theorem State.csrValue_stored {s : State} {off : BitVec 8} {r : Csr} (hr : csrAt off = some r)
    (hb : s.csrBusy (Config.busyValue s.draws) r = s.csrIdle r) : s.csrValue off = s.csrIdle r := by
  by_cases h : s.phase = .idle
  · exact State.csrValue_idle h hr
  · exact (State.csrValue_busy h hr).trans hb

theorem setWidth_ofBool (v : Bool) : ((BitVec.ofBool v).setWidth 32 : Word) = if v = true then 1 else 0 := by
  cases v <;> rfl

/-- Settles O59: each offset names its register, and a word made of fields is their sum. -/
theorem idleReadsShowTheRegisters : Obligations.IdleReadsShowTheRegisters := by
  intro s h
  have read : ∀ {off : BitVec 8} (r : Csr), csrAt off = some r → s.csrValue off = s.csrIdle r :=
    fun _ hr => State.csrValue_idle h hr
  have hsize : s.csrValue 0x38 = s.dictSizeWord := read .dictSize rfl
  refine ⟨?_, (read .ctrl rfl).trans (setWidth_ofBool s.ie), ?_, ?_, read .arg0 rfl, read .arg1 rfl, read .res rfl,
    read .srcAddr rfl, read .srcLen rfl, read .dstAddr rfl, read .dstCap rfl, read .targetLen rfl, read .outLen rfl, ?_,
    read .srcPos rfl, ?_, read .codeCount rfl, read .errInfo rfl, fun hl hs => ⟨?_, ?_⟩⟩
  · rw [read .id rfl]
    exact idWord_toNat
  · rw [read .cfg rfl]
    exact s.cfg.toWord_toNat
  · rw [read .acfg rfl]
    exact s.acfg.toWord_toNat
  · rw [read .packState rfl]
    exact s.packState_toNat
  · rw [read .srcBit rfl]
    exact BitVec.toNat_setWidth_of_le (by decide)
  · rw [hsize, State.dictSizeWord_toNat hl hs, State.dsize, CfgFields.firstFree, cond_eq_ite]
  · rw [hsize, State.dictSizeWord_toNat hl hs, read .codeWidth rfl]
    exact State.codeWidthWord_toNat hl

/-- Settles O46: the reset state is one closed value, so its reads compute; ID alone holds a constant with no body. -/
theorem registersReadTheirResetValues : Obligations.RegistersReadTheirResetValues := by
  refine ⟨rfl, ?_⟩
  decide

/-! ### Writes (10_state.md R22, R23, R28, R31, R32, R40) -/

theorem State.setOperand_idle {s t : State} (h : s.phase = .idle) : s.setOperand t = t := by
  rw [State.setOperand, State.busy_eq_false h, cond_false]

theorem State.setOperand_busy {s t : State} (h : s.phase ≠ .idle) : s.setOperand t = s := by
  rw [State.setOperand, State.busy_eq_true h, cond_true]

/-- A write of STATUS, idle or busy, clears DONE by a 1 in bit 1 (R28, R40). -/
theorem State.csrWrite_status (s : State) (v : Word) :
    s.csrWrite 0x08 v = .next (if v.getLsbD 1 = true then { s with done := false } else s) := by
  show Host.Outcome.next (s.writeStatus v) = _
  rw [State.writeStatus, cond_eq_ite]

/-- Settles O47: the word is R28's layout of the stored fields, and BUSY is clear because the engine is idle. -/
theorem statusShowsAndClearsItsFields : Obligations.StatusShowsAndClearsItsFields := by
  intro s v
  refine ⟨fun h => ?_, s.csrWrite_status v⟩
  have hread : s.csrValue 0x08 = statusLayout false s.done s.hit s.isFull (errField s.err) := by
    rw [State.csrValue_idle h (r := .status) rfl, State.csrIdle, State.statusWord, State.busy_eq_false h]
  obtain ⟨hbusy, hdone, hhit, hfull, herr, hres⟩ := statusLayout_fields hread
  have hcode : ∀ e, s.err = e → (s.csrValue 0x08).extractLsb' 8 4 = errField e := fun _ he => he ▸ herr
  exact ⟨hbusy, hdone, hhit, by rw [hfull, State.isFull_iff], hcode _, hcode _, hcode _, hcode _, hcode _, hcode _, hcode _,
    hres⟩

/-- A write of CFG or an operand register while idle is stored (R26, R31, R32). -/
theorem State.csrWrite_operand_idle {s t : State} (h : s.phase = .idle) {off : BitVec 8} {v : Word}
    (hw : s.csrWrite off v = .next (s.setOperand t)) : s.csrWrite off v = .next t := by
  rw [hw, State.setOperand_idle h]

/-- A write of CFG or an operand register while busy is ignored (R40). -/
theorem State.csrWrite_operand_busy {s t : State} (h : s.phase ≠ .idle) {off : BitVec 8} {v : Word}
    (hw : s.csrWrite off v = .next (s.setOperand t)) : s.csrWrite off v = .next s := by
  rw [hw, State.setOperand_busy h]

/-- Settles O49: CFG keeps the three fields of the word written. -/
theorem cfgKeepsItsFields : Obligations.CfgKeepsItsFields := by
  intro s v h
  refine ⟨CfgFields.ofWord v, ?_, rfl, rfl, rfl, ?_⟩
  · exact State.csrWrite_operand_idle h rfl
  · rw [State.csrValue_stored (r := .cfg) rfl rfl]
    exact CfgFields.toWord_ofWord v

/-- Settles O50: each offset names its own register, which an idle engine lets the host write. -/
theorem operandRegistersHoldWhatIsWritten : Obligations.OperandRegistersHoldWhatIsWritten := by
  intro s v h
  have write : ∀ {off : BitVec 8} {t : State}, s.csrWrite off v = .next (s.setOperand t) → s.csrWrite off v = .next t :=
    State.csrWrite_operand_idle h
  have read : ∀ {off : BitVec 8} {t : State} (r : Csr), csrAt off = some r →
      t.csrBusy (Config.busyValue t.draws) r = t.csrIdle r → t.csrValue off = t.csrIdle r :=
    fun _ hr hb => State.csrValue_stored hr hb
  exact ⟨⟨write rfl, read .arg0 rfl rfl⟩, ⟨write rfl, read .arg1 rfl rfl⟩, ⟨write rfl, read .srcAddr rfl rfl⟩,
    ⟨write rfl, read .srcLen rfl rfl⟩, ⟨write rfl, read .dstAddr rfl rfl⟩, ⟨write rfl, read .dstCap rfl rfl⟩,
    ⟨write rfl, read .targetLen rfl rfl⟩⟩

/-- The registers that ignore writes (R23). -/
def Csr.isReadOnly (r : Csr) : Bool :=
  match r with
  | .id | .acfg | .res | .dictSize | .codeWidth | .outLen | .packState | .srcPos | .srcBit | .codeCount | .errInfo => true
  | .ctrl | .status | .cfg | .cmd | .arg0 | .arg1 | .srcAddr | .srcLen | .dstAddr | .dstCap | .targetLen => false

theorem State.csrStore_readOnly {s : State} {r : Csr} {v : Word} (h : r.isReadOnly = true) : s.csrStore r v = s := by
  cases r with
  | status | cfg | arg0 | arg1 | srcAddr | srcLen | dstAddr | dstCap | targetLen => cases h
  | _ => rfl

/-- A write at an offset that names a read-only register, or none, is ignored (R23). -/
theorem State.csrWrite_readOnly {s : State} {off : BitVec 8} {v : Word} (h : ∀ r ∈ csrAt off, r.isReadOnly = true) :
    s.csrWrite off v = .next s := by
  rcases State.csrWrite_cases s off v with ⟨-, hx⟩ | ⟨hr, -⟩ | ⟨hr, -⟩ | ⟨r, hr, -, -, hx⟩
  · exact hx
  · exact absurd (h _ hr) (by decide)
  · exact absurd (h _ hr) (by decide)
  · rw [hx, State.csrStore_readOnly (h r hr)]

/-- The offsets where R22 has nothing to write. -/
theorem csrAt_readOnly : ∀ off : BitVec 8, off = 0x00 ∨ off = 0x10 ∨ off = 0x20 ∨ 0x38 ≤ off.toNat →
    ∀ r ∈ csrAt off, r.isReadOnly = true := by decide

/-- Settles O51: an unmapped offset has no register, and a read-only one ignores writes. -/
theorem reservedAccessesDoNothing : Obligations.ReservedAccessesDoNothing := by
  intro s v off _
  refine ⟨fun h => ⟨State.csrValue_unmapped h, ?_⟩, ?_, fun h => State.csrWrite_readOnly (csrAt_readOnly off h)⟩
  · exact State.csrWrite_readOnly (csrAt_readOnly off (.inr (.inr (.inr (by omega)))))
  · rintro rfl
    exact State.csrValue_stored (r := .cmd) rfl rfl

/-- Settles O52: the word of STATUS is R28's layout with BUSY set, and every other register is the case R39 puts it in. -/
theorem busyReadsShowOnlyWhatTheyMay : Obligations.BusyReadsShowOnlyWhatTheyMay := by
  intro s h
  have read : ∀ {off : BitVec 8} (r : Csr), csrAt off = some r → s.csrValue off = s.csrBusy (Config.busyValue s.draws) r :=
    fun _ hr => State.csrValue_busy h hr
  have hstatus : s.csrValue 0x08 = statusLayout true false ((Config.busyValue s.draws).getLsbD 2)
      ((Config.busyValue s.draws).getLsbD 3) 0 := read .status rfl
  obtain ⟨hbusy, hdone, hhit, hfull, herr, hres⟩ := statusLayout_fields hstatus
  refine ⟨hbusy, hdone, herr, hres,
    read .id rfl, (read .ctrl rfl).trans (setWidth_ofBool s.ie), read .cfg rfl, read .cmd rfl, read .arg0 rfl, read .arg1 rfl,
    read .srcAddr rfl, read .srcLen rfl, read .dstAddr rfl, read .dstCap rfl, read .targetLen rfl,
    fun off _ hoff => State.csrValue_unmapped hoff, hhit, hfull, ?_⟩
  rintro off (rfl | rfl | rfl | rfl | rfl | rfl | rfl | rfl | rfl | rfl)
  · exact read .acfg rfl
  · exact read .res rfl
  · exact read .dictSize rfl
  · exact read .codeWidth rfl
  · exact read .outLen rfl
  · exact read .packState rfl
  · exact read .srcPos rfl
  · exact read .srcBit rfl
  · exact read .codeCount rfl
  · exact read .errInfo rfl

/-- Settles O54: the store of an operand and a command word are ignored while busy; CTRL and STATUS do not ask
whether it is. -/
theorem busyWritesAreIgnored : Obligations.BusyWritesAreIgnored := by
  intro s v h
  have ignored : ∀ {off : BitVec 8} {t : State}, s.csrWrite off v = .next (s.setOperand t) → s.csrWrite off v = .next s :=
    State.csrWrite_operand_busy h
  refine ⟨?_, ignored rfl, ignored rfl, ignored rfl, ignored rfl, ignored rfl, ignored rfl, ignored rfl, ignored rfl,
    exec_busy h, fun hv => ?_, fun hv => ?_, s.csrWrite_status v⟩
  · show s.writeCmd v = .next s
    rw [State.writeCmd, State.busy_eq_true h, cond_true]
  · show Host.Outcome.next (s.writeCtrl v) = _
    rw [State.writeCtrl, hv, cond_false]
  · show Host.Outcome.next (s.writeCtrl v) = _
    rw [State.writeCtrl, hv, cond_true]
    rfl

/-- Settles O60: the port takes an access by its offset's last two bits, and a bus address of the block is its offset. -/
theorem registerAccessesAreAlignedWords : Obligations.RegisterAccessesAreAlignedWords := by
  intro s off v
  refine ⟨fun h => ⟨State.portWrite_aligned h, ?_, State.portRead_aligned h, ?_⟩,
    fun h => ⟨State.portWrite_misaligned h, ?_, State.portRead_misaligned h, ?_⟩,
    fun a h => ⟨(s.hostAccess_outside h).1 v, (s.hostAccess_outside h).2⟩, fun _ => rfl⟩
  · exact (s.hostAccess_busWrite off v).trans (State.portWrite_aligned h)
  · exact (s.hostAccess_busRead off).trans (State.portRead_aligned h)
  · exact (s.hostAccess_busWrite off v).trans (State.portWrite_misaligned h)
  · exact (s.hostAccess_busRead off).trans (State.portRead_misaligned h)

end Sys2Proof.Machine
end

section
/-! PROOFS. Obligations of 20_memory.md: the checks that ENCODE and DECODE make at their start, the commands that write no
memory, and the host's memory accesses while the engine is busy. -/

namespace Sys2Proof.Machine

/-! ### The start check (20_memory.md R48) -/

theorem State.startCheck_of_cfgCheck_error {s : State} {e : Err} (h : s.cfgCheck = .error e) (n : Word) :
    s.startCheck n = .error e := by
  rw [State.startCheck, h]

theorem State.startCheck_of_legal {s : State} (h : s.cfg.legal = true) (n : Word) : s.startCheck n = s.regionsOk n := by
  rw [State.startCheck, s.cfgCheck_eq_ok_iff.2 h]

/-- A SRC region that passes the end of the space is reported before anything about DST. -/
theorem State.regionsOk_srcWraps {s : State} (h : 2 ^ 32 < s.srcAddr.toNat + s.srcLen.toNat) (n : Word) :
    s.regionsOk n = .error Err.srcWraps :=
  if_pos h

/-- A DST region that passes the end of the space is reported before an overlap. -/
theorem State.regionsOk_dstWraps {s : State} {n : Word} (hs : s.srcAddr.toNat + s.srcLen.toNat ≤ 2 ^ 32)
    (hd : 2 ^ 32 < s.dstAddr.toNat + n.toNat) : s.regionsOk n = .error Err.dstWraps := by
  rw [State.regionsOk, if_neg (Nat.not_lt.2 hs), if_pos hd]

theorem State.regionsOk_overlap {s : State} {n : Word} (hs : s.srcAddr.toNat + s.srcLen.toNat ≤ 2 ^ 32)
    (hd : s.dstAddr.toNat + n.toNat ≤ 2 ^ 32)
    (ho : 0 < s.srcLen.toNat ∧ 0 < n.toNat ∧ s.srcAddr.toNat < s.dstAddr.toNat + n.toNat ∧
      s.dstAddr.toNat < s.srcAddr.toNat + s.srcLen.toNat) : s.regionsOk n = .error Err.overlap := by
  rw [State.regionsOk, if_neg (Nat.not_lt.2 hs), if_neg (Nat.not_lt.2 hd), if_pos ho]

/-! ### Past the start check, no InvalidConfiguration

ENC_START and DEC_START alone check the configuration and the regions, and no later phase leads back to them. -/

/-- The phases of ENCODE and DECODE after their start, and the end. -/
def Phase.isPastStart (p : Phase) : Bool :=
  match p with
  | .exec | .encStart | .decStart => false
  | .idle => true
  | .encFirst | .encNext | .encLookup | .encEmit | .encGrow | .encFinal | .encEnd | .encFlush => true
  | .decTest | .decRead | .decClassify | .decWrite | .decGrow => true

/-- ENCODE or DECODE has passed its start check: what the rest of its run keeps. -/
structure State.PastCheck (s : State) : Prop where
  phase : s.phase.isPastStart = true
  err : s.err ≠ some .invalidConfiguration

theorem State.PastCheck.raise (s : State) {e : Err} (he : e.kind ≠ .invalidConfiguration) : (s.raise e).PastCheck :=
  ⟨rfl, fun h => he (Option.some.inj h)⟩

theorem State.PastCheck.goOn {s : State} (h : s.PastCheck) {p : Phase} (hp : p.isPastStart = true) {r : Except Err State}
    (hok : ∀ t, r = .ok t → t.err = s.err) (herr : ∀ e, r = .error e → e.kind ≠ .invalidConfiguration) :
    (s.goOn p r).PastCheck := by
  cases r with
  | ok t => exact ⟨hp, fun ht => h.err ((hok t rfl).symm.trans ht)⟩
  | error e => exact State.PastCheck.raise s (herr e rfl)

theorem State.packWrite_err {s t : State} {v : Code} {w : Nat} (h : s.packWrite v w = .ok t) : t.err = s.err := by
  obtain ⟨-, -, m, a, n, o, rfl⟩ := State.packWrite_ok h
  rfl

theorem State.packWrite_errorKind {s : State} {v : Code} {w : Nat} {e : Err} (h : s.packWrite v w = .error e) :
    e.kind ≠ .invalidConfiguration := by
  obtain ⟨rfl, -⟩ := State.packWrite_error h
  exact nofun

theorem State.growTable_err {s t : State} (h : s.growTable = .ok t) : t.err = s.err := by
  unfold State.growTable at h
  split at h
  · cases h
    rfl
  · split at h
    · split at h <;> cases h
      rename_i u hu
      have herr : u.err = s.err := State.packWrite_err hu
      exact herr
    · cases h
      rfl

/-- The only error of ENC_GROW is the overflow of its CLEAR (R126). -/
theorem State.growTable_error {s : State} {e : Err} (h : s.growTable = .error e) : e = Err.overflow clearCode := by
  unfold State.growTable at h
  split at h
  · cases h
  · split at h
    · split at h <;> cases h
      rename_i hu
      exact (State.packWrite_error hu).1
    · cases h

theorem State.expand_error {s : State} {c : Code} {e : Err} (h : s.expand c = .error e) : e = Err.corrupt s.code := by
  unfold State.expand at h
  split at h <;> cases h
  rfl

/-- The only error of the cases R144 to R147 is CorruptStream of the code in hand. -/
theorem State.codeString_error {s : State} {e : Err} (h : s.codeString = .error e) : e = Err.corrupt s.code := by
  unfold State.codeString at h
  split at h
  · split at h <;> cases h
    rfl
  · split at h
    · exact State.expand_error h
    · split at h
      · split at h <;> cases h
        exact State.expand_error ‹_›
      · cases h
        rfl

/-- Every step after the start keeps ERR or raises an error of another kind, and no step goes back to the start. -/
theorem State.PastCheck.engineStep {s : State} (h : s.PastCheck) : s.engineStep.PastCheck := by
  have hpast := h.phase
  have herr := h.err
  cases hp : s.phase with
  | exec | encStart | decStart => rw [hp] at hpast; cases hpast
  | idle => rw [State.engineStep_idle hp]; exact h
  | encFirst => rw [State.engineStep_encFirst hp]; exact ⟨rfl, herr⟩
  | encNext =>
    rw [State.engineStep_encNext hp, State.encNextStep]
    split <;> exact ⟨rfl, herr⟩
  | encLookup =>
    rw [State.engineStep_encLookup hp, State.encLookupStep]
    split <;> exact ⟨rfl, herr⟩
  | encEmit =>
    rw [State.engineStep_encEmit hp]
    exact h.goOn rfl (fun _ => State.packWrite_err) fun _ => State.packWrite_errorKind
  | encGrow =>
    rw [State.engineStep_encGrow hp]
    refine h.goOn rfl (fun t ht => ?_) fun e he => ?_
    · split at ht <;> cases ht
      rename_i hu
      have hgrow := State.growTable_err hu
      exact hgrow
    · split at he <;> cases he
      rename_i hu
      rw [State.growTable_error hu]
      exact nofun
  | encFinal =>
    rw [State.engineStep_encFinal hp]
    exact h.goOn rfl (fun _ => State.packWrite_err) fun _ => State.packWrite_errorKind
  | encEnd =>
    rw [State.engineStep_encEnd hp]
    refine h.goOn rfl (fun t ht => ?_) fun e he => ?_
    · split at ht
      · exact State.packWrite_err ht
      · cases ht
        rfl
    · split at he
      · exact State.packWrite_errorKind he
      · cases he
  | encFlush =>
    rw [State.engineStep_encFlush hp, State.encFlushStep]
    cases hf : s.packFlush with
    | ok t =>
      rcases State.packFlush_ok hf with ⟨-, rfl⟩ | ⟨-, -, rfl⟩ <;> exact ⟨rfl, herr⟩
    | error e =>
      obtain ⟨rfl, -⟩ := State.packFlush_error hf
      exact State.PastCheck.raise s nofun
  | decTest =>
    rw [State.engineStep_decTest hp, State.decTestStep]
    split <;> exact ⟨rfl, herr⟩
  | decRead =>
    rw [State.engineStep_decRead hp, State.decReadStep]
    split
    · rename_i hr
      rw [(State.unpackRead_error hr).1]
      exact State.PastCheck.raise s nofun
    · rename_i hr
      obtain ⟨-, -, p, q, rfl⟩ := State.unpackRead_ok hr
      exact ⟨rfl, herr⟩
  | decClassify =>
    rw [State.engineStep_decClassify hp, State.decClassifyStep]
    split
    · exact ⟨rfl, herr⟩
    · split
      · exact State.PastCheck.raise s nofun
      · split
        · exact State.PastCheck.raise s nofun
        · split
          · rename_i hc
            rw [State.codeString_error hc]
            exact State.PastCheck.raise s nofun
          · exact ⟨rfl, herr⟩
  | decWrite =>
    rw [State.engineStep_decWrite hp, State.decWriteStep]
    split
    · exact State.PastCheck.raise s nofun
    · obtain ⟨m, o, hf⟩ := State.putBytes_frame s.seq s
      rw [hf]
      exact ⟨rfl, herr⟩
  | decGrow =>
    have hins : s.decInsert.err = s.err := by
      unfold State.decInsert
      split <;> rfl
    rw [← hins] at herr
    rw [State.engineStep_decGrow hp, State.decGrowStep]
    dsimp only
    split <;> exact ⟨rfl, herr⟩

theorem State.PastCheck.engineSteps : ∀ (n : Nat) {s : State}, s.PastCheck → (s.engineSteps n).PastCheck
  | 0, _, h => h
  | n + 1, _, h => State.PastCheck.engineSteps n h.engineStep

/-! ### The first step of ENCODE and DECODE (R126, R141) -/

theorem State.encStartStep_error {s : State} {e : Err} (h : s.startCheck s.dstCap = .error e) :
    s.encStartStep = s.raise e := by
  rw [State.encStartStep, h]

theorem State.decStartStep_error {s : State} {e : Err} (h : s.startCheck s.targetLen = .error e) :
    s.decStartStep = s.raise e := by
  rw [State.decStartStep, h]

theorem State.encStartStep_pastCheck {s : State} (herr : s.err ≠ some .invalidConfiguration)
    (h : s.startCheck s.dstCap = .ok ()) : s.encStartStep.PastCheck := by
  rw [State.encStartStep, h]
  refine ⟨?_, herr⟩
  dsimp only
  split <;> rfl

theorem State.decStartStep_pastCheck {s : State} (herr : s.err ≠ some .invalidConfiguration)
    (h : s.startCheck s.targetLen = .ok ()) : s.decStartStep.PastCheck := by
  rw [State.decStartStep, h]
  exact ⟨rfl, herr⟩

/-- A command whose first engine step ends it answers the state after that step. -/
theorem exec_of_firstStep_idle {s : State} {i : Instr} (h : s.phase = .idle)
    (hend : (s.accept (encode i) (firstPhase i)).engineStep.phase = .idle) :
    exec i s = .next (s.accept (encode i) (firstPhase i)).engineStep := by
  cases i with
  | encode =>
    rw [exec_encode h]
    exact State.runEngine_eq_next (m := 1) (by unfold State.encodeBound; omega) hend
  | decode =>
    rw [exec_decode h]
    exact State.runEngine_eq_next (m := 1) (by unfold State.decodeBound; omega) hend
  | _ => exact exec_primitive h rfl

/-- `i` is a whole-buffer command, and `n` the length of its DST region (R48). -/
def State.ChecksStart (s : State) (i : Instr) (n : Word) : Prop :=
  (i = .encode ∧ n = s.dstCap) ∨ (i = .decode ∧ n = s.targetLen)

/-- A start check that fails ends the command with its error (R168). -/
theorem State.ChecksStart.firstStep_error {s : State} {i : Instr} {n : Word} (hi : s.ChecksStart i n) {e : Err}
    (hc : s.startCheck n = .error e) :
    (s.accept (encode i) (firstPhase i)).engineStep = (s.accept (encode i) (firstPhase i)).raise e := by
  rcases hi with ⟨rfl, rfl⟩ | ⟨rfl, rfl⟩
  · rw [State.engineStep_encStart rfl]
    exact State.encStartStep_error hc
  · rw [State.engineStep_decStart rfl]
    exact State.decStartStep_error hc

/-- A start check that passes leaves a command that never raises InvalidConfiguration. -/
theorem State.ChecksStart.firstStep_ok {s : State} {i : Instr} {n : Word} (hi : s.ChecksStart i n)
    (hc : s.startCheck n = .ok ()) : (s.accept (encode i) (firstPhase i)).engineStep.PastCheck := by
  rcases hi with ⟨rfl, rfl⟩ | ⟨rfl, rfl⟩
  · rw [State.engineStep_encStart rfl]
    exact State.encStartStep_pastCheck nofun hc
  · rw [State.engineStep_decStart rfl]
    exact State.decStartStep_pastCheck nofun hc

theorem State.ChecksStart.exec_error {s : State} {i : Instr} {n : Word} (hi : s.ChecksStart i n) (h : s.phase = .idle)
    {e : Err} (hc : s.startCheck n = .error e) : exec i s = .next (s.failed i e) := by
  have hstep := hi.firstStep_error hc
  rw [exec_of_firstStep_idle h (by rw [hstep]; rfl), hstep, State.accept_raise h]

theorem State.ChecksStart.exec_ok {s t : State} {i : Instr} {n : Word} (hi : s.ChecksStart i n)
    (hc : s.startCheck n = .ok ()) (h : s.phase = .idle) (ht : exec i s = .next t) : t.err ≠ some .invalidConfiguration := by
  rcases exec_cases i s with ⟨hb, -⟩ | ⟨-, k, -, hx⟩ | ⟨-, -, hx⟩
  · exact absurd h hb
  · rw [hx] at ht
    cases ht
    cases k with
    | zero => exact nofun
    | succ k => exact ((hi.firstStep_ok hc).engineSteps k).err
  · rw [hx] at ht
    cases ht

/-- Settles O26: the first step of either command makes the check, and no step after it raises InvalidConfiguration. -/
theorem wholeBufferCommandsCheckTheirStart : Obligations.WholeBufferCommandsCheckTheirStart := by
  intro s i n h (hi : s.ChecksStart i n)
  have fails : ∀ {e : Err}, s.startCheck n = .error e → exec i s = .next (s.failed i e) := hi.exec_error h
  refine ⟨fun hmax => ?_, fun hlo hhi hinit => ?_, fun hl hs => ?_, fun hl hs hd => ?_, fun hl hs hd h1 h2 h3 h4 => ?_,
    fun hl hfit t ht => ?_⟩
  · exact fails (State.startCheck_of_cfgCheck_error ((s.cfgCheck_eq_error_iff _).2 (.inl ⟨hmax, rfl⟩)) n)
  · exact fails (State.startCheck_of_cfgCheck_error ((s.cfgCheck_eq_error_iff _).2 (.inr ⟨⟨hlo, hhi⟩, hinit, rfl⟩)) n)
  · exact fails ((State.startCheck_of_legal hl n).trans (State.regionsOk_srcWraps hs n))
  · exact fails ((State.startCheck_of_legal hl n).trans (State.regionsOk_dstWraps hs hd))
  · exact fails ((State.startCheck_of_legal hl n).trans (State.regionsOk_overlap hs hd ⟨h1, h2, h3, h4⟩))
  · exact hi.exec_ok ((s.startCheck_eq_ok_iff n).2 ⟨hl, (s.regionsOk_eq_ok_iff n).2 hfit⟩) h ht

/-! ### The commands that write no memory (20_memory.md R44) -/

theorem State.finish_mem {s : State} {r : Except Err State} (h : ∀ t, r = .ok t → t.mem = s.mem) :
    (s.finish r).mem = s.mem := by
  cases r with
  | ok t => exact h t rfl
  | error e => rfl

/-- Of the commands that EXEC runs, PWRITE and PFLUSH alone write memory. -/
theorem State.execStep_mem {s : State} {i : Instr} (hd : decode s.cmd = .ok i) (hw : i ≠ .pwrite) (hf : i ≠ .pflush) :
    s.execStep.mem = s.mem := by
  unfold State.execStep
  rw [hd]
  cases i with
  | pwrite => exact absurd rfl hw
  | pflush => exact absurd rfl hf
  | nop | pinit | uinit | encode | decode => rfl
  | dinit =>
    refine State.finish_mem fun t ht => ?_
    split at ht <;> cases ht
    rfl
  | dlookup =>
    simp only [State.dlookupBody]
    split <;> rfl
  | dinsert =>
    refine State.finish_mem fun t ht => ?_
    split at ht
    · cases ht
    · split at ht <;> cases ht
      rfl
  | dread =>
    refine State.finish_mem fun t ht => ?_
    split at ht
    · cases ht
      rfl
    · split at ht <;> cases ht
      rfl
  | uread =>
    refine State.finish_mem fun t ht => ?_
    split at ht
    · cases ht
    · split at ht <;> cases ht
      rename_i hr
      obtain ⟨-, -, p, q, rfl⟩ := State.unpackRead_ok hr
      rfl

/-- Settles O45: each of these commands is one step of EXEC, and none of their bodies writes memory. -/
theorem onlyWritersWriteMemory : Obligations.OnlyWritersWriteMemory := by
  intro i s t hw hf he hd hexec a
  have hi : firstPhase i = .exec := by
    cases i with
    | encode | decode => contradiction
    | _ => rfl
  rcases exec_execStep hi hexec with rfl | rfl
  · rfl
  · have hd : decode (s.accept (encode i) .exec).cmd = .ok i := decode_encode i
    rw [State.execStep_mem hd hw hf, State.accept_mem]

/-! ### The host's memory accesses while busy (20_memory.md R51) -/

theorem anyByte_eq_false_iff (f : Word → Bool) (n : Nat) (a : Word) :
    anyByte f a n = false ↔ ∀ i < n, f (a + BitVec.ofNat 32 i) = false := by
  rw [← Bool.not_eq_true, anyByte_iff]
  simp

/-- A busy write is refused whole if it touches one byte of either region (log entry 11). -/
theorem State.hostMemWrite_refused {s : State} (h : s.phase ≠ .idle) {a : Word} {l : List Byte}
    (ht : ∃ i < l.length, s.inSrc (a + BitVec.ofNat 32 i) = true ∨ s.inDst (a + BitVec.ofNat 32 i) = true) :
    s.hostMemWrite a l = .refused .handsOff := by
  have hany : anyByte (fun x => s.inSrc x || s.inDst x) a l.length = true := by
    simpa [anyByte_iff] using ht
  rw [State.hostMemWrite, State.busy_eq_true h, hany]
  rfl

theorem State.hostMemWrite_made {s : State} {a : Word} {l : List Byte}
    (ht : ∀ i < l.length, s.inSrc (a + BitVec.ofNat 32 i) = false ∧ s.inDst (a + BitVec.ofNat 32 i) = false) :
    s.hostMemWrite a l = .next (s.memWriteList a l) := by
  have hany : anyByte (fun x => s.inSrc x || s.inDst x) a l.length = false := by
    simpa [anyByte_eq_false_iff] using ht
  rw [State.hostMemWrite, hany, Bool.and_false]
  rfl

theorem State.hostMemRead_refused {s : State} (h : s.phase ≠ .idle) {a : Word} {n : Nat}
    (ht : ∃ i < n, s.inSrc (a + BitVec.ofNat 32 i) = true) : s.hostMemRead a n = .refused .handsOff := by
  rw [State.hostMemRead, State.busy_eq_true h, (anyByte_iff _ _ _).2 ht]
  rfl

/-- A busy read outside SRC uses up one free value, whether or not it meets the DST region (log entry 9). -/
theorem State.hostMemRead_made {s : State} (h : s.phase ≠ .idle) {a : Word} {n : Nat}
    (ht : ∀ i < n, s.inSrc (a + BitVec.ofNat 32 i) = false) :
    s.hostMemRead a n = .next (s.drawn.observe (.mem a (s.busyMemList a n))) := by
  rw [State.hostMemRead, State.busy_eq_true h, (anyByte_eq_false_iff _ _ _).2 ht]
  rfl

/-- Settles O58: the hands-off check looks at each byte of the access, and a busy read takes each byte from memory or, in the
DST region, from the free values. -/
theorem hostMustKeepItsHandsOff : Obligations.HostMustKeepItsHandsOff := by
  intro s a l n
  refine ⟨fun h => State.hostMemWrite_refused h, fun _ ht => State.hostMemWrite_made ht,
    fun h => State.hostMemRead_refused h, fun h ht => ?_, fun _ => rfl⟩
  refine ⟨s.busyMemList a n, State.hostMemRead_made h ht, s.busyMemList_length n a, fun i hi hin => ?_, fun i hi hin => ?_⟩
  · rw [s.busyMemList_getElem? n a i hi, hin]
    rfl
  · rw [s.busyMemList_getElem? n a i hi, hin]
    rfl

end Sys2Proof.Machine
end

section
/-! PROOFS. Obligations of 30_encoding.md: the decoder and its words, what no command writes, and the host's reads and writes. -/

namespace Sys2Proof

/-! ### The fields of a command word (30_encoding.md R55 to R57) -/

theorem rsvdField_toNat (w : Word) : (rsvdField w).toNat = w.toNat / 16 := by
  rw [rsvdField, BitVec.extractLsb'_toNat, Nat.shiftRight_eq_div_pow]
  omega

theorem opField_toNat (w : Word) : (opField w).toNat = w.toNat % 16 := by
  rw [opField, BitVec.extractLsb'_toNat, Nat.shiftRight_zero]

theorem rsvdField_eq_zero_iff (w : Word) : rsvdField w = 0 ↔ w.toNat < 16 := by
  rw [← BitVec.toNat_inj, rsvdField_toNat]
  show w.toNat / 16 = 0 ↔ _
  omega

/-- A word with no reserved bit set is its OP field, zero-extended (R55). -/
theorem setWidth_opField {w : Word} (h : w.toNat < 16) : (opField w).setWidth 32 = w := by
  refine BitVec.eq_of_toNat_eq ?_
  rw [BitVec.toNat_setWidth, opField_toNat]
  omega

/-- The opcode map assigns 0x0 to 0xB, each to the command that has it as its opcode (R56). -/
theorem instrOfOp_assigned : ∀ op : BitVec 4, op.toNat < 12 → ∃ i ∈ instrOfOp op, opOfInstr i = op := by decide

theorem instrOfOp_unassigned : ∀ op : BitVec 4, 12 ≤ op.toNat → instrOfOp op = none := by decide

theorem decode_of_reserved {w : Word} (h : 16 ≤ w.toNat) : decode w = .error .reservedBits := by
  rw [decode, if_pos]
  rw [Ne, rsvdField_eq_zero_iff]
  omega

/-- With no reserved bit set, the opcode map alone decides (R57). -/
theorem decode_of_lt {w : Word} (h : w.toNat < 16) :
    decode w = (instrOfOp (opField w)).elim (.error .unassignedOpcode) .ok := by
  rw [decode, if_neg (not_not.2 ((rsvdField_eq_zero_iff w).2 h))]
  cases instrOfOp (opField w) <;> rfl

theorem decode_of_unassigned {w : Word} (h1 : 12 ≤ w.toNat) (h2 : w.toNat < 16) :
    decode w = .error .unassignedOpcode := by
  rw [decode_of_lt h2, instrOfOp_unassigned _ (by rw [opField_toNat]; omega), Option.elim_none]

theorem decode_of_assigned {w : Word} (h : w.toNat < 12) : ∃ i, decode w = .ok i ∧ encode i = w := by
  obtain ⟨i, hi, hop⟩ := instrOfOp_assigned (opField w) (by rw [opField_toNat]; omega)
  refine ⟨i, ?_, ?_⟩
  · rw [decode_of_lt (by omega), Option.mem_def.1 hi, Option.elim_some]
  · rw [encode, hop, setWidth_opField (by omega)]

/-- Settles O3: the reserved bits are the word divided by 16, and below 16 the opcode map decides. -/
theorem everyWordDecodesByItsFields : Obligations.EveryWordDecodesByItsFields :=
  fun _ => ⟨decode_of_reserved, decode_of_unassigned, decode_of_assigned⟩

/-- Settles O1: eighteen fixed words. -/
theorem commandWordsDecodeByTheOpcodeMap : Obligations.CommandWordsDecodeByTheOpcodeMap := by
  unfold Obligations.CommandWordsDecodeByTheOpcodeMap
  decide

theorem encode_toNat_lt (i : Instr) : (encode i).toNat < 12 := by cases i <;> decide

/-- Settles O2: the decoder reads back every command's word, and the opcode map uses no opcode from 12 up. -/
theorem encodeThenDecodeIsTheCommand : Obligations.EncodeThenDecodeIsTheCommand :=
  fun i _ => ⟨decode_encode i, encode_toNat_lt i⟩

namespace Machine

/-! ### A write of CMD while idle (30_encoding.md R57, 40_command.md R75) -/

theorem firstPhase_eq (i : Instr) :
    firstPhase i = if i = .encode then .encStart else if i = .decode then .decStart else .exec := by
  cases i <;> rfl

/-- A command word is dispatched to `exec` when the host waits for the command (log entry 6). -/
theorem State.writeCmd_waited {s : State} (h : s.phase = .idle) {w : Word} {i : Instr} (hd : decode w = .ok i)
    (hw : hostWaits s.host = true) : s.writeCmd w = exec i s := by
  simp only [State.writeCmd, State.busy_eq_false h, hd, hw, cond_false, cond_true]

/-- With other host accesses to come, a command word is only accepted (log entry 6). -/
theorem State.writeCmd_accepted {s : State} (h : s.phase = .idle) {w : Word} {i : Instr} (hd : decode w = .ok i)
    (hw : hostWaits s.host = false) : s.writeCmd w = .next (s.accept w (firstPhase i)) := by
  simp only [State.writeCmd, State.busy_eq_false h, hd, hw, cond_false]

theorem State.writeCmd_illegal {s : State} (h : s.phase = .idle) {w : Word} {r : IllegalWord} (hd : decode w = .error r) :
    s.writeCmd w = .next ((s.accept w .exec).raise (illegalWordErr r)) := by
  simp only [State.writeCmd, State.busy_eq_false h, hd, cond_false]

/-- The error that a word from 12 up raises: its sub-code tells whether a reserved bit is set (R57). -/
theorem decode_illegal {w : Word} (h : 12 ≤ w.toNat) :
    ∃ r, decode w = .error r ∧ illegalWordErr r = Err.illegal (if rsvdField w ≠ 0 then 2 else 1) := by
  by_cases h16 : w.toNat < 16
  · refine ⟨_, decode_of_unassigned h h16, ?_⟩
    rw [if_neg (not_not.2 ((rsvdField_eq_zero_iff w).2 h16))]
    rfl
  · refine ⟨_, decode_of_reserved (by omega), ?_⟩
    rw [if_pos (mt (rsvdField_eq_zero_iff w).1 h16)]
    rfl

/-- Acceptance and the error ending together, from an idle state, for any word (R75, R168). -/
theorem State.accept_raise_word {s : State} (h : s.phase = .idle) (w : Word) (p : Phase) (e : Err) :
    (s.accept w p).raise e =
      { s with done := true, hit := false, err := some e.kind, errInfo := e.info, cmd := w } := by
  simp [State.raise, State.accept, h]

/-- Settles O4: offset 0x14 is CMD, whose write decodes the word; below 12 that gives a command, from 12 up an error. -/
theorem commandWordsDispatchOrRaise : Obligations.CommandWordsDispatchOrRaise := by
  intro s w h
  have hcmd : s.csrWrite 0x14 w = s.writeCmd w := rfl
  rw [hcmd]
  refine ⟨fun hlt hw => ?_, fun hlt hw => ?_, fun hge => ?_⟩
  · obtain ⟨i, hd, he⟩ := decode_of_assigned hlt
    exact ⟨i, he, State.writeCmd_waited h hd hw⟩
  · obtain ⟨i, hd, he⟩ := decode_of_assigned hlt
    refine ⟨i, he, ?_⟩
    rw [State.writeCmd_accepted h hd hw, firstPhase_eq]
    rfl
  · obtain ⟨r, hd, hr⟩ := decode_illegal hge
    rw [State.writeCmd_illegal h hd, State.accept_raise_word h, hr]
    rfl

/-! ### What no command writes (10_state.md R40, 30_encoding.md R56, R59)

A primitive command is one step of EXEC, which ends it with its work done or with nothing done but the error ending. ENCODE and
DECODE run in phases that are never EXEC, and none of them writes RES. -/

/-- What a command only reads: CTRL.IE, CFG, the operand registers and the host's lists, with all else at its reset value. -/
def State.inputs (s : State) : State :=
  { State.reset with
    ie := s.ie, cfg := s.cfg, arg0 := s.arg0, arg1 := s.arg1, srcAddr := s.srcAddr, srcLen := s.srcLen, dstAddr := s.dstAddr,
    dstCap := s.dstCap, targetLen := s.targetLen, host := s.host, obs := s.obs, draws := s.draws }

theorem State.inputs_eq_iff {s t : State} : t.inputs = s.inputs ↔ SameOperands s t ∧ SameHost s t := by
  simp [State.inputs, SameOperands, SameHost, and_assoc]

/-- The inputs and RES are as before. -/
def KeepsInputsAndRes (s t : State) : Prop := t.inputs = s.inputs ∧ t.res = s.res

theorem KeepsInputsAndRes.refl (s : State) : KeepsInputsAndRes s s := ⟨.refl _, .refl _⟩

theorem KeepsInputsAndRes.trans {s t u : State} (h : KeepsInputsAndRes s t) (h' : KeepsInputsAndRes t u) :
    KeepsInputsAndRes s u :=
  ⟨h'.1.trans h.1, h'.2.trans h.2⟩

theorem KeepsInputsAndRes.packWrite {s t : State} {v : Code} {w : Nat} (h : s.packWrite v w = .ok t) :
    KeepsInputsAndRes s t := by
  obtain ⟨-, -, m, a, n, o, rfl⟩ := State.packWrite_ok h
  exact ⟨rfl, rfl⟩

theorem KeepsInputsAndRes.packFlush {s t : State} (h : s.packFlush = .ok t) : KeepsInputsAndRes s t := by
  rcases State.packFlush_ok h with ⟨-, rfl⟩ | ⟨-, -, rfl⟩ <;> exact ⟨rfl, rfl⟩

theorem KeepsInputsAndRes.growTable {s t : State} (h : s.growTable = .ok t) : KeepsInputsAndRes s t := by
  unfold State.growTable at h
  split at h
  · cases h
    exact ⟨rfl, rfl⟩
  · split at h
    · split at h <;> cases h
      rename_i u hu
      have hkeep := KeepsInputsAndRes.packWrite hu
      exact hkeep
    · cases h
      exact ⟨rfl, rfl⟩

/-! #### The one step of a primitive command -/

/-- The commands that write RES (R59). -/
def writesRes (i : Instr) : Bool :=
  match i with
  | .dlookup | .dinsert | .dread | .uread => true
  | .nop | .dinit | .pinit | .pwrite | .pflush | .uinit | .encode | .decode => false

/-- `t` is `s` after the work of command `i` has succeeded, before its completion. -/
structure WorkDone (i : Instr) (s t : State) : Prop where
  inputs : t.inputs = s.inputs
  err : t.err = s.err
  res : writesRes i = false → t.res = s.res

theorem WorkDone.of_res {i : Instr} {s t : State} (hi : t.inputs = s.inputs) (he : t.err = s.err) (hr : t.res = s.res) :
    WorkDone i s t :=
  ⟨hi, he, fun _ => hr⟩

theorem WorkDone.of_writesRes {i : Instr} {s t : State} (hw : writesRes i = true) (hi : t.inputs = s.inputs)
    (he : t.err = s.err) : WorkDone i s t :=
  ⟨hi, he, fun h => absurd (hw.symm.trans h) Bool.noConfusion⟩

/-- `t` is how command `i` ends from `s` in one step: by the error ending alone, or by completion after its work. -/
def EndsWork (i : Instr) (s t : State) : Prop :=
  (∃ e, t = s.raise e) ∨ ∃ u, WorkDone i s u ∧ t = u.complete

theorem EndsWork.finish {i : Instr} {s : State} {r : Except Err State} (h : ∀ u, r = .ok u → WorkDone i s u) :
    EndsWork i s (s.finish r) := by
  cases r with
  | ok u => exact .inr ⟨u, h u rfl, rfl⟩
  | error e => exact .inl ⟨e, rfl⟩

/-- Everything the one step of a primitive command can do to its inputs, ERR and RES. -/
theorem State.execStep_endsWork {s : State} {i : Instr} (hd : decode s.cmd = .ok i) (hi : firstPhase i = .exec) :
    EndsWork i s s.execStep := by
  unfold State.execStep
  rw [hd]
  cases i with
  | encode | decode => cases hi
  | nop => exact .inr ⟨s, .of_res rfl rfl rfl, rfl⟩
  | pinit => exact .inr ⟨s.packInit, .of_res rfl rfl rfl, rfl⟩
  | uinit => exact .inr ⟨s.unpackInit, .of_res rfl rfl rfl, rfl⟩
  | dinit =>
    refine EndsWork.finish fun u hu => ?_
    split at hu <;> cases hu
    exact .of_res rfl rfl rfl
  | dlookup =>
    simp only [State.dlookupBody]
    split <;> refine .inr ⟨_, ?_, rfl⟩ <;> exact .of_writesRes rfl rfl rfl
  | dinsert =>
    refine EndsWork.finish fun u hu => ?_
    split at hu
    · cases hu
    · split at hu <;> cases hu
      exact .of_writesRes rfl rfl rfl
  | dread =>
    refine EndsWork.finish fun u hu => ?_
    split at hu
    · cases hu
      exact .of_writesRes rfl rfl rfl
    · split at hu <;> cases hu
      exact .of_writesRes rfl rfl rfl
  | pwrite =>
    refine EndsWork.finish fun u hu => ?_
    split at hu
    · cases hu
    · obtain ⟨-, -, m, a, n, o, rfl⟩ := State.packWrite_ok hu
      exact .of_res rfl rfl rfl
  | pflush =>
    refine EndsWork.finish fun u hu => ?_
    rcases State.packFlush_ok hu with ⟨-, rfl⟩ | ⟨-, -, rfl⟩ <;> exact .of_res rfl rfl rfl
  | uread =>
    refine EndsWork.finish fun u hu => ?_
    split at hu
    · cases hu
    · split at hu <;> cases hu
      rename_i hr
      obtain ⟨-, -, p, q, rfl⟩ := State.unpackRead_ok hr
      exact .of_writesRes rfl rfl rfl

theorem EndsWork.inputs {i : Instr} {s t : State} (h : EndsWork i s t) : t.inputs = s.inputs := by
  rcases h with ⟨e, rfl⟩ | ⟨u, hu, rfl⟩
  · rfl
  · exact hu.inputs

theorem EndsWork.res_of_not_writesRes {i : Instr} {s t : State} (h : EndsWork i s t) (hw : writesRes i = false) :
    t.res = s.res := by
  rcases h with ⟨e, rfl⟩ | ⟨u, hu, rfl⟩
  · rfl
  · exact hu.res hw

/-- A command that ends with an error has not done its work, so it has not written RES. -/
theorem EndsWork.res_of_err {i : Instr} {s t : State} (h : EndsWork i s t) (hs : s.err = none) (ht : t.err ≠ none) :
    t.res = s.res := by
  rcases h with ⟨e, rfl⟩ | ⟨u, hu, rfl⟩
  · rfl
  · exact absurd (hu.err.trans hs) ht

/-! #### The steps of ENCODE and DECODE -/

/-- A step of ENCODE or DECODE: it does not go to EXEC, and keeps the inputs and RES. -/
structure WholeBufferStep (s t : State) : Prop where
  phase : t.phase ≠ .exec
  keeps : KeepsInputsAndRes s t

theorem WholeBufferStep.trans {s t u : State} (h : WholeBufferStep s t) (h' : WholeBufferStep t u) : WholeBufferStep s u :=
  ⟨h'.phase, h.keeps.trans h'.keeps⟩

theorem WholeBufferStep.goOn {s : State} {p : Phase} (hp : p ≠ .exec) {r : Except Err State}
    (h : ∀ t, r = .ok t → KeepsInputsAndRes s t) : WholeBufferStep s (s.goOn p r) := by
  cases r with
  | ok t => exact ⟨hp, h t rfl⟩
  | error e => exact ⟨nofun, KeepsInputsAndRes.refl _⟩

theorem State.engineStep_wholeBuffer {s : State} (h : s.phase ≠ .exec) : WholeBufferStep s s.engineStep := by
  have same := KeepsInputsAndRes.refl s
  cases hp : s.phase with
  | exec => exact absurd hp h
  | idle => rw [State.engineStep_idle hp]; exact ⟨h, same⟩
  | encStart =>
    rw [State.engineStep_encStart hp, State.encStartStep]
    split
    · exact ⟨nofun, same⟩
    · refine ⟨?_, same⟩
      dsimp only
      split <;> exact nofun
  | encFirst => rw [State.engineStep_encFirst hp]; exact ⟨nofun, same⟩
  | encNext =>
    rw [State.engineStep_encNext hp, State.encNextStep]
    split <;> exact ⟨nofun, same⟩
  | encLookup =>
    rw [State.engineStep_encLookup hp, State.encLookupStep]
    split <;> exact ⟨nofun, same⟩
  | encEmit =>
    rw [State.engineStep_encEmit hp]
    exact WholeBufferStep.goOn (by decide) fun t => KeepsInputsAndRes.packWrite
  | encGrow =>
    rw [State.engineStep_encGrow hp]
    refine WholeBufferStep.goOn (by decide) fun t ht => ?_
    split at ht <;> cases ht
    rename_i u hu
    have hgrow := KeepsInputsAndRes.growTable hu
    exact hgrow
  | encFinal =>
    rw [State.engineStep_encFinal hp]
    exact WholeBufferStep.goOn (by decide) fun t => KeepsInputsAndRes.packWrite
  | encEnd =>
    rw [State.engineStep_encEnd hp]
    refine WholeBufferStep.goOn (by decide) fun t ht => ?_
    split at ht
    · exact KeepsInputsAndRes.packWrite ht
    · cases ht
      exact same
  | encFlush =>
    rw [State.engineStep_encFlush hp, State.encFlushStep]
    cases hf : s.packFlush with
    | ok t =>
      have hkeep := KeepsInputsAndRes.packFlush hf
      exact ⟨nofun, hkeep⟩
    | error e => exact ⟨nofun, same⟩
  | decStart =>
    rw [State.engineStep_decStart hp, State.decStartStep]
    split <;> exact ⟨nofun, same⟩
  | decTest =>
    rw [State.engineStep_decTest hp, State.decTestStep]
    split <;> exact ⟨nofun, same⟩
  | decRead =>
    rw [State.engineStep_decRead hp, State.decReadStep]
    split
    · exact ⟨nofun, same⟩
    · rename_i hr
      obtain ⟨-, -, p, q, rfl⟩ := State.unpackRead_ok hr
      exact ⟨nofun, same⟩
  | decClassify =>
    rw [State.engineStep_decClassify hp, State.decClassifyStep]
    split
    · exact ⟨nofun, same⟩
    · split
      · exact ⟨nofun, same⟩
      · split
        · exact ⟨nofun, same⟩
        · split <;> exact ⟨nofun, same⟩
  | decWrite =>
    rw [State.engineStep_decWrite hp, State.decWriteStep]
    split
    · exact ⟨nofun, same⟩
    · obtain ⟨m, o, hf⟩ := State.putBytes_frame s.seq s
      rw [hf]
      exact ⟨nofun, same⟩
  | decGrow =>
    have hins : KeepsInputsAndRes s s.decInsert := by
      unfold State.decInsert
      split <;> exact ⟨rfl, rfl⟩
    rw [State.engineStep_decGrow hp, State.decGrowStep]
    dsimp only
    split <;> exact ⟨nofun, hins⟩

theorem State.engineSteps_wholeBuffer : ∀ (n : Nat) {s : State}, s.phase ≠ .exec → WholeBufferStep s (s.engineSteps n)
  | 0, s, h => ⟨h, KeepsInputsAndRes.refl s⟩
  | n + 1, _, h =>
    have hstep := State.engineStep_wholeBuffer h
    hstep.trans (State.engineSteps_wholeBuffer n hstep.phase)

/-! #### Every command -/

/-- What a command run from an idle state keeps: its inputs, and RES unless it is one that writes RES and does not fail. -/
theorem exec_keeps {i : Instr} {s t : State} (h : s.phase = .idle) (he : exec i s = .next t) :
    t.inputs = s.inputs ∧ (writesRes i = false → t.res = s.res) ∧ (t.err ≠ none → t.res = s.res) := by
  by_cases hi : firstPhase i = .exec
  · rw [exec_primitive h hi, State.engineStep_exec (State.accept_phase _ _ _)] at he
    cases he
    have hend := State.execStep_endsWork (s := s.accept (encode i) .exec) (decode_encode i) hi
    exact ⟨hend.inputs, hend.res_of_not_writesRes, hend.res_of_err (State.accept_err _ _ _)⟩
  · rcases exec_cases i s with ⟨hb, -⟩ | ⟨-, n, -, hx⟩ | ⟨-, -, hx⟩
    · exact absurd h hb
    · rw [hx] at he
      cases he
      obtain ⟨-, hinputs, hres⟩ := State.engineSteps_wholeBuffer n (s := s.accept (encode i) (firstPhase i)) hi
      exact ⟨hinputs, fun _ => hres, fun _ => hres⟩
    · rw [hx] at he
      cases he

/-- Settles O42: a busy engine ignores the command, and an idle one runs it with its inputs kept. -/
theorem noCommandWritesAnOperand : Obligations.NoCommandWritesAnOperand := by
  intro i s t he
  refine State.inputs_eq_iff.1 ?_
  by_cases h : s.phase = .idle
  · exact (exec_keeps h he).1
  · rw [exec_busy h] at he
    cases he
    rfl

/-- Settles O44: the work of the other commands does not write RES, and a command that fails has done no work that does. -/
theorem onlyResultCommandsWriteRes : Obligations.OnlyResultCommandsWriteRes := by
  intro i s t h he
  obtain ⟨-, hres, herr⟩ := exec_keeps h he
  refine ⟨fun h1 h2 h3 h4 => hres ?_, herr⟩
  cases i with
  | dlookup | dinsert | dread | uread => contradiction
  | _ => rfl

/-! ### The host's reads and writes (30_encoding.md R60) -/

/-- The bytes written are the bytes read back, as long as they do not go round the whole space onto themselves. -/
theorem State.memReadList_memWriteList : ∀ (l : List Byte) (a : Word) {s : State}, s.mem.wf = true → l.length ≤ 2 ^ 32 →
    (s.memWriteList a l).memReadList a l.length = l
  | [], _, _, _, _ => rfl
  | v :: l, a, s, hm, hl => by
    rw [List.length_cons] at hl
    have htail := State.memReadList_memWriteList l (a + 1) (State.memWrite_wf hm a v) (by omega)
    have hhead : ((s.memWrite a v).memWriteList (a + 1) l).memRead a = v := by
      rw [State.memRead, State.memWriteList_other, State.memWrite_mem, Memory.read_write_same hm]
      intro i hi
      rw [addr_succ]
      simpa using regionAddr_ne a (i := 0) (j := i + 1) (by decide) (by omega) (by omega)
    rw [List.length_cons, State.memReadList, State.memWriteList, hhead, htail]

theorem State.hostMemWrite_idle {s : State} (h : s.phase = .idle) (a : Word) (l : List Byte) :
    s.hostMemWrite a l = .next (s.memWriteList a l) := by
  rw [State.hostMemWrite, State.busy_eq_false h, Bool.false_and, cond_false]

theorem State.hostMemRead_idle {s : State} (h : s.phase = .idle) (a : Word) (n : Nat) :
    s.hostMemRead a n = .next (s.observe (.mem a (s.memReadList a n))) := by
  rw [State.hostMemRead, State.busy_eq_false h, cond_false]

/-- Settles O57: the write changes only memory, so the engine is still idle for the read. -/
theorem hostReadsWhatItWrote : Obligations.HostReadsWhatItWrote := by
  intro s a l h hm hl
  obtain ⟨m, hframe⟩ := State.memWriteList_frame l a s
  have hidle : (s.memWriteList a l).phase = .idle := by rw [hframe]; exact h
  refine ⟨s.memWriteList a l, State.hostMemWrite_idle h a l, ?_, by rw [hframe], fun x => State.memWriteList_other l a s x⟩
  show State.hostMemRead _ a l.length = _
  rw [State.hostMemRead_idle hidle, State.memReadList_memWriteList l a hm hl]
  rfl

theorem State.csrRead_idle {s : State} (h : s.phase = .idle) (off : BitVec 8) :
    s.csrRead off = s.observe (.reg off (s.csrValue off)) := by
  rw [State.csrRead, State.busy_eq_false h, cond_false]

theorem State.csrRead_busy {s : State} (h : s.phase ≠ .idle) (off : BitVec 8) :
    s.csrRead off = s.drawn.observe (.reg off (s.csrValue off)) := by
  rw [State.csrRead, State.busy_eq_true h, cond_true]

/-- Settles O53: a read is one observation, and while busy one draw before it. -/
theorem readsChangeOnlyTheHostRecord : Obligations.ReadsChangeOnlyTheHostRecord := by
  intro s off ha
  have hread : s.hostAccess (.csrRead off) = .next (s.csrRead off) := State.portRead_aligned ha
  rw [hread]
  refine ⟨fun h => ?_, fun h => ?_⟩
  · rw [State.csrRead_idle h]
    rfl
  · rw [State.csrRead_busy h]
    rfl

end Machine

end Sys2Proof
end

section
/-! PROOFS. Obligations of 40_command.md: a command ends, it ends alike whole or step by step, and what it does not depend on. -/

namespace Sys2Proof.Machine

/-! ### Every command is one run of the engine (40_command.md R76, R77, R79) -/

theorem firstPhase_ne_idle (i : Instr) : firstPhase i ≠ .idle := by cases i <;> decide

/-- The step bound under which `exec` runs a command: one step for a primitive (R77). -/
def State.commandBound (s : State) (i : Instr) : Nat :=
  match i with
  | .encode => s.encodeBound
  | .decode => s.decodeBound
  | .nop | .dinit | .dlookup | .dinsert | .dread | .pinit | .pwrite | .pflush | .uinit | .uread => 1

/-- A primitive command, too, is a run of the engine from its acceptance: one step long. -/
theorem State.accept_runEngine_one (s : State) {i : Instr} (hi : firstPhase i = .exec) :
    (s.accept (encode i) .exec).runEngine 1 = .next (s.accept (encode i) .exec).engineStep := by
  have hbusy : (s.accept (encode i) .exec).phase ≠ .idle := nofun
  have hd : decode (s.accept (encode i) .exec).cmd = .ok i := decode_encode i
  have hend : (s.accept (encode i) .exec).engineStep.phase = .idle := by
    rw [State.engineStep_exec (State.accept_phase _ _ _)]
    exact (State.execStep_idle_done hd hi).1
  rw [State.runEngine_busy hbusy, State.runEngine_idle hend]

/-- What `exec` answers from an idle state, for every command alike. -/
theorem exec_eq_runEngine {s : State} (h : s.phase = .idle) (i : Instr) :
    exec i s = (s.accept (encode i) (firstPhase i)).runEngine (s.commandBound i) := by
  cases i with
  | encode => exact exec_encode h
  | decode => exact exec_decode h
  | _ => exact (exec_primitive h rfl).trans (s.accept_runEngine_one rfl).symm

theorem State.accept_stepsLeft_le (s : State) (i : Instr) :
    (s.accept (encode i) (firstPhase i)).stepsLeft ≤ s.commandBound i := by
  cases i with
  | encode =>
    show 4 * s.srcLen.toNat + 2 ≤ 4 * s.srcLen.toNat + 8
    omega
  | decode =>
    show 5 * s.srcLen.toNat + 4 ≤ 5 * s.srcLen.toNat + 8
    omega
  | _ => exact le_rfl

/-- Settles O7: `stepsLeft` falls at every engine step and starts within the bound, and the step that ends the command sets
DONE. -/
theorem everyCommandTerminates : Obligations.EveryCommandTerminates := by
  intro i s h
  have hruns := s.accept_runs i
  have hidle := State.engineSteps_idle_of_stepsLeft _ hruns (s.accept_stepsLeft_le i)
  exact ⟨_, (exec_eq_runEngine h i).trans (State.runEngine_eq_next le_rfl hidle), hidle,
    State.engineSteps_done _ hruns (fun hp => absurd hp (firstPhase_ne_idle i)) hidle⟩

/-- The invariant holds what the measure needs: a primitive command in EXEC, a legal ACFG in the decoder. -/
theorem State.Inv.runs {s : State} (h : s.Inv) : s.Runs := by
  have hlegal := h.legal
  have hwork := h.work
  unfold State.WorkOk at hwork
  unfold State.Runs
  cases hp : s.phase with
  | exec =>
    rw [hp] at hwork
    exact hwork
  | decTest | decRead | decClassify | decWrite | decGrow => exact hlegal
  | _ => trivial

/-- Settles O8: `stepsLeft` bounds the steps to the end from every state of the invariant. -/
theorem busyEngineFinishes : Obligations.BusyEngineFinishes :=
  fun s h => ⟨s.stepsLeft, State.engineSteps_idle_of_stepsLeft _ h.runs le_rfl⟩

/-! ### The engine does not look at the host's list (60_exceptions.md R174)

Replacing the list of accesses still to be made commutes with every engine step, so the steps of a command taken between counts of
a delay are the steps of its whole run. -/

/-- `s` with another list of host accesses still to be made. -/
def State.withHost (l : List HostEvent) (s : State) : State := { s with host := l }

/-- `f` neither reads nor writes the host's list. -/
def HostBlind (f : State → State) : Prop := ∀ (s : State) (l : List HostEvent), f (s.withHost l) = (f s).withHost l

/-- `f`, which can raise an error, neither reads nor writes the host's list. -/
def HostBlindExcept (f : State → Except Err State) : Prop :=
  ∀ (s : State) (l : List HostEvent), f (s.withHost l) = (f s).map (State.withHost l)

/-- A choice commutes with `f` when both its branches do. -/
theorem ite_commutes {α β : Type} (f : α → β) {c : Prop} [Decidable c] {a b : α} {a' b' : β}
    (ha : a' = f a) (hb : b' = f b) : (if c then a' else b') = f (if c then a else b) := by
  rw [apply_ite f, ha, hb]

theorem HostBlindExcept.finish {f : State → Except Err State} (h : HostBlindExcept f) :
    HostBlind fun s => s.finish (f s) := by
  intro s l
  dsimp only
  rw [h s l]
  cases f s <;> rfl

theorem HostBlindExcept.goOn {f : State → Except Err State} (h : HostBlindExcept f) (p : Phase) :
    HostBlind fun s => s.goOn p (f s) := by
  intro s l
  dsimp only
  rw [h s l]
  cases f s <;> rfl

/-! #### The packer -/

theorem State.packBit_withHost (s : State) (b : Bool) (l : List HostEvent) :
    (s.withHost l).packBit b = (s.packBit b).withHost l := by
  by_cases hf : s.pnb.toNat + 1 = 8
  · rw [State.packBit_full (s := s) b hf, State.packBit_full (s := s.withHost l) b hf]
    rfl
  · rw [State.packBit_part (s := s) b hf, State.packBit_part (s := s.withHost l) b hf]
    rfl

theorem State.packBits_withHost (v : Code) (l : List HostEvent) : ∀ (w : Nat) (s : State),
    (s.withHost l).packBits v w = (s.packBits v w).withHost l
  | 0, _ => rfl
  | w + 1, s => by
    rw [State.packBits, State.packBit_withHost, State.packBits_withHost v l w, State.packBits]

theorem State.packWrite_withHost (s : State) (v : Code) (w : Nat) (l : List HostEvent) :
    (s.withHost l).packWrite v w = (s.packWrite v w).map (State.withHost l) := by
  unfold State.packWrite
  rw [State.packBits_withHost]
  exact ite_commutes (Except.map (State.withHost l)) rfl rfl

theorem packFlush_hostBlind : HostBlindExcept State.packFlush := by
  intro s l
  by_cases hp : s.pnb = 0
  · rw [State.packFlush, State.packFlush, if_pos hp, if_pos (show (s.withHost l).pnb = 0 from hp)]
    rfl
  · rw [State.packFlush, State.packFlush, if_neg hp, if_neg (show ¬ (s.withHost l).pnb = 0 from hp)]
    exact ite_commutes (Except.map (State.withHost l)) rfl rfl

theorem State.emit_withHost (s : State) (c : Code) (n : Nat) (l : List HostEvent) :
    (s.withHost l).emit c n = (s.emit c n).map (State.withHost l) :=
  s.packWrite_withHost c _ l

/-! #### The unpacker -/

theorem State.skipBit_withHost (s : State) (l : List HostEvent) : (s.withHost l).skipBit = s.skipBit.withHost l := by
  unfold State.skipBit
  exact ite_commutes (State.withHost l) rfl rfl

theorem State.unpackBits_withHost (l : List HostEvent) : ∀ (w v : Nat) (s : State),
    (s.withHost l).unpackBits v w = ((s.unpackBits v w).1, (s.unpackBits v w).2.withHost l)
  | 0, _, _ => rfl
  | w + 1, v, s => by
    have hbit : (s.withHost l).nextBit = s.nextBit := rfl
    rw [State.unpackBits, State.skipBit_withHost, hbit, State.unpackBits_withHost l w, State.unpackBits]

theorem State.unpackRead_withHost (s : State) (w : Nat) (l : List HostEvent) :
    (s.withHost l).unpackRead w = (s.unpackRead w).map fun r => (r.1, r.2.withHost l) := by
  unfold State.unpackRead
  rw [State.unpackBits_withHost]
  exact ite_commutes (Except.map fun r : Code × State => (r.1, r.2.withHost l)) rfl rfl

/-! #### The primitive commands -/

theorem dinitBody_hostBlind : HostBlind State.dinitBody := by
  refine HostBlindExcept.finish fun s l => ?_
  have hcheck : (s.withHost l).cfgCheck = s.cfgCheck := rfl
  rw [hcheck]
  cases s.cfgCheck <;> rfl

theorem dlookupBody_hostBlind : HostBlind State.dlookupBody := by
  intro s l
  have hlookup : (s.withHost l).lookup (s.withHost l).codeArg (s.withHost l).symbolArg = s.lookup s.codeArg s.symbolArg := rfl
  unfold State.dlookupBody
  rw [hlookup]
  cases s.lookup s.codeArg s.symbolArg <;> rfl

theorem dinsertBody_hostBlind : HostBlind State.dinsertBody := by
  refine HostBlindExcept.finish fun s l => ?_
  have hfull : (s.withHost l).isFull = s.isFull := rfl
  have hentry : (s.withHost l).isEntry (s.withHost l).codeArg.toNat = s.isEntry s.codeArg.toNat := rfl
  rw [hfull, hentry]
  cases s.isFull
  · cases s.isEntry s.codeArg.toNat <;> rfl
  · rfl

theorem dreadBody_hostBlind : HostBlind State.dreadBody := by
  refine HostBlindExcept.finish fun s l => ?_
  have harg : (s.withHost l).codeArg = s.codeArg := rfl
  have hentry : (s.withHost l).entry? s.codeArg.toNat = s.entry? s.codeArg.toNat := rfl
  rw [harg, hentry]
  split
  · rfl
  · cases s.entry? s.codeArg.toNat <;> rfl

theorem pwriteBody_hostBlind : HostBlind State.pwriteBody := by
  refine HostBlindExcept.finish fun s l => ?_
  have hcode : (s.withHost l).codeArg = s.codeArg := rfl
  have hwidth : (s.withHost l).widthArg = s.widthArg := rfl
  rw [hcode, hwidth, State.packWrite_withHost]
  exact ite_commutes (Except.map (State.withHost l)) rfl rfl

theorem ureadBody_hostBlind : HostBlind State.ureadBody := by
  refine HostBlindExcept.finish fun s l => ?_
  have hwidth : (s.withHost l).widthArg = s.widthArg := rfl
  rw [hwidth, State.unpackRead_withHost]
  split
  · rfl
  · cases s.unpackRead s.widthArg.toNat <;> rfl

theorem execStep_hostBlind : HostBlind State.execStep := by
  intro s l
  have hcmd : (s.withHost l).cmd = s.cmd := rfl
  unfold State.execStep
  rw [hcmd]
  cases decode s.cmd with
  | error r => rfl
  | ok i =>
    cases i with
    | nop | pinit | uinit | encode | decode => rfl
    | dinit => exact dinitBody_hostBlind s l
    | dlookup => exact dlookupBody_hostBlind s l
    | dinsert => exact dinsertBody_hostBlind s l
    | dread => exact dreadBody_hostBlind s l
    | pwrite => exact pwriteBody_hostBlind s l
    | pflush => exact packFlush_hostBlind.finish s l
    | uread => exact ureadBody_hostBlind s l

/-! #### The rows of ENCODE (44_encoder.md R128) -/

theorem encStartStep_hostBlind : HostBlind State.encStartStep := by
  intro s l
  have hcheck : (s.withHost l).startCheck (s.withHost l).dstCap = s.startCheck s.dstCap := rfl
  unfold State.encStartStep
  rw [hcheck]
  cases s.startCheck s.dstCap <;> rfl

theorem encNextStep_hostBlind : HostBlind State.encNextStep := by
  intro s l
  unfold State.encNextStep
  exact ite_commutes (State.withHost l) rfl rfl

theorem encLookupStep_hostBlind : HostBlind State.encLookupStep := by
  intro s l
  have hlookup : (s.withHost l).lookup (s.withHost l).cur (s.withHost l).b = s.lookup s.cur s.b := rfl
  unfold State.encLookupStep
  rw [hlookup]
  cases s.lookup s.cur s.b <;> rfl

theorem growTable_hostBlind : HostBlindExcept State.growTable := by
  intro s l
  have hroom : (s.withHost l).dsize < (s.withHost l).acfg.maxSize ↔ s.dsize < s.acfg.maxSize := Iff.rfl
  have hctrl : (s.withHost l).acfg.ctrl = s.acfg.ctrl := rfl
  have hemit : (s.withHost l).emit clearCode (s.withHost l).dsize = _ := s.emit_withHost clearCode s.dsize l
  unfold State.growTable
  simp only [hroom, hctrl, hemit]
  split
  · rfl
  · split
    · cases s.emit clearCode s.dsize <;> rfl
    · rfl

theorem encGrowStep_hostBlind : HostBlind State.encGrowStep := by
  refine HostBlindExcept.goOn (fun s l => ?_) .encNext
  rw [growTable_hostBlind s l]
  cases s.growTable <;> rfl

theorem encEmitStep_hostBlind : HostBlind State.encEmitStep :=
  HostBlindExcept.goOn (fun s l => s.emit_withHost s.cur s.dsize l) .encGrow

theorem encFinalStep_hostBlind : HostBlind State.encFinalStep :=
  HostBlindExcept.goOn (fun s l => s.emit_withHost s.cur s.dsize l) .encEnd

theorem encEndStep_hostBlind : HostBlind State.encEndStep := by
  refine HostBlindExcept.goOn (fun s l => ?_) .encFlush
  have hctrl : (s.withHost l).acfg.ctrl = s.acfg.ctrl := rfl
  rw [hctrl]
  cases s.acfg.ctrl
  · rfl
  · exact s.emit_withHost endCode (s.dsize + 1) l

/-! #### The rows of DECODE (45_decoder.md R151) -/

theorem State.walk_withHost (s : State) (l : List HostEvent) : ∀ (fuel k : Nat) (out : List Byte),
    (s.withHost l).walk k out fuel = s.walk k out fuel
  | 0, _, _ => rfl
  | fuel + 1, k, out => by
    have hentry : (s.withHost l).entry? k = s.entry? k := rfl
    unfold State.walk
    rw [hentry]
    simp only [State.walk_withHost s l fuel]

theorem State.expand_withHost (s : State) (c : Code) (l : List HostEvent) : (s.withHost l).expand c = s.expand c := by
  have hfuel : (s.withHost l).acfg.maxSize = s.acfg.maxSize := rfl
  unfold State.expand
  rw [hfuel, State.walk_withHost]
  rfl

theorem State.codeString_withHost (s : State) (l : List HostEvent) : (s.withHost l).codeString = s.codeString := by
  unfold State.codeString
  rw [State.expand_withHost, State.expand_withHost]
  rfl

theorem State.putBytes_withHost (l : List HostEvent) : ∀ (bytes : List Byte) (s : State),
    (s.withHost l).putBytes bytes = (s.putBytes bytes).withHost l
  | [], _ => rfl
  | v :: vs, s => State.putBytes_withHost l vs (s.putByte v)

theorem decStartStep_hostBlind : HostBlind State.decStartStep := by
  intro s l
  have hcheck : (s.withHost l).startCheck (s.withHost l).targetLen = s.startCheck s.targetLen := rfl
  unfold State.decStartStep
  rw [hcheck]
  cases s.startCheck s.targetLen <;> rfl

theorem decTestStep_hostBlind : HostBlind State.decTestStep := by
  intro s l
  unfold State.decTestStep
  exact ite_commutes (State.withHost l) rfl rfl

theorem decReadStep_hostBlind : HostBlind State.decReadStep := by
  intro s l
  have hwidth : (s.withHost l).readWidth = s.readWidth := rfl
  unfold State.decReadStep
  rw [hwidth, State.unpackRead_withHost]
  cases s.unpackRead s.readWidth <;> rfl

theorem decClassifyStep_hostBlind : HostBlind State.decClassifyStep := by
  intro s l
  have hctrl : (s.withHost l).acfg.ctrl = s.acfg.ctrl := rfl
  have hcode : (s.withHost l).code = s.code := rfl
  have hfull : (s.withHost l).isFull = s.isFull := rfl
  unfold State.decClassifyStep
  rw [State.codeString_withHost, hctrl, hcode, hfull]
  split
  · rfl
  · split
    · rfl
    · split
      · rfl
      · cases s.codeString <;> rfl

theorem decWriteStep_hostBlind : HostBlind State.decWriteStep := by
  intro s l
  have hbytes : (s.withHost l).putBytes (s.withHost l).seq = _ := State.putBytes_withHost l s.seq s
  unfold State.decWriteStep
  rw [hbytes]
  exact ite_commutes (State.withHost l) rfl rfl

theorem decInsert_hostBlind : HostBlind State.decInsert := by
  intro s l
  unfold State.decInsert
  exact ite_commutes (State.withHost l) rfl rfl

theorem decGrowStep_hostBlind : HostBlind State.decGrowStep := by
  intro s l
  unfold State.decGrowStep
  rw [decInsert_hostBlind s l]
  exact ite_commutes (State.withHost l) rfl rfl

/-! #### Every engine step -/

theorem engineStep_hostBlind : HostBlind State.engineStep := by
  intro s l
  have hphase : (s.withHost l).phase = s.phase := rfl
  unfold State.engineStep
  rw [hphase]
  cases s.phase with
  | idle | encFirst => rfl
  | exec => exact execStep_hostBlind s l
  | encStart => exact encStartStep_hostBlind s l
  | encNext => exact encNextStep_hostBlind s l
  | encLookup => exact encLookupStep_hostBlind s l
  | encEmit => exact encEmitStep_hostBlind s l
  | encGrow => exact encGrowStep_hostBlind s l
  | encFinal => exact encFinalStep_hostBlind s l
  | encEnd => exact encEndStep_hostBlind s l
  | encFlush => exact packFlush_hostBlind.finish s l
  | decStart => exact decStartStep_hostBlind s l
  | decTest => exact decTestStep_hostBlind s l
  | decRead => exact decReadStep_hostBlind s l
  | decClassify => exact decClassifyStep_hostBlind s l
  | decWrite => exact decWriteStep_hostBlind s l
  | decGrow => exact decGrowStep_hostBlind s l

/-! ### A command taken step by step (40_command.md R77) -/

theorem run_succ_of_step {s t : State} (h : step s = .next t) (n : Nat) :
    Host.Core.run Sys2Proof.core (n + 1) s = Host.Core.run Sys2Proof.core n t := by
  have hcore : Sys2Proof.core.step s = .next t := h
  simp only [Host.Core.run, hcore]

/-- While the engine is busy and the next access is not due, a step of the machine is one engine step, and counts the delay
down. -/
theorem step_withHost_notDue {s : State} (hb : s.phase ≠ .idle) {op : HostOp} (hop : op ≠ .wait) (k : Nat)
    (rest : List HostEvent) :
    step (s.withHost (⟨k + 1, op⟩ :: rest)) = .next (s.engineStep.withHost (⟨k, op⟩ :: rest)) := by
  rw [← engineStep_hostBlind s]
  exact step_notDue (s := s.withHost (⟨k + 1, op⟩ :: rest)) hb rfl hop

/-- `n` steps of the machine take `s` to `t`, and count an access that is not due before then down by `n`. -/
def State.ReachesBeforeDue (s t : State) (n : Nat) : Prop :=
  ∀ (k : Nat) (op : HostOp) (rest : List HostEvent), n ≤ k → op ≠ .wait →
    Host.Core.run Sys2Proof.core n (s.withHost (⟨k, op⟩ :: rest)) = .next (t.withHost (⟨k - n, op⟩ :: rest))

theorem State.ReachesBeforeDue.refl (s : State) : s.ReachesBeforeDue s 0 := fun _ _ _ _ _ => rfl

theorem State.ReachesBeforeDue.of_engineStep {s t : State} {n : Nat} (hb : s.phase ≠ .idle)
    (h : s.engineStep.ReachesBeforeDue t n) : s.ReachesBeforeDue t (n + 1) := by
  intro k op rest hk hop
  obtain ⟨k, rfl⟩ := Nat.exists_eq_add_one_of_ne_zero (Nat.ne_zero_of_lt hk)
  rw [run_succ_of_step (step_withHost_notDue hb hop k rest), h k op rest (by omega) hop, Nat.add_sub_add_right]

/-- The state that a whole run answers is reached by the machine's own steps, one for each engine step. -/
theorem State.runEngine_reaches : ∀ (b : Nat) {s t : State}, s.runEngine b = .next t → ∃ n, s.ReachesBeforeDue t n
  | b, s, t, h => by
    by_cases hi : s.phase = .idle
    · rw [State.runEngine_idle hi] at h
      cases h
      exact ⟨0, .refl s⟩
    · cases b with
      | zero =>
        rw [State.runEngine, if_neg hi] at h
        cases h
      | succ b =>
        rw [State.runEngine_busy hi] at h
        obtain ⟨n, hn⟩ := State.runEngine_reaches b h
        exact ⟨n + 1, hn.of_engineStep hi⟩

/-- A write at the offset of CMD is a write of CMD (R21, R57). -/
theorem State.portWrite_cmd (s : State) (w : Word) : s.portWrite 0x14 w = s.writeCmd w := rfl

/-- A host that does not wait for its command only has it accepted (log entry 6). -/
theorem step_accepts {s : State} (h : s.phase = .idle) (i : Instr) (j k : Nat) {op : HostOp} (hop : op ≠ .wait)
    (rest : List HostEvent) :
    step (s.withHost (⟨j, .csrWrite 0x14 (encode i)⟩ :: ⟨k, op⟩ :: rest)) =
      .next ((s.accept (encode i) (firstPhase i)).withHost (⟨k, op⟩ :: rest)) := by
  have hwaits : hostWaits (⟨k, op⟩ :: rest) = false := decide_eq_false hop
  rw [step_idle (s := s.withHost (⟨j, .csrWrite 0x14 (encode i)⟩ :: ⟨k, op⟩ :: rest)) h rfl]
  exact State.writeCmd_accepted (s := s.withHost (⟨k, op⟩ :: rest)) h (decode_encode i) hwaits

/-- Settles O6: after the step that accepts the command, each step is an engine step until the command ends, because the
engine does not look at the host's list. -/
theorem interleavedRunsEndWhereWholeRunsEnd : Obligations.InterleavedRunsEndWhereWholeRunsEnd := by
  intro i s t h hexec
  rw [exec_eq_runEngine h] at hexec
  obtain ⟨n, hn⟩ := State.runEngine_reaches _ hexec
  refine ⟨n, fun j k op rest hk hop => ?_⟩
  exact (run_succ_of_step (step_accepts h i j k hop rest) n).trans (hn k op rest hk hop)

/-! ### A write of CMD as a step (40_command.md R75, R77) -/

/-- Settles O5: by offset or bus address the access is a write of CMD, and a waiting host has the whole command run. -/
theorem stepRunsTheDecodedCommand : Obligations.StepRunsTheDecodedCommand := by
  intro s k op w rest i h hop hs hw hd
  have haccess : ({ s with host := rest } : State).hostAccess op = ({ s with host := rest } : State).portWrite 0x14 w := by
    rcases hop with rfl | rfl
    · rfl
    · exact State.hostAccess_busWrite _ 0x14 w
  rw [step_idle h hs, haccess, State.portWrite_cmd]
  exact State.writeCmd_waited (s := { s with host := rest }) h hd hw

/-! ### NOP (40_command.md R78) -/

theorem exec_nop {s : State} (h : s.phase = .idle) : exec .nop s = .next (s.ended .nop) :=
  (State.runPrimitive_idle h .nop State.nopBody).trans (congrArg _ (State.accept_complete h .nop .exec))

/-- A word other than 0 whose OP is 0 has a reserved bit set (R57). -/
theorem reserved_of_opField_zero {w : Word} (hop : opField w = 0) (hw : w ≠ 0) : 16 ≤ w.toNat := by
  have hmod : w.toNat % 16 = 0 := by rw [← opField_toNat, hop]; rfl
  have hne : w.toNat ≠ 0 := fun h0 => hw (BitVec.eq_of_toNat_eq h0)
  omega

/-- Settles O13: NOP is its acceptance and completion, and the other words with OP = 0 are refused for their reserved bits. -/
theorem nopOnlyCompletes : Obligations.NopOnlyCompletes := by
  refine ⟨rfl, fun s h => ⟨exec_nop h, fun w hop hw => ?_⟩⟩
  have hd := decode_of_reserved (reserved_of_opField_zero hop hw)
  exact (State.writeCmd_illegal h hd).trans (congrArg _ (State.accept_raise_word h w .exec _))

/-! ### What acceptance overwrites (40_command.md R75, 60_exceptions.md R171) -/

/-- Settles O41: `exec` runs the accepted state, and acceptance writes all five. -/
theorem anErrorDoesNotTouchTheNextCommand : Obligations.AnErrorDoesNotTouchTheNextCommand := by
  intro i s d hit e x w h
  have hbound : ({ s with done := d, hit := hit, err := e, errInfo := x, cmd := w } : State).commandBound i =
      s.commandBound i := by cases i <;> rfl
  rw [exec_eq_runEngine h, exec_eq_runEngine (s := { s with done := d, hit := hit, err := e, errInfo := x, cmd := w }) h, hbound]
  rfl

end Sys2Proof.Machine
end

section
/-! PROOFS. Obligations of 41_dictionary.md: the code-width tracker, and the commands DINIT, DLOOKUP, DINSERT and DREAD. -/

namespace Sys2Proof.Machine

/-! ### The code-width tracker (41_dictionary.md R85, R86) -/

theorem CfgFields.widthOf_mono (c : CfgFields) {m n : Nat} (h : m ≤ n) : c.widthOf m ≤ c.widthOf n :=
  min_le_min_left _ (max_le_max_left _ (bitlen_mono h))

/-- A code below a size within max_size fits the width at that size, since neither MAXW nor the size's own `bitlen` is too small
for it (R86 item 2). -/
theorem CfgFields.lt_two_pow_widthOf {c : CfgFields} {n k : Nat} (hn : n ≤ c.maxSize) (hk : k < n) : k < 2 ^ c.widthOf n := by
  have hmax : bitlen k ≤ c.maxw := (bitlen_le_iff k _).2 (hk.trans_le hn)
  exact (bitlen_le_iff k _).1 (le_min hmax (le_max_of_le_right (bitlen_mono hk.le)))

theorem CfgFields.bitlen_firstFree (c : CfgFields) : bitlen c.firstFree = 9 := by
  have hff := c.firstFree_cases
  have hle : bitlen c.firstFree ≤ 9 := (bitlen_le_iff _ 9).2 (by omega)
  have hnot : ¬ bitlen c.firstFree ≤ 8 := fun hle8 => by
    have hlt := (bitlen_le_iff _ 8).1 hle8
    omega
  omega

theorem CfgFields.widthOf_firstFree {c : CfgFields} (h : c.legal = true) : c.widthOf c.firstFree = c.initw := by
  obtain ⟨-, -, hinit, hle⟩ := (CfgFields.legal_iff c).1 h
  rw [CfgFields.widthOf, CfgFields.bitlen_firstFree, max_eq_left hinit, min_eq_right hle]

/-- Settles O12: `bitlen n ≤ w` says `n < 2^w`, so `bitlen` is monotone and bounds every code below the size. -/
theorem codeWidthHoldsEveryAllocatedCode : Obligations.CodeWidthHoldsEveryAllocatedCode :=
  fun c hc => ⟨bitlen_le_iff, fun _ => rfl, fun _ _ => c.widthOf_mono, fun _ _ => CfgFields.lt_two_pow_widthOf,
    CfgFields.widthOf_firstFree hc⟩

/-! ### One-step commands (40_command.md R75 to R77, 60_exceptions.md R168) -/

/-- A primitive command whose work raises an error leaves only the error ending. -/
theorem State.runPrimitive_raises {s : State} (h : s.phase = .idle) {i : Instr} {body : State → State} {e : Err}
    (hb : body (s.accept (encode i) (firstPhase i)) = (s.accept (encode i) (firstPhase i)).raise e) :
    s.runPrimitive i body = .next (s.failed i e) := by
  rw [State.runPrimitive_idle h, hb, State.accept_raise h]

/-! ### DINIT (R87, R93) -/

theorem State.dinitBody_error {s : State} {e : Err} (he : s.cfgCheck = .error e) : s.dinitBody = s.raise e := by
  rw [State.dinitBody, he, State.finish_error]

theorem State.dinitBody_legal {s : State} (hc : s.cfg.legal = true) : s.dinitBody = s.latchAndInit.complete := by
  rw [State.dinitBody, (State.cfgCheck_eq_ok_iff s).2 hc, State.finish_ok]

theorem exec_dinit_error {s : State} (h : s.phase = .idle) {e : Err} (he : s.cfgCheck = .error e) :
    exec .dinit s = .next (s.failed .dinit e) :=
  State.runPrimitive_raises h (State.dinitBody_error (s := s.accept _ _) he)

theorem exec_dinit_legal {s : State} (h : s.phase = .idle) (hc : s.cfg.legal = true) :
    exec .dinit s = .next { s.ended .dinit with acfg := s.cfg, dict := [] } := by
  rw [← State.accept_complete h .dinit .exec]
  exact (State.runPrimitive_idle h .dinit _).trans (congrArg _ (State.dinitBody_legal (s := s.accept _ _) hc))

/-- A table just emptied under a legal configuration has room: FIRST_FREE is below every max_size. -/
theorem CfgFields.firstFree_lt_maxSize {c : CfgFields} (h : c.legal = true) : c.firstFree < c.maxSize := by
  have hff := c.firstFree_cases
  have hmax := (CfgFields.maxSize_bounds h).1
  omega

theorem State.isFull_eq_false {s : State} (h : s.dsize ≠ s.acfg.maxSize) : s.isFull = false := decide_eq_false h

/-- Settles O14: R87's check decides between the latch and the two errors. -/
theorem dinitLatchesOrRefusesTheConfiguration : Obligations.DinitLatchesOrRefusesTheConfiguration := by
  refine ⟨rfl, fun s h => ⟨fun hm1 hm2 hi1 hi2 => ?_, fun hm => ?_, fun hm1 hm2 hi => ?_⟩⟩
  · have hc : s.cfg.legal = true := (CfgFields.legal_iff _).2 ⟨hm1, hm2, hi1, hi2⟩
    refine ⟨exec_dinit_legal h hc, ?_, State.isFull_eq_false (CfgFields.firstFree_lt_maxSize hc).ne⟩
    show s.cfg.firstFree + 0 = _
    rcases s.cfg.firstFree_cases with ⟨hctrl, hff⟩ | ⟨hctrl, hff⟩ <;> rw [hctrl, hff] <;> rfl
  · exact exec_dinit_error h ((State.cfgCheck_eq_error_iff s _).2 (.inl ⟨hm, rfl⟩))
  · exact exec_dinit_error h ((State.cfgCheck_eq_error_iff s _).2 (.inr ⟨⟨hm1, hm2⟩, hi, rfl⟩))

/-! ### DLOOKUP (R89, R94) -/

/-- The code of the entry at a place of the table (R29). -/
theorem State.entry?_firstFree_add (s : State) (n : Nat) : s.entry? (s.acfg.firstFree + n) = s.dict[n]? := by
  rw [State.entry?, if_neg (by omega), Nat.add_sub_cancel_left]

/-- R89: `lookup` answers the least code that holds the pair. -/
theorem State.lookup_eq_some {s : State} {p : Code} {y : Byte} {c : Nat} (hc : s.entry? c = some ⟨p, y⟩)
    (hleast : ∀ c' < c, s.entry? c' ≠ some ⟨p, y⟩) : s.lookup p y = some (BitVec.ofNat 16 c) := by
  obtain ⟨hff, -, hd⟩ := State.entry?_eq_some hc
  have hfind : findPair p y s.dict = some (c - s.acfg.firstFree) := by
    refine (findPair_eq_some_iff p y _ _).2 ⟨hd, fun m hm => ?_⟩
    rw [← State.entry?_firstFree_add]
    exact hleast _ (by omega)
  rw [State.lookup, hfind, Option.map_some, Nat.add_sub_cancel' hff]

theorem State.lookup_eq_none {s : State} {p : Code} {y : Byte} (hno : ∀ c, s.entry? c ≠ some ⟨p, y⟩) :
    s.lookup p y = none := by
  refine Option.map_eq_none_iff.2 ((findPair_eq_none_iff p y _).2 fun n => ?_)
  rw [← State.entry?_firstFree_add]
  exact hno _

theorem State.dlookupBody_hit {s : State} {r : Code} (hr : s.lookup s.codeArg s.symbolArg = some r) :
    s.dlookupBody = ({ s with res := r.setWidth 32, hit := true } : State).complete := by
  rw [State.dlookupBody, hr]

theorem State.dlookupBody_miss {s : State} (hr : s.lookup s.codeArg s.symbolArg = none) :
    s.dlookupBody = ({ s with res := 0, hit := false } : State).complete := by
  rw [State.dlookupBody, hr]

theorem exec_dlookup_hit {s : State} (h : s.phase = .idle) {r : Code} (hr : s.lookup s.codeArg s.symbolArg = some r) :
    exec .dlookup s = .next { s.ended .dlookup with res := r.setWidth 32, hit := true } := by
  rw [← State.accept_complete h .dlookup .exec]
  exact (State.runPrimitive_idle h .dlookup _).trans (congrArg _ (State.dlookupBody_hit (s := s.accept _ _) hr))

theorem exec_dlookup_miss {s : State} (h : s.phase = .idle) (hr : s.lookup s.codeArg s.symbolArg = none) :
    exec .dlookup s = .next { s.ended .dlookup with res := 0 } := by
  rw [← State.accept_complete h .dlookup .exec]
  exact (State.runPrimitive_idle h .dlookup _).trans (congrArg _ (State.dlookupBody_miss (s := s.accept _ _) hr))

theorem setWidth_ofNat_code {c : Nat} (h : c < 65536) : (BitVec.ofNat 16 c).setWidth 32 = BitVec.ofNat 32 c := by
  apply BitVec.eq_of_toNat_eq
  rw [BitVec.toNat_setWidth, BitVec.toNat_ofNat, BitVec.toNat_ofNat]
  omega

/-- R94 on a hit: the least code of the pair, which fits RES as long as D.size is within the largest table. -/
theorem exec_dlookup_least {s : State} (h : s.phase = .idle) (hsize : s.dsize ≤ 65536) {c : Nat}
    (hc : s.entry? c = some ⟨s.codeArg, s.symbolArg⟩) (hleast : ∀ c' < c, s.entry? c' ≠ some ⟨s.codeArg, s.symbolArg⟩) :
    exec .dlookup s = .next { s.ended .dlookup with res := BitVec.ofNat 32 c, hit := true } := by
  have hlt : c < 65536 := (State.entry?_eq_some hc).2.1.trans_le hsize
  rw [exec_dlookup_hit h (State.lookup_eq_some hc hleast), setWidth_ofNat_code hlt]

/-- Settles O15: `lookup` finds the least code; under LinksBack every entry links to an allocated code. -/
theorem dlookupAnswersTheLeastCode : Obligations.DlookupAnswersTheLeastCode := by
  refine ⟨rfl, fun s h hsize => ⟨fun c hc hleast => exec_dlookup_least h hsize hc hleast, fun hno => ?_, fun hl hp => ?_⟩⟩
  · exact exec_dlookup_miss h (State.lookup_eq_none hno)
  · refine exec_dlookup_miss h (State.lookup_eq_none fun c hc => hp ?_)
    exact (State.isEntry_iff s _).1 (hl.pre_isEntry hc).2

/-! ### DINSERT (R90, R95) -/

/-- R90: the new pair takes the code `D.size`, and every other code keeps its entry. -/
theorem State.entry?_insert (s : State) (p : Code) (y : Byte) (c : Nat) :
    (s.insert p y).entry? c = if c = s.dsize then some ⟨p, y⟩ else s.entry? c := by
  unfold State.entry? State.dsize
  rw [State.insert_acfg, State.insert_dict]
  by_cases hff : c < s.acfg.firstFree
  · rw [if_pos hff, if_pos hff, if_neg (by omega)]
  · obtain ⟨n, rfl⟩ := Nat.exists_eq_add_of_le (Nat.le_of_not_lt hff)
    rw [if_neg hff, if_neg hff, Nat.add_sub_cancel_left]
    rcases lt_trichotomy n s.dict.length with hn | rfl | hn
    · rw [if_neg (by omega), List.getElem?_append_left hn]
    · rw [if_pos rfl, List.getElem?_concat_length]
    · rw [if_neg (by omega), List.getElem?_eq_none (by simpa using hn), List.getElem?_eq_none hn.le]

theorem State.entry?_insert_same (s : State) (p : Code) (y : Byte) : (s.insert p y).entry? s.dsize = some ⟨p, y⟩ := by
  rw [State.entry?_insert, if_pos rfl]

theorem State.entry?_insert_other (s : State) (p : Code) (y : Byte) {c : Nat} (h : c ≠ s.dsize) :
    (s.insert p y).entry? c = s.entry? c := by
  rw [State.entry?_insert, if_neg h]

theorem State.dinsertBody_full {s : State} (hf : s.isFull = true) : s.dinsertBody = s.raise (Err.illegal 3) := by
  rw [State.dinsertBody, if_pos hf, State.finish_error]

theorem State.dinsertBody_badPrefix {s : State} (hf : s.isFull = false) (hp : s.isEntry s.codeArg.toNat = false) :
    s.dinsertBody = s.raise (Err.illegal 4) := by
  rw [State.dinsertBody, if_neg (by simp [hf]), if_pos hp, State.finish_error]

theorem State.dinsertBody_room {s : State} (hf : s.isFull = false) (hp : s.isEntry s.codeArg.toNat = true) :
    s.dinsertBody = ({ s.insert s.codeArg s.symbolArg with res := BitVec.ofNat 32 s.dsize } : State).complete := by
  rw [State.dinsertBody, if_neg (by simp [hf]), if_neg (by simp [hp]), State.finish_ok]

theorem exec_dinsert_full {s : State} (h : s.phase = .idle) (hf : s.isFull = true) :
    exec .dinsert s = .next (s.failed .dinsert (Err.illegal 3)) :=
  State.runPrimitive_raises h (State.dinsertBody_full (s := s.accept _ _) hf)

theorem exec_dinsert_badPrefix {s : State} (h : s.phase = .idle) (hf : s.isFull = false)
    (hp : s.isEntry s.codeArg.toNat = false) : exec .dinsert s = .next (s.failed .dinsert (Err.illegal 4)) :=
  State.runPrimitive_raises h (State.dinsertBody_badPrefix (s := s.accept _ _) hf hp)

theorem exec_dinsert_room {s : State} (h : s.phase = .idle) (hf : s.isFull = false)
    (hp : s.isEntry s.codeArg.toNat = true) :
    exec .dinsert s =
      .next { (s.insert s.codeArg s.symbolArg).ended .dinsert with res := BitVec.ofNat 32 s.dsize } := by
  rw [← State.accept_complete (s := s.insert s.codeArg s.symbolArg) h .dinsert .exec]
  exact (State.runPrimitive_idle h .dinsert _).trans (congrArg _ (State.dinsertBody_room (s := s.accept _ _) hf hp))

/-- A DINSERT that ends without an error has inserted the pair of its operands: both checks have passed. -/
theorem exec_dinsert_noError {s t : State} (h : s.phase = .idle) (ht : exec .dinsert s = .next t) (herr : t.err = none) :
    s.isFull = false ∧ t = { (s.insert s.codeArg s.symbolArg).ended .dinsert with res := BitVec.ofNat 32 s.dsize } := by
  cases hf : s.isFull with
  | true =>
    rw [exec_dinsert_full h hf] at ht
    cases ht
    cases herr
  | false =>
    cases hp : s.isEntry s.codeArg.toNat with
    | false =>
      rw [exec_dinsert_badPrefix h hf hp] at ht
      cases ht
      cases herr
    | true =>
      rw [exec_dinsert_room h hf hp] at ht
      cases ht
      exact ⟨rfl, rfl⟩

/-- Settles O16: the full check, then the check of the code, then the insertion at `D.size`. -/
theorem dinsertAssignsTheNextCode : Obligations.DinsertAssignsTheNextCode := by
  refine ⟨rfl, fun s h => ⟨fun hf => ?_, fun hf hp => ?_, fun hf hp => ?_⟩⟩
  · exact exec_dinsert_full h ((State.isFull_iff s).2 hf)
  · exact exec_dinsert_badPrefix h (State.isFull_eq_false hf) (decide_eq_false hp)
  · have hsize := State.insert_dsize s s.codeArg s.symbolArg
    refine ⟨(s.insert s.codeArg s.symbolArg).dict, exec_dinsert_room h (State.isFull_eq_false hf) (decide_eq_true hp),
      hsize, ?_, s.entry?_insert_same s.codeArg s.symbolArg, fun c => s.entry?_insert_other s.codeArg s.symbolArg⟩
    rw [← hsize]
    exact State.isFull_iff (s.insert s.codeArg s.symbolArg)

/-! ### DREAD (R59, R96) -/

theorem singletonRes_eq {c : Code} (h : c.toNat ≤ 255) : singletonRes c = BitVec.ofNat 32 (2 ^ 24 + c.toNat * 2 ^ 16) := by
  have hlt : c.toNat * 2 ^ 16 < 2 ^ 24 := by omega
  have hor := Nat.two_pow_add_eq_or_of_lt hlt 1
  apply BitVec.eq_of_toNat_eq
  simp only [singletonRes, BitVec.toNat_or, BitVec.toNat_shiftLeft, BitVec.toNat_setWidth, BitVec.toNat_ofNat,
    Nat.shiftLeft_eq]
  rw [Nat.mod_eq_of_lt (by omega : c.toNat < 2 ^ 32), Nat.mod_eq_of_lt (by omega : c.toNat * 2 ^ 16 < 2 ^ 32),
    Nat.mod_eq_of_lt (by omega : 2 ^ 24 + c.toNat * 2 ^ 16 < 2 ^ 32)]
  exact hor.symm

theorem entryRes_eq (e : Entry) : entryRes e = BitVec.ofNat 32 (e.sym.toNat * 2 ^ 16 + e.pre.toNat) := by
  have hsym := e.sym.isLt
  have hpre := e.pre.isLt
  have hor := Nat.shiftLeft_add_eq_or_of_lt hpre e.sym.toNat
  apply BitVec.eq_of_toNat_eq
  simp only [entryRes, BitVec.toNat_or, BitVec.toNat_shiftLeft, BitVec.toNat_setWidth, BitVec.toNat_ofNat]
  rw [Nat.mod_eq_of_lt (by omega : e.sym.toNat < 2 ^ 32), Nat.mod_eq_of_lt (by omega : e.pre.toNat < 2 ^ 32),
    Nat.mod_eq_of_lt (by rw [Nat.shiftLeft_eq]; omega : e.sym.toNat <<< 16 < 2 ^ 32), ← hor, Nat.shiftLeft_eq,
    Nat.mod_eq_of_lt (by omega)]

/-- Below FIRST_FREE and from D.size on no code has an entry (R29). -/
theorem State.entry?_eq_none {s : State} {c : Nat} (h : c < s.acfg.firstFree ∨ s.dsize ≤ c) : s.entry? c = none := by
  cases he : s.entry? c with
  | none => rfl
  | some e =>
    obtain ⟨hff, hsize, -⟩ := State.entry?_eq_some he
    omega

/-- A code with an entry is no singleton, since FIRST_FREE is above every singleton (R29). -/
theorem State.not_singleton_of_entry {s : State} {c : Nat} {e : Entry} (he : s.entry? c = some e) : ¬ c ≤ 255 := by
  have hff := (State.entry?_eq_some he).1
  have := CfgFields.firstFree_cases s.acfg
  omega

theorem State.dreadBody_singleton {s : State} (hc : s.codeArg.toNat ≤ 255) :
    s.dreadBody = ({ s with res := singletonRes s.codeArg } : State).complete := by
  rw [State.dreadBody, if_pos hc, State.finish_ok]

theorem State.dreadBody_entry {s : State} {e : Entry} (he : s.entry? s.codeArg.toNat = some e) :
    s.dreadBody = ({ s with res := entryRes e } : State).complete := by
  rw [State.dreadBody, if_neg (State.not_singleton_of_entry he), he, State.finish_ok]

theorem State.dreadBody_noEntry {s : State} (hc : 255 < s.codeArg.toNat) (he : s.entry? s.codeArg.toNat = none) :
    s.dreadBody = s.raise (Err.illegal 5) := by
  rw [State.dreadBody, if_neg (Nat.not_le_of_lt hc), he, State.finish_error]

theorem exec_dread_singleton {s : State} (h : s.phase = .idle) (hc : s.codeArg.toNat ≤ 255) :
    exec .dread s = .next { s.ended .dread with res := singletonRes s.codeArg } := by
  rw [← State.accept_complete h .dread .exec]
  exact (State.runPrimitive_idle h .dread _).trans (congrArg _ (State.dreadBody_singleton (s := s.accept _ _) hc))

theorem exec_dread_entry {s : State} (h : s.phase = .idle) {e : Entry} (he : s.entry? s.codeArg.toNat = some e) :
    exec .dread s = .next { s.ended .dread with res := entryRes e } := by
  rw [← State.accept_complete h .dread .exec]
  exact (State.runPrimitive_idle h .dread _).trans (congrArg _ (State.dreadBody_entry (s := s.accept _ _) he))

theorem exec_dread_noEntry {s : State} (h : s.phase = .idle) (hc : 255 < s.codeArg.toNat)
    (he : s.entry? s.codeArg.toNat = none) : exec .dread s = .next (s.failed .dread (Err.illegal 5)) :=
  State.runPrimitive_raises h (State.dreadBody_noEntry (s := s.accept _ _) hc he)

/-- Settles O17: a code is a singleton, has an entry, or is neither, and RES has the two layouts of R59. -/
theorem dreadShowsTheEntry : Obligations.DreadShowsTheEntry := by
  refine ⟨rfl, fun s h => ⟨fun hc => ?_, fun hff hsize => ?_, fun hc hout => ?_⟩⟩
  · exact singletonRes_eq (c := s.codeArg) hc ▸ exec_dread_singleton h hc
  · obtain ⟨e, he⟩ := State.exists_entry hff hsize
    exact ⟨e, he, entryRes_eq e ▸ exec_dread_entry h he⟩
  · exact exec_dread_noEntry h hc (State.entry?_eq_none hout)

/-! ### DINSERT, then DREAD or DLOOKUP (R90, R94 to R96) -/

theorem extractLsb'_ofNat_code {n : Nat} (h : n < 65536) : ((BitVec.ofNat 32 n).extractLsb' 0 16).toNat = n := by
  rw [BitVec.extractLsb'_toNat, BitVec.toNat_ofNat, Nat.shiftRight_zero]
  omega

/-- A pair in no entry before an insertion is afterwards in the new entry only, which so is the least. -/
theorem State.insert_least {s : State} {p : Code} {y : Byte} (hno : ∀ c, s.entry? c ≠ some ⟨p, y⟩) :
    ∀ c' < s.dsize, (s.insert p y).entry? c' ≠ some ⟨p, y⟩ := by
  intro c' hc'
  rw [s.entry?_insert_other p y hc'.ne]
  exact hno c'

/-- Settles O18: the new entry stands at the code in RES, which fits 16 bits because the table was not full. -/
theorem insertedEntryIsReadAndFound : Obligations.InsertedEntryIsReadAndFound := by
  intro s t h hlegal hsize ht herr
  obtain ⟨hf, rfl⟩ := exec_dinsert_noError h ht herr
  have hmax := (CfgFields.maxSize_bounds hlegal).2
  have hroom : s.dsize ≠ s.acfg.maxSize := of_decide_eq_false hf
  have hnew := s.entry?_insert_same s.codeArg s.symbolArg
  refine ⟨⟨_, exec_dread_entry (e := ⟨s.codeArg, s.symbolArg⟩) ?_ ?_, rfl, entryRes_eq _⟩,
    fun hno => ⟨_, exec_dlookup_least ?_ ?_ hnew (State.insert_least hno), rfl, rfl⟩⟩
  · exact h
  · show (s.insert s.codeArg s.symbolArg).entry? ((BitVec.ofNat 32 s.dsize).extractLsb' 0 16).toNat = _
    rw [extractLsb'_ofNat_code (by omega), hnew]
  · exact h
  · show (s.insert s.codeArg s.symbolArg).dsize ≤ 65536
    rw [State.insert_dsize]
    omega

end Sys2Proof.Machine
end

section
/-! PROOFS. Obligations of 42_bitpack.md: the stream that `pack_write` extends and `pack_flush` closes, its bytes in the DST
region, and the commands PINIT, PWRITE and PFLUSH. -/

namespace Sys2Proof.Textbook

open Sys2Proof.Machine

/-! ### Bits as a byte (30_encoding.md R62, R66) -/

@[simp] theorem bits_length (c w : Nat) : (bits c w).length = w := by
  rw [bits, List.length_map, List.length_range]

theorem bits_getD {c w j : Nat} (h : j < w) : (bits c w).getD j false = c.testBit (w - 1 - j) := by
  simp [bits, h]

/-- The first `n` bits of a string as a number, first one most significant, missing bits 0: the fold inside `byteOf`. -/
def leadingNat (l : List Bool) (n : Nat) : Nat := (List.range n).foldl (fun acc i => 2 * acc + bitOf (l.getD i false)) 0

theorem byteOf_eq_leadingNat (l : List Bool) : byteOf l = BitVec.ofNat 8 (leadingNat l 8) := rfl

theorem leadingNat_succ (l : List Bool) (n : Nat) : leadingNat l (n + 1) = 2 * leadingNat l n + bitOf (l.getD n false) := by
  rw [leadingNat, List.range_succ, List.foldl_append]
  rfl

theorem testBit_two_mul_add_bitOf (v : Nat) (b : Bool) (i : Nat) :
    (2 * v + bitOf b).testBit i = if i = 0 then b else v.testBit (i - 1) := by
  cases i with
  | zero => cases b <;> simp [bitOf]
  | succ i =>
    have hhalf : (2 * v + bitOf b) / 2 = v := by
      have := bitOf_le_one b
      omega
    rw [Nat.testBit_succ, hhalf, if_neg (Nat.succ_ne_zero i), Nat.add_sub_cancel]

theorem leadingNat_testBit (l : List Bool) : ∀ {n i : Nat}, i < n → (leadingNat l n).testBit i = l.getD (n - 1 - i) false
  | n + 1, i, h => by
    rw [leadingNat_succ, testBit_two_mul_add_bitOf]
    split
    · subst i
      rfl
    · rw [leadingNat_testBit l (by omega : i - 1 < n)]
      congr 1
      omega

theorem byteOf_getLsbD (l : List Bool) {i : Nat} (h : i < 8) : (byteOf l).getLsbD i = l.getD (7 - i) false := by
  rw [byteOf_eq_leadingNat, BitVec.getLsbD_ofNat, leadingNat_testBit l h, decide_eq_true h, Bool.true_and]

/-- A byte is `byteOf l` if its bits, most significant first, are the first eight of `l`. -/
theorem eq_byteOf {x : Byte} {l : List Bool} (h : ∀ i < 8, x.getLsbD (7 - i) = l.getD i false) : x = byteOf l := by
  refine BitVec.eq_of_getLsbD_eq fun i hi => ?_
  rw [byteOf_getLsbD l hi, ← h (7 - i) (by omega)]
  congr 1
  omega

end Sys2Proof.Textbook

namespace Sys2Proof.Machine

/-! ### Memory between two states of one stream -/

/-- Frames of two stretches of the DST region that follow one another. -/
theorem SameMemoryBut.trans {s t u : State} {lo mid hi : Nat} (h : SameMemoryBut s t lo mid) (h' : SameMemoryBut t u mid hi)
    (hd : t.dstAddr = s.dstAddr) (hlo : lo ≤ mid) (hhi : mid ≤ hi) : SameMemoryBut s u lo hi := by
  intro a ha
  rw [h' a fun i h1 h2 => by rw [hd]; exact ha i (hlo.trans h1) h2]
  exact h a fun i h1 h2 => ha i h1 (h2.trans_le hhi)

/-! ### Appending to the stream (R106) -/

/-- `t` has the stream of `s` with the bits `bs` after it, written as `n` codes: earlier bits stay, the pad stays 0, and only the
bytes that OUT_LEN has passed are written. -/
structure State.Appended (s t : State) (bs : List Bool) (n : Nat) : Prop where
  dstAddr : t.dstAddr = s.dstAddr
  dstCap : t.dstCap = s.dstCap
  codeCount : t.codeCount = s.codeCount + BitVec.ofNat 32 n
  wf : t.mem.wf = true
  pad : s.PadZero → t.PadZero
  bitsOut : t.bitsOut = s.bitsOut + bs.length
  kept : ∀ k < s.bitsOut, t.outBit k = s.outBit k
  added : ∀ j < bs.length, t.outBit (s.bitsOut + j) = bs.getD j false
  memBut : SameMemoryBut s t s.outLen.toNat t.outLen.toNat

/-- OUT_LEN counts the whole bytes of the stream (R34). -/
theorem State.outLen_eq_bitsOut_div (s : State) : s.outLen.toNat = s.bitsOut / 8 := by
  have hp := s.pnb.isLt
  unfold State.bitsOut
  omega

theorem State.Appended.refl {s : State} (hm : s.mem.wf = true) : s.Appended s [] 0 where
  dstAddr := rfl
  dstCap := rfl
  codeCount := (BitVec.add_zero _).symm
  wf := hm
  pad := id
  bitsOut := rfl
  kept _ _ := rfl
  added j hj := absurd hj (Nat.not_lt_zero j)
  memBut _ _ := rfl

theorem State.Appended.outLen_le {s t : State} {bs : List Bool} {n : Nat} (h : s.Appended t bs n) :
    s.outLen.toNat ≤ t.outLen.toNat := by
  have hb := h.bitsOut
  rw [s.outLen_eq_bitsOut_div, t.outLen_eq_bitsOut_div]
  omega

theorem State.Appended.trans {s t u : State} {bs bs' : List Bool} {n n' : Nat} (h : s.Appended t bs n)
    (h' : t.Appended u bs' n') : s.Appended u (bs ++ bs') (n + n') where
  dstAddr := h'.dstAddr.trans h.dstAddr
  dstCap := h'.dstCap.trans h.dstCap
  codeCount := by rw [h'.codeCount, h.codeCount, BitVec.ofNat_add, BitVec.add_assoc]
  wf := h'.wf
  pad := h'.pad ∘ h.pad
  bitsOut := by rw [h'.bitsOut, h.bitsOut, List.length_append, Nat.add_assoc]
  kept k hk := (h'.kept k (by have := h.bitsOut; omega)).trans (h.kept k hk)
  added j hj := by
    have hb := h.bitsOut
    rw [List.length_append] at hj
    rcases Nat.lt_or_ge j bs.length with hlt | hge
    · rw [List.getD_append _ _ _ _ hlt, ← h.added j hlt]
      exact h'.kept _ (by omega)
    · rw [List.getD_append_right _ _ _ _ hge, ← h'.added _ (by omega)]
      congr 1
      omega
  memBut := h.memBut.trans h'.memBut h.dstAddr h.outLen_le h'.outLen_le

theorem State.packWrite_of_room {s : State} {v : Code} {w : Nat} (h : s.outLen.toNat + (s.pnb.toNat + w) / 8 ≤ s.dstCap.toNat) :
    s.packWrite v w = .ok { s.packBits v w with codeCount := s.codeCount + 1 } := by
  rw [State.packWrite, if_neg (Nat.not_lt_of_le h)]

theorem State.packWrite_of_noRoom {s : State} {v : Code} {w : Nat}
    (h : s.dstCap.toNat < s.outLen.toNat + (s.pnb.toNat + w) / 8) : s.packWrite v w = .error (Err.overflow v) := by
  rw [State.packWrite, if_pos h]

/-- R106: a `pack_write` that fits appends the `w` low bits of `v`. DST_CAP keeps OUT_LEN from wrapping. -/
theorem State.Appended.of_packWrite {s t : State} {v : Code} {w : Nat} (hm : s.mem.wf = true) (h : s.packWrite v w = .ok t) :
    s.Appended t (Textbook.bits v.toNat w) 1 := by
  obtain ⟨hroom, rfl, -⟩ := State.packWrite_ok h
  obtain ⟨m, a, n, o, hframe⟩ := State.packBits_frame v w s
  have hlt : s.bitsOut + w < 8 * 2 ^ 32 := by
    have hcap := s.dstCap.isLt
    unfold State.bitsOut
    omega
  have hbits := State.packBits_outBit v w hm hlt
  exact {
    dstAddr := by rw [hframe]
    dstCap := by rw [hframe]
    codeCount := rfl
    wf := State.packBits_wf v w hm
    pad := State.packBits_padZero v w
    bitsOut := by rw [Textbook.bits_length]; exact State.packBits_bitsOut v w s hlt
    kept := hbits.1
    added := fun j hj => by
      rw [Textbook.bits_length] at hj
      rw [Textbook.bits_getD hj]
      exact hbits.2 j hj
    memBut := State.packBits_memBut v w hlt }

/-- The bit string of a list of values and widths (30_encoding.md R62). -/
def packedBits (l : List (Code × Nat)) : List Bool := l.flatMap fun x => Textbook.bits x.1.toNat x.2

theorem packedBits_length (l : List (Code × Nat)) : (packedBits l).length = (l.map Prod.snd).sum := by
  simp [packedBits, List.length_flatMap]

/-- R108: every write of a list whose stream fits succeeds, and together they append its bit string. -/
theorem State.Appended.exists_packAll : ∀ (l : List (Code × Nat)) {s : State}, s.mem.wf = true →
    (s.bitsOut + (packedBits l).length) / 8 ≤ s.dstCap.toNat →
    ∃ t, s.packAll l = .ok t ∧ s.Appended t (packedBits l) l.length
  | [], s, hm, _ => ⟨s, rfl, .refl hm⟩
  | (v, w) :: l, s, hm, h => by
    have hlen : (packedBits ((v, w) :: l)).length = w + (packedBits l).length := by simp [packedBits]
    have hroom : s.outLen.toNat + (s.pnb.toNat + w) / 8 ≤ s.dstCap.toNat := by
      unfold State.bitsOut at h
      omega
    have hw := State.packWrite_of_room (v := v) hroom
    have hfirst := State.Appended.of_packWrite hm hw
    obtain ⟨t, ht, hrest⟩ := State.Appended.exists_packAll l hfirst.wf (by
      rw [hfirst.bitsOut, hfirst.dstCap, Textbook.bits_length]
      omega)
    refine ⟨t, by rw [State.packAll, hw]; exact ht, ?_⟩
    rw [List.length_cons, Nat.add_comm]
    exact hfirst.trans hrest

/-! ### Closing the stream (R107) -/

/-- `u` is `s` with its stream padded with zero bits to a whole number of bytes, all in memory. -/
structure State.Flushed (s u : State) : Prop where
  dstAddr : u.dstAddr = s.dstAddr
  codeCount : u.codeCount = s.codeCount
  pnb : u.pnb = 0
  outLen : u.outLen.toNat = (s.bitsOut + 7) / 8
  kept : ∀ k < s.bitsOut, u.outBit k = s.outBit k
  padded : ∀ k < 8 * u.outLen.toNat, s.bitsOut ≤ k → u.outBit k = false
  memBut : SameMemoryBut s u s.outLen.toNat u.outLen.toNat

theorem State.packFlush_empty {s : State} (hp : s.pnb = 0) : s.packFlush = .ok s := by
  rw [State.packFlush, if_pos hp]

theorem State.packFlush_of_noRoom {s : State} (hp : s.pnb ≠ 0) (h : s.dstCap.toNat ≤ s.outLen.toNat) :
    s.packFlush = .error Err.flushOverflow := by
  rw [State.packFlush, if_neg hp, if_pos (by omega)]

theorem State.packFlush_of_room {s : State} (hp : s.pnb ≠ 0) (h : s.outLen.toNat < s.dstCap.toNat) :
    s.packFlush = .ok { s.putByte s.pacc with pacc := 0, pnb := 0 } := by
  rw [State.packFlush, if_neg hp, if_neg (by omega)]

theorem State.pnb_pos {s : State} (hp : s.pnb ≠ 0) : 0 < s.pnb.toNat := by
  have hne : s.pnb.toNat ≠ 0 := fun h0 => hp (BitVec.eq_of_toNat_eq h0)
  omega

/-- A stream of whole bytes is already closed. -/
theorem State.Flushed.of_empty {s : State} (hp : s.pnb = 0) : s.Flushed s where
  dstAddr := rfl
  codeCount := rfl
  pnb := hp
  outLen := by
    have h0 : s.pnb.toNat = 0 := by rw [hp]; rfl
    unfold State.bitsOut
    omega
  kept _ _ := rfl
  padded k hk hge := by unfold State.bitsOut at hge; omega
  memBut _ _ := rfl

/-- Writing PACC out keeps every bit of the stream: the byte's high bits are the pending ones. -/
theorem State.putByte_pacc_outBit {s : State} (hm : s.mem.wf = true) (ho : s.outLen.toNat + 1 < 2 ^ 32) {k : Nat}
    (hk : k < 8 * (s.outLen.toNat + 1)) :
    ({ s.putByte s.pacc with pacc := 0, pnb := 0 } : State).outBit k = s.outBit k := by
  have hsucc := State.outLen_succ ho
  rw [State.outBit_inMem (by show k < 8 * (s.outLen + 1).toNat; omega)]
  show ((s.mem.write (s.dstAddr + s.outLen).toNat s.pacc).read (s.dstAddr + BitVec.ofNat 32 (k / 8)).toNat).getLsbD _ = _
  rcases Nat.lt_or_ge k (8 * s.outLen.toNat) with hlt | hge
  · rw [State.outBit_inMem hlt, Memory.read_write_other]
    rw [← regionAddr_toNat s.dstAddr s.outLen]
    exact regionAddr_ne _ (by omega) (by omega) (by omega)
  · have hlast : k / 8 = s.outLen.toNat := by omega
    rw [State.outBit_pending (Nat.not_lt_of_le hge), hlast, regionAddr_toNat, Memory.read_write_same hm]

/-- R107: with room, the flush writes the partial byte, whose low bits are the pad. -/
theorem State.Flushed.of_room {s : State} (hm : s.mem.wf = true) (hpad : s.PadZero) (hp : s.pnb ≠ 0)
    (h : s.outLen.toNat < s.dstCap.toNat) : s.Flushed { s.putByte s.pacc with pacc := 0, pnb := 0 } := by
  have hlt := s.pnb.isLt
  have hpos := State.pnb_pos hp
  have hcap := s.dstCap.isLt
  have hbo : s.bitsOut = 8 * s.outLen.toNat + s.pnb.toNat := rfl
  have hsucc : (s.outLen + 1).toNat = s.outLen.toNat + 1 := State.outLen_succ (by omega)
  exact {
    dstAddr := rfl
    codeCount := rfl
    pnb := rfl
    outLen := by show (s.outLen + 1).toNat = _; omega
    kept := fun k hk => State.putByte_pacc_outBit hm (by omega) (by omega)
    padded := fun k hk hge => by
      have hk : k < 8 * (s.outLen + 1).toNat := hk
      rw [State.putByte_pacc_outBit hm (by omega) (by omega), State.outBit_pending (by omega)]
      exact hpad _ (by omega)
    memBut := fun a ha => by
      refine Memory.read_write_other ?_ _
      rw [← regionAddr_toNat]
      exact ha _ le_rfl (by show _ < (s.outLen + 1).toNat; omega) }

/-- A flush whose padded stream fits succeeds. -/
theorem State.Flushed.exists_packFlush {s : State} (hm : s.mem.wf = true) (hpad : s.PadZero)
    (h : (s.bitsOut + 7) / 8 ≤ s.dstCap.toNat) : ∃ u, s.packFlush = .ok u ∧ s.Flushed u := by
  by_cases hp : s.pnb = 0
  · exact ⟨s, State.packFlush_empty hp, .of_empty hp⟩
  · have hroom : s.outLen.toNat < s.dstCap.toNat := by
      have hpos := State.pnb_pos hp
      unfold State.bitsOut at h
      omega
    exact ⟨_, State.packFlush_of_room hp hroom, .of_room hm hpad hp hroom⟩

/-! ### The bytes of the DST region (30_encoding.md R66) -/

theorem State.memReadList_eq_map (s : State) (a : Word) (n : Nat) :
    s.memReadList a n = (List.range n).map fun j => s.memRead (a + BitVec.ofNat 32 j) := by
  refine List.ext_getElem? fun i => ?_
  rcases Nat.lt_or_ge i n with h | h
  · rw [State.memReadList_getElem? n a s i h, List.getElem?_map, List.getElem?_range h, Option.map_some]
  · rw [List.getElem?_eq_none (by simpa using h), List.getElem?_eq_none (by simpa using h)]

/-- The bytes in the DST region are those of a bit string if the bits of the stream are its bits, and 0 after them. -/
theorem State.memReadList_eq_bytesOf {s : State} {bs : List Bool} (hlen : s.outLen.toNat = (bs.length + 7) / 8)
    (hbits : ∀ k < 8 * s.outLen.toNat, s.outBit k = bs.getD k false) :
    s.memReadList s.dstAddr s.outLen.toNat = Textbook.bytesOf bs := by
  rw [State.memReadList_eq_map, Textbook.bytesOf, ← hlen]
  refine List.map_congr_left fun j hj => Textbook.eq_byteOf fun i hi => ?_
  rw [List.mem_range] at hj
  have hbit := hbits (8 * j + i) (by omega)
  rw [State.outBit_inMem (by omega), show (8 * j + i) / 8 = j by omega, show (8 * j + i) % 8 = i by omega] at hbit
  rw [List.getD_eq_getElem?_getD, List.getElem?_drop, ← List.getD_eq_getElem?_getD]
  exact hbit

/-- Settles O22: the writes append their bits to the empty stream one list cell at a time, and the flush pads it. The bound on
the widths is not needed. -/
theorem packedRegionIsExactlyTheStream : Obligations.PackedRegionIsExactlyTheStream := by
  intro s l hm _ hcap
  rw [← packedBits_length] at hcap ⊢
  have hempty : s.packInit.bitsOut = 0 := rfl
  obtain ⟨t, ht, hall⟩ := State.Appended.exists_packAll l (s := s.packInit) hm (by
    rw [hempty]
    exact le_trans (Nat.div_le_div_right (by omega)) hcap)
  have hbt : t.bitsOut = (packedBits l).length := hall.bitsOut.trans (by rw [hempty, Nat.zero_add])
  have hpad : t.PadZero := hall.pad fun i _ => by simp [State.packInit]
  obtain ⟨u, hu, hflush⟩ := State.Flushed.exists_packFlush hall.wf hpad (by rw [hbt, hall.dstCap]; exact hcap)
  have hdst : u.dstAddr = s.dstAddr := hflush.dstAddr.trans hall.dstAddr
  have hlen := hbt ▸ hflush.outLen
  refine ⟨t, u, ht, hbt, hu, hflush.pnb, hlen, ?_, ?_, ?_⟩
  · rw [hflush.codeCount, hall.codeCount]
    exact BitVec.zero_add _
  · rw [← hdst]
    refine State.memReadList_eq_bytesOf hlen fun k hk => ?_
    rcases Nat.lt_or_ge k (packedBits l).length with hlt | hge
    · rw [hflush.kept k (by omega)]
      have hadd := hall.added k hlt
      rwa [hempty, Nat.zero_add] at hadd
    · rw [hflush.padded k hk (by omega)]
      exact (List.getD_eq_default _ _ hge).symm
  · refine hall.memBut.trans hflush.memBut hall.dstAddr hall.outLen_le ?_
    rw [t.outLen_eq_bitsOut_div, hflush.outLen]
    omega

/-! ### PINIT (R105, R109) -/

theorem exec_pinit {s : State} (h : s.phase = .idle) : exec .pinit s = .next (s.packInit.ended .pinit) := by
  rw [← State.accept_complete (s := s.packInit) h .pinit .exec]
  exact State.runPrimitive_idle h .pinit State.pinitBody

/-- Settles O19: PINIT is `pack_init` between acceptance and completion. -/
theorem pinitStartsAStream : Obligations.PinitStartsAStream :=
  ⟨rfl, fun _ => exec_pinit⟩

/-! ### PWRITE (R106, R110) -/

theorem State.pwriteBody_badWidth {s : State} (hw : widthOk s.widthArg = false) : s.pwriteBody = s.raise (Err.illegal 6) := by
  rw [State.pwriteBody, if_pos hw, State.finish_error]

theorem State.pwriteBody_goodWidth {s : State} (hw : widthOk s.widthArg = true) :
    s.pwriteBody = s.finish (s.packWrite s.codeArg s.widthArg.toNat) := by
  rw [State.pwriteBody, if_neg (by simp [hw])]

theorem exec_pwrite_badWidth {s : State} (h : s.phase = .idle) (hw : widthOk s.widthArg = false) :
    exec .pwrite s = .next (s.failed .pwrite (Err.illegal 6)) :=
  State.runPrimitive_raises h (State.pwriteBody_badWidth (s := s.accept _ _) hw)

theorem exec_pwrite_noRoom {s : State} (h : s.phase = .idle) (hw : widthOk s.widthArg = true)
    (hcap : s.dstCap.toNat < s.outLen.toNat + (s.pnb.toNat + s.widthArg.toNat) / 8) :
    exec .pwrite s = .next (s.failed .pwrite (Err.overflow s.codeArg)) := by
  refine State.runPrimitive_raises h ?_
  rw [State.pwriteBody_goodWidth (s := s.accept _ _) hw]
  exact congrArg (State.finish _) (State.packWrite_of_noRoom (s := s.accept _ _) hcap)

/-- Acceptance and completion touch nothing of the stream (R75, R76). -/
theorem State.Appended.of_accept_complete {s t : State} {w : Word} {p : Phase} {bs : List Bool} {n : Nat}
    (h : (s.accept w p).Appended t bs n) : s.Appended t.complete bs n :=
  ⟨h.dstAddr, h.dstCap, h.codeCount, h.wf, h.pad, h.bitsOut, h.kept, h.added, h.memBut⟩

/-- A PWRITE that fits completes, changes only the packer, CODE_COUNT and memory, and appends the low bits of its operand. -/
theorem exec_pwrite_room {s : State} (h : s.phase = .idle) (hm : s.mem.wf = true) (hw : widthOk s.widthArg = true)
    (hroom : s.outLen.toNat + (s.pnb.toNat + s.widthArg.toNat) / 8 ≤ s.dstCap.toNat) :
    ∃ (m : Memory) (a : Byte) (n : BitVec 3) (o : Word) (t : State),
      t = { s.ended .pwrite with mem := m, pacc := a, pnb := n, outLen := o, codeCount := s.codeCount + 1 } ∧
      exec .pwrite s = .next t ∧ s.Appended t (Textbook.bits s.codeArg.toNat s.widthArg.toNat) 1 := by
  have hu := State.packWrite_of_room (s := s.accept (encode .pwrite) .exec) (v := s.codeArg) hroom
  obtain ⟨-, -, m, a, n, o, hframe⟩ := State.packWrite_ok hu
  refine ⟨m, a, n, o, _, ?_, ?_, (State.Appended.of_packWrite (s := s.accept _ _) hm hu).of_accept_complete⟩
  · rw [hframe, ← State.accept_complete h .pwrite .exec]
    rfl
  · refine (State.runPrimitive_idle h .pwrite State.pwriteBody).trans (congrArg _ ?_)
    rw [State.pwriteBody_goodWidth (s := s.accept _ _) hw]
    exact congrArg (State.finish _) hu

/-- Settles O20: the width check, then the capacity check, then the bits that `pack_write` appends. -/
theorem pwriteAppendsTheBits : Obligations.PwriteAppendsTheBits := by
  refine ⟨rfl, fun s h hm => ⟨fun hw => ?_, fun h1 h16 hcap => ?_, fun h1 h16 hroom => ?_⟩⟩
  · exact exec_pwrite_badWidth h ((widthOk_eq_false_iff _).2 hw)
  · exact exec_pwrite_noRoom h (decide_eq_true ⟨h1, h16⟩) hcap
  · obtain ⟨m, a, n, o, t, ht, hexec, happ⟩ := exec_pwrite_room h hm (decide_eq_true ⟨h1, h16⟩) hroom
    have hlen := Textbook.bits_length s.codeArg.toNat s.widthArg.toNat
    exact ⟨m, a, n, o, t, ht, hexec, happ.bitsOut.trans (congrArg _ hlen), happ.kept,
      fun j hj => (happ.added j (hlen.symm ▸ hj)).trans (Textbook.bits_getD hj), happ.pad, happ.memBut⟩

/-! ### PFLUSH (R107, R111) -/

theorem exec_pflush {s : State} (h : s.phase = .idle) :
    exec .pflush s =
      .next ((s.accept (encode .pflush) .exec).finish (s.accept (encode .pflush) .exec).packFlush) :=
  State.runPrimitive_idle h .pflush State.pflushBody

theorem exec_pflush_empty {s : State} (h : s.phase = .idle) (hp : s.pnb = 0) : exec .pflush s = .next (s.ended .pflush) := by
  rw [exec_pflush h, State.packFlush_empty (s := s.accept _ _) hp, State.finish_ok, State.accept_complete h]

theorem exec_pflush_noRoom {s : State} (h : s.phase = .idle) (hp : s.pnb ≠ 0) (hcap : s.dstCap.toNat ≤ s.outLen.toNat) :
    exec .pflush s = .next (s.failed .pflush Err.flushOverflow) := by
  rw [exec_pflush h, State.packFlush_of_noRoom (s := s.accept _ _) hp hcap, State.finish_error, State.accept_raise h]

theorem exec_pflush_room {s : State} (h : s.phase = .idle) (hp : s.pnb ≠ 0) (hroom : s.outLen.toNat < s.dstCap.toNat) :
    exec .pflush s = .next (State.ended { s.putByte s.pacc with pacc := 0, pnb := 0 } .pflush) := by
  rw [exec_pflush h, State.packFlush_of_room (s := s.accept _ _) hp hroom, State.finish_ok,
    ← State.accept_complete (s := { s.putByte s.pacc with pacc := 0, pnb := 0 }) h .pflush .exec]
  rfl

/-- Settles O21: the three ways `pack_flush` can end. -/
theorem pflushEmitsThePartialByte : Obligations.PflushEmitsThePartialByte :=
  ⟨rfl, fun _ h hm => ⟨exec_pflush_empty h, exec_pflush_noRoom h,
    fun hp hroom => ⟨_, exec_pflush_room h hp hroom, fun _ => Memory.read_write hm⟩⟩⟩

end Sys2Proof.Machine
end

section
/-! PROOFS. Obligations of 43_bitunpack.md: what `unpack_read` takes from the source, the commands UINIT and UREAD, and the
unpacker as the inverse of the packer. -/

namespace Sys2Proof.Textbook

/-- The code 0 has no bit set, at any width (30_encoding.md R62). -/
theorem bits_zero_getD (w k : Nat) : (bits 0 w).getD k false = false := by
  rcases Nat.lt_or_ge k w with hlt | hge
  · rw [bits_getD hlt, Nat.zero_testBit]
  · rw [List.getD_eq_default _ _ (by rwa [bits_length])]

end Sys2Proof.Textbook

namespace Sys2Proof.Machine

/-! ### Reading bits (R116) -/

theorem State.unpackRead_truncated {s : State} {w : Nat} (h : 8 * s.srcLen.toNat < s.bitsIn + w) :
    s.unpackRead w = .error (Err.truncated w) := by
  rw [State.unpackRead]
  exact if_pos h

/-- The code that a read gives is the next `w` bits of the source, the first one most significant. SRC_LEN keeps the read position
from wrapping. -/
theorem State.unpackRead_bits {s t : State} {c : Code} {w : Nat} (hw : w ≤ 16) (h : s.unpackRead w = .ok (c, t)) :
    c.toNat < 2 ^ w ∧ ∀ j < w, c.getLsbD (w - 1 - j) = s.inBit (s.bitsIn + j) := by
  obtain ⟨hle, rfl, -⟩ := State.unpackRead_ok h
  have hlen := s.srcLen.isLt
  have hlt : (s.unpackBits 0 w).1 < 2 ^ w := by simpa using State.unpackBits_lt w 0 0 s Nat.one_pos
  obtain ⟨hbits, -⟩ := State.unpackBits_value w 0 s (by omega)
  refine ⟨(Nat.mod_le _ _).trans_lt hlt, fun j hj => ?_⟩
  rw [BitVec.getLsbD_ofNat, hbits j hj, decide_eq_true (by omega), Bool.true_and]

/-! ### UINIT (R115, R118) -/

@[simp] theorem State.unpackInit_bitsIn (s : State) : s.unpackInit.bitsIn = 0 := rfl

theorem exec_uinit {s : State} (h : s.phase = .idle) : exec .uinit s = .next (s.unpackInit.ended .uinit) := by
  rw [← State.accept_complete (s := s.unpackInit) h .uinit .exec]
  exact State.runPrimitive_idle h .uinit State.uinitBody

/-- Settles O23: UINIT is `unpack_init` between acceptance and completion. -/
theorem uinitStartsAtTheFirstBit : Obligations.UinitStartsAtTheFirstBit :=
  ⟨rfl, fun _ => exec_uinit⟩

/-! ### UREAD (R116, R119) -/

theorem State.ureadBody_badWidth {s : State} (hw : widthOk s.widthArg = false) : s.ureadBody = s.raise (Err.illegal 6) := by
  rw [State.ureadBody, if_pos hw, State.finish_error]

theorem State.ureadBody_error {s : State} {e : Err} (hw : widthOk s.widthArg = true)
    (hr : s.unpackRead s.widthArg.toNat = .error e) : s.ureadBody = s.raise e := by
  rw [State.ureadBody, if_neg (by simp [hw]), hr, State.finish_error]

theorem State.ureadBody_ok {s t : State} {c : Code} (hw : widthOk s.widthArg = true)
    (hr : s.unpackRead s.widthArg.toNat = .ok (c, t)) : s.ureadBody = ({ t with res := c.setWidth 32 } : State).complete := by
  rw [State.ureadBody, if_neg (by simp [hw]), hr, State.finish_ok]

theorem exec_uread_badWidth {s : State} (h : s.phase = .idle) (hw : widthOk s.widthArg = false) :
    exec .uread s = .next (s.failed .uread (Err.illegal 6)) :=
  State.runPrimitive_raises h (State.ureadBody_badWidth (s := s.accept _ _) hw)

theorem exec_uread_truncated {s : State} (h : s.phase = .idle) (hw : widthOk s.widthArg = true)
    (hlen : 8 * s.srcLen.toNat < s.bitsIn + s.widthArg.toNat) :
    exec .uread s = .next (s.failed .uread (Err.truncated s.widthArg.toNat)) :=
  State.runPrimitive_raises h
    (State.ureadBody_error (s := s.accept _ _) hw (State.unpackRead_truncated (s := s.accept _ _) hlen))

/-- A UREAD whose bits are there completes, changes only RES, the position and CODE_COUNT, and takes the next bits. -/
theorem exec_uread_ok {s : State} (h : s.phase = .idle) (hw : widthOk s.widthArg = true)
    (hlen : s.bitsIn + s.widthArg.toNat ≤ 8 * s.srcLen.toNat) :
    ∃ (c : Code) (p : Word) (q : BitVec 3) (t : State),
      t = { s.ended .uread with res := c.setWidth 32, srcPos := p, srcBit := q, codeCount := s.codeCount + 1 } ∧
      exec .uread s = .next t ∧ t.bitsIn = s.bitsIn + s.widthArg.toNat ∧ c.toNat < 2 ^ s.widthArg.toNat ∧
      ∀ j < s.widthArg.toNat, c.getLsbD (s.widthArg.toNat - 1 - j) = s.inBit (s.bitsIn + j) := by
  obtain ⟨c, t, hr⟩ := State.unpackRead_ok_of_le (s := s.accept (encode .uread) .exec) hlen
  obtain ⟨hlt, hbits⟩ := State.unpackRead_bits (of_decide_eq_true hw).2 hr
  have hpos := State.unpackRead_bitsIn hr
  obtain ⟨-, -, p, q, rfl⟩ := State.unpackRead_ok hr
  refine ⟨c, p, q, _, rfl, ?_, hpos, hlt, hbits⟩
  rw [← State.accept_complete h .uread .exec]
  exact (State.runPrimitive_idle h .uread _).trans (congrArg _ (State.ureadBody_ok (s := s.accept _ _) hw hr))

/-- Settles O24: the width check, then the length check, then the bits that `unpack_read` takes. -/
theorem ureadTakesTheNextBits : Obligations.UreadTakesTheNextBits := by
  refine ⟨rfl, fun s h => ⟨fun hw => ?_, fun h1 h16 hlen => ?_, fun h1 h16 hlen => ?_⟩⟩
  · exact exec_uread_badWidth h ((widthOk_eq_false_iff _).2 hw)
  · rw [← BitVec.ofNat_toNat]
    exact exec_uread_truncated h (decide_eq_true ⟨h1, h16⟩) hlen
  · obtain ⟨c, p, q, t, ht, hexec, hpos, hlt, hbits⟩ := exec_uread_ok h (decide_eq_true ⟨h1, h16⟩) hlen
    refine ⟨_, p, q, t, ht, hexec, hpos, ?_, fun j hj => ?_⟩
    · rwa [BitVec.toNat_setWidth_of_le (by omega)]
    · rw [BitVec.getLsbD_setWidth, decide_eq_true (by omega), Bool.true_and]
      exact hbits j hj

/-! ### A packed stream, closed (42_bitpack.md R108) -/

/-- R108: writes that succeed have appended their bit string. -/
theorem State.Appended.of_packAll : ∀ (l : List (Code × Nat)) {s t : State}, s.mem.wf = true → s.packAll l = .ok t →
    s.Appended t (packedBits l) l.length
  | [], s, t, hm, h => by
    cases h
    exact .refl hm
  | (v, w) :: l, s, t, hm, h => by
    rw [State.packAll] at h
    cases hw : s.packWrite v w with
    | error e => rw [hw] at h; cases h
    | ok a =>
      rw [hw] at h
      have hfirst := State.Appended.of_packWrite hm hw
      rw [List.length_cons, Nat.add_comm]
      exact hfirst.trans (.of_packAll l hfirst.wf h)

/-- R107: a flush that succeeds has closed the stream. -/
theorem State.Flushed.of_packFlush {s u : State} (hm : s.mem.wf = true) (hpad : s.PadZero) (h : s.packFlush = .ok u) :
    s.Flushed u := by
  obtain ⟨hp, rfl⟩ | ⟨hp, hroom, rfl⟩ := State.packFlush_ok h
  · exact .of_empty hp
  · exact .of_room hm hpad hp hroom

/-- A fresh stream, written and closed, is long enough for its bit string, and is that string and then zeros. -/
theorem State.closedStream {s t u : State} {l : List (Code × Nat)} (hm : s.mem.wf = true) (ht : s.packInit.packAll l = .ok t)
    (hu : t.packFlush = .ok u) :
    (packedBits l).length ≤ 8 * u.outLen.toNat ∧ ∀ k < 8 * u.outLen.toNat, u.outBit k = (packedBits l).getD k false := by
  have happ := State.Appended.of_packAll l (s := s.packInit) hm ht
  have hbits : t.bitsOut = (packedBits l).length := happ.bitsOut.trans (Nat.zero_add _)
  have hflush := State.Flushed.of_packFlush happ.wf (happ.pad fun i _ => by simp [State.packInit]) hu
  have hlen := hflush.outLen
  refine ⟨by omega, fun k hk => ?_⟩
  rcases Nat.lt_or_ge k (packedBits l).length with hlt | hge
  · rw [hflush.kept k (by omega), ← happ.added k hlt]
    exact congrArg t.outBit (Nat.zero_add k).symm
  · rw [hflush.padded k hk (by omega), List.getD_eq_default _ _ hge]

/-! ### Reading a bit string back (43_bitunpack.md R116, R117) -/

/-- From the read position on, the source holds the bits `bs` and then zeros to its end. -/
structure State.Ahead (s : State) (bs : List Bool) : Prop where
  fits : s.bitsIn + bs.length ≤ 8 * s.srcLen.toNat
  bit : ∀ k, s.bitsIn + k < 8 * s.srcLen.toNat → s.inBit (s.bitsIn + k) = bs.getD k false

/-- The closed stream of a packer, as the source of a fresh unpacker. -/
theorem State.Ahead.of_closedStream {u : State} {bs : List Bool} (hlen : bs.length ≤ 8 * u.outLen.toNat)
    (hbits : ∀ k < 8 * u.outLen.toNat, u.outBit k = bs.getD k false) :
    ({ u with srcAddr := u.dstAddr, srcLen := u.outLen } : State).unpackInit.Ahead bs where
  fits := (Nat.zero_add _).trans_le hlen
  bit k hk := by
    rw [State.unpackInit_bitsIn, Nat.zero_add] at hk ⊢
    exact (State.outBit_inMem hk).symm.trans (hbits k hk)

/-- Pad bits are a code of any width, of value 0. -/
theorem State.Ahead.pad {s : State} {w : Nat} (h : s.Ahead []) (hw : s.bitsIn + w ≤ 8 * s.srcLen.toNat) :
    s.Ahead (Textbook.bits 0 w) where
  fits := by rwa [Textbook.bits_length]
  bit k hk := (h.bit k hk).trans (Textbook.bits_zero_getD w k).symm

/-- A code of at most `w` bits is its bits of `bits(v, w)`. -/
theorem code_eq_of_bits {c v : Code} {w : Nat} (hc : c.toNat < 2 ^ w) (hv : v.toNat < 2 ^ w)
    (h : ∀ j < w, c.getLsbD (w - 1 - j) = (Textbook.bits v.toNat w).getD j false) : c = v := by
  refine BitVec.eq_of_toNat_eq (Nat.eq_of_testBit_eq fun i => ?_)
  rcases Nat.lt_or_ge i w with hlt | hge
  · have hi := h (w - 1 - i) (by omega)
    rwa [Textbook.bits_getD (by omega), show w - 1 - (w - 1 - i) = i by omega] at hi
  · have hpow := Nat.pow_le_pow_right Nat.two_pos hge
    rw [Nat.testBit_lt_two_pow (hc.trans_le hpow), Nat.testBit_lt_two_pow (hv.trans_le hpow)]

/-- R117 for one code: a read at the width of the code that comes next gives the code, and goes on to what follows it. -/
theorem State.Ahead.unpackRead {s : State} {v : Code} {w : Nat} {bs : List Bool}
    (h : s.Ahead (Textbook.bits v.toNat w ++ bs)) (hw : w ≤ 16) (hv : v.toNat < 2 ^ w) :
    ∃ t, s.unpackRead w = .ok (v, t) ∧ t.Ahead bs ∧ t.srcLen = s.srcLen ∧ t.bitsIn = s.bitsIn + w := by
  have hlen := Textbook.bits_length v.toNat w
  have hfits := h.fits
  rw [List.length_append] at hfits
  obtain ⟨c, t, hr⟩ := State.unpackRead_ok_of_le (s := s) (w := w) (by omega)
  obtain ⟨hlt, hbits⟩ := State.unpackRead_bits hw hr
  have hpos := State.unpackRead_bitsIn hr
  obtain ⟨-, -, p, q, hframe⟩ := State.unpackRead_ok hr
  have hcode : c = v := code_eq_of_bits hlt hv fun j hj => by
    rw [hbits j hj, h.bit j (by omega), List.getD_append _ _ _ _ (by omega)]
  have hsrc : t.srcLen = s.srcLen := by rw [hframe]
  have hin : ∀ k, t.inBit k = s.inBit k := fun k => by rw [hframe]; rfl
  refine ⟨t, hcode ▸ hr, ⟨by rw [hsrc]; omega, fun k hk => ?_⟩, hsrc, hpos⟩
  rw [hsrc] at hk
  rw [hin, hpos, Nat.add_assoc, h.bit (w + k) (by omega), List.getD_append_right _ _ _ _ (by omega)]
  congr 1
  omega

/-- R117: reads at the widths of a packed list give its values, and stop where its bits end. -/
theorem State.Ahead.unpackAll : ∀ (l : List (Code × Nat)) {s : State}, (∀ x ∈ l, x.2 ≤ 16 ∧ x.1.toNat < 2 ^ x.2) →
    s.Ahead (packedBits l) →
    ∃ r, s.unpackAll (l.map Prod.snd) = .ok (l.map Prod.fst, r) ∧ r.Ahead [] ∧ r.srcLen = s.srcLen ∧
      r.bitsIn = s.bitsIn + (l.map Prod.snd).sum
  | [], s, _, h => ⟨s, rfl, h, rfl, rfl⟩
  | (v, w) :: l, s, hl, h => by
    obtain ⟨hw, hv⟩ := hl _ List.mem_cons_self
    obtain ⟨t, ht, hnext, hsrc, hpos⟩ := State.Ahead.unpackRead (v := v) (bs := packedBits l) h hw hv
    obtain ⟨r, hr, hend, hsrc', hpos'⟩ := State.Ahead.unpackAll l (fun x hx => hl x (List.mem_cons_of_mem _ hx)) hnext
    refine ⟨r, ?_, hend, hsrc'.trans hsrc, ?_⟩
    · simp only [List.map_cons, State.unpackAll, ht, hr]
    · rw [hpos', hpos, List.map_cons, List.sum_cons, Nat.add_assoc]

/-- Settles O25: the closed stream lies ahead of the fresh unpacker, which reads it one list cell at a time; what is left are pad
bits. The widths' lower bound is not needed. -/
theorem unpackerInvertsPacker : Obligations.UnpackerInvertsPacker := by
  intro s t u l hm hl ht hu
  obtain ⟨hlen, hbits⟩ := State.closedStream hm ht hu
  obtain ⟨r, hr, hend, hsrc, hpos⟩ :=
    State.Ahead.unpackAll l (fun x hx => (hl x hx).2) (State.Ahead.of_closedStream hlen hbits)
  have hsrc : r.srcLen = u.outLen := hsrc
  have hpos : r.bitsIn = (l.map Prod.snd).sum := hpos.trans (Nat.zero_add _)
  rw [packedBits_length] at hlen
  refine ⟨r, hr, fun w _ hw16 => ⟨fun hw => ?_, fun hw => ?_⟩⟩
  · have hpad : r.Ahead (Textbook.bits 0 w ++ []) := by
      rw [List.append_nil]
      exact hend.pad (by rw [hsrc]; omega)
    obtain ⟨r', hr', -⟩ := State.Ahead.unpackRead (v := 0) hpad hw16 (Nat.two_pow_pos w)
    exact ⟨r', hr'⟩
  · exact State.unpackRead_truncated (by rw [hsrc]; omega)

end Sys2Proof.Machine
end

section
/-! PROOFS. Obligations of 44_encoder.md: ENCODE is the greedy encoder over strings, whatever its source; its table spells the
dictionary of strings, and its output is the packed stream of the encoder's emissions. -/

namespace Sys2Proof.Textbook

open Sys2Proof.Machine

/-! ### The table of links as a dictionary of strings (44_encoder.md R124) -/

/-- The string of a code over a dictionary of strings: one byte for a singleton, else the string at its place. -/
def stringOf (c : CfgFields) (d : List (List Byte)) (k : Nat) : List Byte :=
  if k ≤ 255 then [BitVec.ofNat 8 k] else d.getD (k - c.firstFree) []

/-- `k` is a singleton or has a place in `d`: it is allocated and not reserved. -/
def Allocated (c : CfgFields) (d : List (List Byte)) (k : Nat) : Prop := k ≤ 255 ∨ (c.firstFree ≤ k ∧ k < sizeOf c d)

/-- The table of links `es` spells the dictionary of strings `d`, whose strings are all different: each entry links back, and its
string is that of the code it links to followed by its symbol. -/
structure Spells (c : CfgFields) (es : List Entry) (d : List (List Byte)) : Prop where
  length : es.length = d.length
  links : ∀ (n : Nat) (e : Entry), es[n]? = some e →
    e.pre.toNat < c.firstFree + n ∧ (e.pre.toNat ≤ 255 ∨ c.firstFree ≤ e.pre.toNat)
  string : ∀ (n : Nat) (e : Entry), es[n]? = some e → d[n]? = some (stringOf c d e.pre.toNat ++ [e.sym])
  nodup : d.Nodup

theorem stringOf_singleton (c : CfgFields) (d : List (List Byte)) {k : Nat} (h : k ≤ 255) :
    stringOf c d k = [BitVec.ofNat 8 k] := if_pos h

theorem stringOf_byte (c : CfgFields) (d : List (List Byte)) (b : Byte) : stringOf c d (b.setWidth 16).toNat = [b] := by
  have hb := b.isLt
  have hk : ((b.setWidth 16).toNat) = b.toNat := BitVec.toNat_setWidth_of_le (by decide)
  rw [hk, stringOf_singleton c d (by omega), BitVec.ofNat_toNat, BitVec.setWidth_eq]

theorem stringOf_place (c : CfgFields) (d : List (List Byte)) (n : Nat) : stringOf c d (c.firstFree + n) = d.getD n [] := by
  have hff := c.firstFree_cases
  rw [stringOf, if_neg (by omega), Nat.add_sub_cancel_left]

/-- A longer dictionary spells the codes it had before as before. -/
theorem stringOf_append {c : CfgFields} {d : List (List Byte)} (l : List (List Byte)) {k : Nat} (h : Allocated c d k) :
    stringOf c (d ++ l) k = stringOf c d k := by
  unfold stringOf
  split
  · rfl
  · unfold Allocated sizeOf at h
    rw [List.getD_append _ _ _ _ (by omega)]

theorem Spells.nil (c : CfgFields) : Spells c [] [] := ⟨rfl, nofun, nofun, List.nodup_nil⟩

section
variable {c : CfgFields} {es : List Entry} {d : List (List Byte)}

theorem Spells.exists_entry (h : Spells c es d) {n : Nat} (hn : n < d.length) : ∃ e, es[n]? = some e := by
  rw [← h.length] at hn
  exact ⟨_, List.getElem?_eq_getElem hn⟩

theorem Spells.pre_allocated (h : Spells c es d) {n : Nat} {e : Entry} (he : es[n]? = some e) :
    Allocated c d e.pre.toNat := by
  obtain ⟨hn, -⟩ := List.getElem?_eq_some_iff.1 he
  obtain ⟨hlt, hres⟩ := h.links n e he
  have hlen := h.length
  unfold Allocated sizeOf
  omega

theorem Spells.stringOf_entry (h : Spells c es d) {n : Nat} {e : Entry} (he : es[n]? = some e) :
    stringOf c d (c.firstFree + n) = stringOf c d e.pre.toNat ++ [e.sym] := by
  rw [stringOf_place, List.getD_eq_getElem?_getD, h.string n e he, Option.getD_some]

theorem Spells.stringOf_ne_nil (h : Spells c es d) {k : Nat} (hk : Allocated c d k) : stringOf c d k ≠ [] := by
  rcases hk with hk | ⟨hff, hlt⟩
  · simp [stringOf_singleton c d hk]
  · obtain ⟨n, rfl⟩ := Nat.exists_eq_add_of_le hff
    obtain ⟨e, he⟩ := h.exists_entry (Nat.lt_of_add_lt_add_left hlt)
    simp [h.stringOf_entry he]

/-- The string of an entry has more than one byte, so its code is its place. -/
theorem codeOf_eq_place {w : List Byte} (hw : ∀ x, w ≠ [x]) : codeOf c d w = c.firstFree + d.idxOf w := by
  unfold codeOf
  split
  · exact absurd rfl (hw _)
  · rfl

/-- R124: a code is the code of its string, as all strings are different. -/
theorem Spells.codeOf_stringOf (h : Spells c es d) {k : Nat} (hk : Allocated c d k) : codeOf c d (stringOf c d k) = k := by
  rcases hk with hk | ⟨hff, hlt⟩
  · rw [stringOf_singleton c d hk]
    show (BitVec.ofNat 8 k).toNat = k
    rw [BitVec.toNat_ofNat]
    omega
  · obtain ⟨n, rfl⟩ := Nat.exists_eq_add_of_le hff
    have hn : n < d.length := Nat.lt_of_add_lt_add_left hlt
    obtain ⟨e, he⟩ := h.exists_entry hn
    have hpre := h.stringOf_ne_nil (h.pre_allocated he)
    rw [codeOf_eq_place, stringOf_place, List.getD_eq_getElem _ _ hn, h.nodup.idxOf_getElem n hn]
    intro x hx
    rw [h.stringOf_entry he] at hx
    cases hpre' : stringOf c d e.pre.toNat with
    | nil => exact hpre hpre'
    | cons y l => simp [hpre'] at hx

theorem Spells.stringOf_injective (h : Spells c es d) {k k' : Nat} (hk : Allocated c d k) (hk' : Allocated c d k')
    (heq : stringOf c d k = stringOf c d k') : k = k' := by
  rw [← h.codeOf_stringOf hk, heq, h.codeOf_stringOf hk']

/-- A table lookup that hits answers the place of the longer string. -/
theorem Spells.of_findPair_some (h : Spells c es d) {p : Code} {y : Byte} {n : Nat} (hf : findPair p y es = some n) :
    stringOf c d (c.firstFree + n) = stringOf c d p.toNat ++ [y] ∧ stringOf c d p.toNat ++ [y] ∈ d ∧ n < d.length := by
  have he := ((findPair_eq_some_iff p y es n).1 hf).1
  have hs := h.string n _ he
  exact ⟨h.stringOf_entry he, List.mem_of_getElem? hs, (List.getElem?_eq_some_iff.1 hs).1⟩

/-- A table lookup that misses shows that the longer string is not in the dictionary (R124). -/
theorem Spells.of_findPair_none (h : Spells c es d) {p : Code} {y : Byte} (hp : Allocated c d p.toNat)
    (hf : findPair p y es = none) : stringOf c d p.toNat ++ [y] ∉ d := by
  intro hmem
  obtain ⟨n, hn, hd⟩ := List.mem_iff_getElem.1 hmem
  obtain ⟨e, he⟩ := h.exists_entry hn
  have hs := h.string n e he
  rw [List.getElem?_eq_getElem hn, hd] at hs
  obtain ⟨hpre, hsym⟩ := List.append_inj' (Option.some.inj hs) rfl
  have hep : e.pre = p := BitVec.eq_of_toNat_eq (h.stringOf_injective hp (h.pre_allocated he) hpre).symm
  have hey : e.sym = y := (List.singleton_inj.1 hsym).symm
  refine (findPair_eq_none_iff p y es).1 hf n (he.trans ?_)
  rw [← hep, ← hey]

/-- R90, R124: inserting a pair whose string is new keeps the strings different. -/
theorem Spells.insert (h : Spells c es d) {p : Code} {y : Byte} (hp : Allocated c d p.toNat)
    (hnew : stringOf c d p.toNat ++ [y] ∉ d) :
    Spells c (es ++ [⟨p, y⟩]) (d ++ [stringOf c d p.toNat ++ [y]]) := by
  have hlen := h.length
  have cases_entry : ∀ {n : Nat} {e : Entry}, (es ++ [⟨p, y⟩])[n]? = some e →
      es[n]? = some e ∨ (n = d.length ∧ e = ⟨p, y⟩) := by
    intro n e he
    rcases Nat.lt_or_ge n es.length with hn | hn
    · rw [List.getElem?_append_left hn] at he
      exact .inl he
    · rw [List.getElem?_append_right hn, List.getElem?_singleton] at he
      split at he
      · exact .inr ⟨by omega, (Option.some.inj he).symm⟩
      · cases he
  refine ⟨by simp [hlen], fun n e he => ?_, fun n e he => ?_, ?_⟩
  · rcases cases_entry he with he | ⟨rfl, rfl⟩
    · exact h.links n e he
    · unfold Allocated sizeOf at hp
      have hff := c.firstFree_cases
      show p.toNat < _ ∧ (p.toNat ≤ 255 ∨ _ ≤ p.toNat)
      omega
  · rcases cases_entry he with he | ⟨rfl, rfl⟩
    · have hs := h.string n e he
      rw [stringOf_append _ (h.pre_allocated he), List.getElem?_append_left (List.getElem?_eq_some_iff.1 hs).1, hs]
    · rw [stringOf_append _ hp, List.getElem?_concat_length]
  · rw [← List.concat_eq_append]
    exact h.nodup.concat hnew

end

/-! ### The greedy encoder, case by case (R123, R126) -/

/-- What the encoder emits after the code of `w` has gone out at a mismatch: the table grows, or is emptied (R92 item 1). -/
def afterMiss (c : CfgFields) (d : List (List Byte)) (w : List Byte) (b : Byte) (rest : List Byte) : List Emission :=
  if sizeOf c d < c.maxSize then encodeFrom c (d ++ [w ++ [b]]) [b] rest
  else if c.ctrl then ⟨256, c.widthOf (sizeOf c d)⟩ :: encodeFrom c [] [b] rest
  else encodeFrom c [] [b] rest

theorem encodeFrom_hit {c : CfgFields} {d : List (List Byte)} {w : List Byte} {b : Byte} (rest : List Byte) (h : w ++ [b] ∈ d) :
    encodeFrom c d w (b :: rest) = encodeFrom c d (w ++ [b]) rest := by
  rw [encodeFrom, if_pos h]

theorem encodeFrom_miss {c : CfgFields} {d : List (List Byte)} {w : List Byte} {b : Byte} (rest : List Byte) (h : w ++ [b] ∉ d) :
    encodeFrom c d w (b :: rest) = ⟨codeOf c d w, c.widthOf (sizeOf c d)⟩ :: afterMiss c d w b rest := by
  rw [encodeFrom, if_neg h, afterMiss]

/-- R131: at most two codes for each byte still to be read, and two at the end. -/
theorem encodeFrom_length (c : CfgFields) : ∀ (rest : List Byte) (d : List (List Byte)) (w : List Byte),
    (encodeFrom c d w rest).length ≤ 2 * rest.length + 2
  | [], d, w => by
    rw [encodeFrom]
    split <;> simp
  | b :: rest, d, w => by
    rw [List.length_cons]
    by_cases h : w ++ [b] ∈ d
    · rw [encodeFrom_hit rest h]
      have ih := encodeFrom_length c rest d (w ++ [b])
      omega
    · have ih := fun d => encodeFrom_length c rest d [b]
      have hafter : (afterMiss c d w b rest).length ≤ 2 * rest.length + 3 := by
        unfold afterMiss
        split
        · exact (ih _).trans (by omega)
        · split
          · exact Nat.succ_le_succ (ih _)
          · exact (ih _).trans (by omega)
      rw [encodeFrom_miss rest h, List.length_cons]
      omega

theorem encode_length (c : CfgFields) (x : List Byte) : (encode c x).length ≤ 2 * x.length := by
  cases x with
  | nil => simp [encode]
  | cons b rest => exact encodeFrom_length c rest [] [b]

theorem widthOf_le_maxw (c : CfgFields) (n : Nat) : c.widthOf n ≤ c.maxw := min_le_left _ _

/-- R127: no code is wider than MAXW. -/
theorem encodeFrom_width (c : CfgFields) : ∀ (rest : List Byte) (d : List (List Byte)) (w : List Byte),
    ∀ e ∈ encodeFrom c d w rest, e.width ≤ c.maxw
  | [], d, w => by
    rw [encodeFrom]
    split <;> simp [widthOf_le_maxw]
  | b :: rest, d, w => by
    have ih := encodeFrom_width c rest
    by_cases h : w ++ [b] ∈ d
    · rw [encodeFrom_hit rest h]
      exact ih _ _
    · rw [encodeFrom_miss rest h, afterMiss, List.forall_mem_cons]
      refine ⟨widthOf_le_maxw c _, ?_⟩
      split
      · exact ih _ _
      · split
        · exact List.forall_mem_cons.2 ⟨widthOf_le_maxw c _, ih _ _⟩
        · exact ih _ _

theorem encode_width (c : CfgFields) (x : List Byte) : ∀ e ∈ encode c x, e.width ≤ c.maxw := by
  cases x with
  | nil => exact nofun
  | cons b rest => exact encodeFrom_width c rest [] [b]

theorem streamBits_append (l l' : List Emission) : streamBits (l ++ l') = streamBits l ++ streamBits l' :=
  List.flatMap_append

theorem streamBits_cons (e : Emission) (l : List Emission) : streamBits (e :: l) = bits e.code e.width ++ streamBits l := rfl

theorem streamBits_length_le {w : Nat} : ∀ {l : List Emission}, (∀ e ∈ l, e.width ≤ w) →
    (streamBits l).length ≤ l.length * w
  | [], _ => Nat.zero_le _
  | e :: l, h => by
    have hw := h e List.mem_cons_self
    have ih := streamBits_length_le fun x hx => h x (List.mem_cons_of_mem e hx)
    rw [streamBits_cons, List.length_append, bits_length, List.length_cons, Nat.succ_mul]
    omega

theorem compress_length (c : CfgFields) (x : List Byte) :
    (compress c x).length = ((streamBits (encode c x)).length + 7) / 8 := by
  simp [compress, stream, bytesOf]

end Sys2Proof.Textbook

namespace Sys2Proof.Machine

open Textbook (Emission streamBits stringOf Allocated Spells)

/-! ### The state past ENC_START (44_encoder.md R126) -/

/-- ENCODE after a start check that passes. -/
def State.started (s : State) : State :=
  { (s.accept (encode .encode) .encStart).latchAndInit.packInit with
    srcPos := 0, srcBit := 0, phase := if s.srcLen = 0 then .encFlush else .encFirst }

theorem State.encStartStep_started {s : State} (h : s.startCheck s.dstCap = .ok ()) :
    (s.accept (encode .encode) .encStart).encStartStep = s.started := by
  have hc : (s.accept (encode .encode) .encStart).startCheck s.dstCap = .ok () := h
  simp only [State.encStartStep, State.accept_dstCap, hc]
  rfl

/-- ENCODE past its start check is the run of the engine from the started state. -/
theorem exec_encode_started {s : State} (h : s.phase = .idle) (hc : s.startCheck s.dstCap = .ok ()) :
    exec .encode s = s.started.runEngine (4 * s.srcLen.toNat + 7) := by
  rw [exec_encode h, State.encodeBound, State.runEngine_busy (by decide : Phase.encStart ≠ .idle),
    State.engineStep_encStart (State.accept_phase _ _ _), State.encStartStep_started hc]

theorem State.startCheck_of_fit {s : State} {n : Word} (hl : s.cfg.legal = true) (hfit : s.RegionsFit n) :
    s.startCheck n = .ok () :=
  (s.startCheck_eq_ok_iff n).2 ⟨hl, (s.regionsOk_eq_ok_iff n).2 hfit⟩

/-- Settles O27: with no source the engine goes from ENC_START to ENC_FLUSH, which finds the packer empty. -/
theorem encodeOfNothingEmitsNothing : Obligations.EncodeOfNothingEmitsNothing := by
  intro s h hl hfit hsrc
  have hphase : s.started.phase = .encFlush := if_pos hsrc
  have hflush : s.started.engineStep = s.started.complete := by
    rw [State.engineStep_encFlush hphase, State.encFlushStep, State.packFlush_empty rfl, State.finish_ok]
  rw [exec_encode_started h (State.startCheck_of_fit hl hfit), State.runEngine_busy (by rw [hphase]; exact nofun), hflush,
    State.runEngine_idle rfl]
  simp [State.complete, State.started, State.ended, State.accept, State.packInit, State.latchAndInit, h]

/-! ### What ENCODE has done so far -/

/-- What ENCODE past ENC_START leaves alone, with all else at its reset value. -/
def State.besideEncode (s : State) : State :=
  { State.reset with
    ie := s.ie, done := s.done, hit := s.hit, err := s.err, cfg := s.cfg, acfg := s.acfg, cmd := s.cmd, arg0 := s.arg0,
    arg1 := s.arg1, res := s.res, srcAddr := s.srcAddr, srcLen := s.srcLen, dstAddr := s.dstAddr, dstCap := s.dstCap,
    targetLen := s.targetLen, srcBit := s.srcBit, errInfo := s.errInfo, prev := s.prev, prevValid := s.prevValid,
    code := s.code, seq := s.seq, host := s.host, obs := s.obs, draws := s.draws }

/-- ENCODE, written in `s₀`, has come to `s` with the dictionary of strings `d`, and has emitted `es`. -/
structure State.Encoded (s₀ s : State) (d : List (List Byte)) (es : List Emission) : Prop where
  beside : s.besideEncode = s₀.started.besideEncode
  spells : Spells s.acfg s.dict d
  size : s.dsize ≤ s.acfg.maxSize
  srcPos : s.srcPos.toNat ≤ s.srcLen.toNat
  pad : s.PadZero
  bitsOut : s.bitsOut = (streamBits es).length
  room : s.outLen.toNat ≤ s.dstCap.toNat
  codeCount : s.codeCount = BitVec.ofNat 32 es.length
  memBut : SameMemoryBut s₀ s 0 s.outLen.toNat
  stream : s₀.mem.wf = true → s.mem.wf = true ∧ ∀ k < s.bitsOut, s.outBit k = (streamBits es).getD k false

theorem State.Encoded.started {s : State} (hl : s.cfg.legal = true) : s.Encoded s.started [] [] where
  beside := rfl
  spells := Spells.nil _
  size := (CfgFields.firstFree_lt_maxSize hl).le
  srcPos := Nat.zero_le _
  pad _ _ := BitVec.getLsbD_zero
  bitsOut := rfl
  room := Nat.zero_le _
  codeCount := rfl
  memBut _ _ := rfl
  stream hm := ⟨hm, fun k hk => absurd hk (Nat.not_lt_zero k)⟩

section
variable {s₀ s t : State} {d : List (List Byte)} {es : List Emission}

theorem State.Encoded.acfg (h : s₀.Encoded s d es) : s.acfg = s₀.cfg := (congrArg State.acfg h.beside :)
theorem State.Encoded.srcAddr (h : s₀.Encoded s d es) : s.srcAddr = s₀.srcAddr := (congrArg State.srcAddr h.beside :)
theorem State.Encoded.srcLen (h : s₀.Encoded s d es) : s.srcLen = s₀.srcLen := (congrArg State.srcLen h.beside :)
theorem State.Encoded.dstAddr (h : s₀.Encoded s d es) : s.dstAddr = s₀.dstAddr := (congrArg State.dstAddr h.beside :)
theorem State.Encoded.dstCap (h : s₀.Encoded s d es) : s.dstCap = s₀.dstCap := (congrArg State.dstCap h.beside :)

theorem State.Encoded.dsize (h : s₀.Encoded s d es) : s.dsize = Textbook.sizeOf s.acfg d :=
  congrArg (s.acfg.firstFree + ·) h.spells.length

/-- One more code in the stream (R125). -/
theorem State.Encoded.packWrite (h : s₀.Encoded s d es) {v : Code} {w : Nat} (ht : s.packWrite v w = .ok t) :
    s₀.Encoded t d (es ++ [⟨v.toNat, w⟩]) := by
  obtain ⟨hroom, ht', m, a, n, o, hframe⟩ := State.packWrite_ok ht
  have hlt : s.bitsOut + w < 8 * 2 ^ 32 := by
    have hcap := s.dstCap.isLt
    unfold State.bitsOut
    omega
  have hbits : t.bitsOut = s.bitsOut + w := by rw [ht']; exact State.packBits_bitsOut v w s hlt
  have hmem : SameMemoryBut s t s.outLen.toNat t.outLen.toNat := by rw [ht']; exact State.packBits_memBut v w hlt
  have hout := t.outLen_eq_bitsOut_div
  have hcap : t.dstCap = s.dstCap := by rw [hframe]
  have hstream : streamBits (es ++ [⟨v.toNat, w⟩]) = streamBits es ++ Textbook.bits v.toNat w := by
    simp [streamBits]
  have hle : s.outLen.toNat ≤ t.outLen.toNat := by
    rw [hout, hbits, s.outLen_eq_bitsOut_div]
    omega
  exact {
    beside := by rw [hframe]; exact h.beside
    spells := by rw [hframe]; exact h.spells
    size := by rw [hframe]; exact h.size
    srcPos := by rw [hframe]; exact h.srcPos
    pad := by rw [ht']; exact State.packBits_padZero v w h.pad
    bitsOut := by rw [hbits, hstream, h.bitsOut, List.length_append, Textbook.bits_length]
    room := by rw [hout, hbits, hcap]; unfold State.bitsOut; omega
    codeCount := by
      rw [hframe, List.length_append, BitVec.ofNat_add]
      exact congrArg (· + 1) h.codeCount
    memBut := h.memBut.trans hmem h.dstAddr (Nat.zero_le _) hle
    stream := fun hm => by
      obtain ⟨hwf, hkept⟩ := h.stream hm
      have happ := State.Appended.of_packWrite hwf ht
      refine ⟨happ.wf, fun k hk => ?_⟩
      rw [hstream]
      rcases Nat.lt_or_ge k s.bitsOut with hlt | hge
      · rw [happ.kept k hlt, hkept k hlt, List.getD_append _ _ _ _ (h.bitsOut ▸ hlt)]
      · obtain ⟨j, rfl⟩ := Nat.exists_eq_add_of_le hge
        rw [happ.added j (by rw [Textbook.bits_length]; omega), h.bitsOut,
          List.getD_append_right _ _ _ _ (Nat.le_add_right _ _), Nat.add_sub_cancel_left] }

/-- A code that does not fit, and a stream that goes on with it, do not fit in DST_CAP. -/
theorem State.Encoded.packWrite_error (h : s₀.Encoded s d es) {v : Code} {w : Nat} {e : Err} (he : s.packWrite v w = .error e)
    (l : List Emission) : 8 * s₀.dstCap.toNat < (streamBits (es ++ ⟨v.toNat, w⟩ :: l)).length := by
  obtain ⟨-, hover⟩ := State.packWrite_error he
  have hbits := h.bitsOut
  rw [← h.dstCap, Textbook.streamBits_append, Textbook.streamBits_cons, List.length_append, List.length_append,
    Textbook.bits_length]
  unfold State.bitsOut at hbits
  dsimp only
  omega

/-- The source is apart from the output, so it still reads as it did (20_memory.md R48). -/
theorem State.Encoded.memRead_src (h : s₀.Encoded s d es) (hfit : s₀.RegionsFit s₀.dstCap) {p : Word}
    (hp : p.toNat < s.srcLen.toNat) : s.memRead (s.srcAddr + p) = s₀.memRead (s₀.srcAddr + p) := by
  obtain ⟨hsrc, hdst, hapart⟩ := hfit
  have hroom := h.room
  rw [h.dstCap] at hroom
  rw [h.srcLen] at hp
  rw [h.srcAddr]
  refine h.memBut _ fun i _ hi => ?_
  rw [BitVec.toNat_add, BitVec.toNat_add, BitVec.toNat_ofNat]
  have hcap := s₀.dstCap.isLt
  have hlen := s₀.srcLen.isLt
  omega

end

/-! ### What ENCODE has still to do -/

/-- The source bytes from place `p` on. -/
def State.sourceFrom (s : State) (p : Word) : List Byte := s.memReadList (s.srcAddr + p) (s.srcLen - p).toNat

theorem State.sourceFrom_zero (s : State) : s.sourceFrom 0 = s.memReadList s.srcAddr s.srcLen.toNat := by
  simp [State.sourceFrom]

theorem State.sourceFrom_end (s : State) : s.sourceFrom s.srcLen = [] := by
  rw [State.sourceFrom, BitVec.sub_self]
  rfl

theorem State.sourceFrom_cons {s : State} {p : Word} (h : p ≠ s.srcLen) :
    s.sourceFrom p = s.memRead (s.srcAddr + p) :: s.sourceFrom (p + 1) := by
  have hlen : (s.srcLen - p).toNat = (s.srcLen - (p + 1)).toNat + 1 := by bv_omega
  rw [State.sourceFrom, State.sourceFrom, hlen, State.memReadList, BitVec.add_assoc]

/-- The emissions of the greedy encoder over strings for the source. -/
def State.emissions (s : State) : List Emission := Textbook.encode s.cfg (s.memReadList s.srcAddr s.srcLen.toNat)

/-- What each phase of ENCODE holds in its working registers, and the emissions still to come from it (R126, R128). -/
inductive State.EncodePhase (s₀ s : State) (d : List (List Byte)) : List Emission → Prop
  | first (hp : s.phase = .encFirst) (hpos : s.srcPos = 0) (hne : s.srcLen ≠ 0) (hd : d = []) :
      EncodePhase s₀ s d (Textbook.encode s.acfg (s₀.sourceFrom s.srcPos))
  | next (hp : s.phase = .encNext) (hcur : Allocated s.acfg d s.cur.toNat) :
      EncodePhase s₀ s d (Textbook.encodeFrom s.acfg d (stringOf s.acfg d s.cur.toNat) (s₀.sourceFrom s.srcPos))
  | lookup (hp : s.phase = .encLookup) (hcur : Allocated s.acfg d s.cur.toNat) :
      EncodePhase s₀ s d (Textbook.encodeFrom s.acfg d (stringOf s.acfg d s.cur.toNat) (s.b :: s₀.sourceFrom s.srcPos))
  | emit (hp : s.phase = .encEmit) (hcur : Allocated s.acfg d s.cur.toNat)
      (hmiss : stringOf s.acfg d s.cur.toNat ++ [s.b] ∉ d) :
      EncodePhase s₀ s d (Textbook.encodeFrom s.acfg d (stringOf s.acfg d s.cur.toNat) (s.b :: s₀.sourceFrom s.srcPos))
  | grow (hp : s.phase = .encGrow) (hcur : Allocated s.acfg d s.cur.toNat)
      (hmiss : stringOf s.acfg d s.cur.toNat ++ [s.b] ∉ d) :
      EncodePhase s₀ s d (Textbook.afterMiss s.acfg d (stringOf s.acfg d s.cur.toNat) s.b (s₀.sourceFrom s.srcPos))
  | final (hp : s.phase = .encFinal) (hcur : Allocated s.acfg d s.cur.toNat) (hpos : s.srcPos = s.srcLen) :
      EncodePhase s₀ s d (Textbook.encodeFrom s.acfg d (stringOf s.acfg d s.cur.toNat) [])
  | last (hp : s.phase = .encEnd) (hpos : s.srcPos = s.srcLen) :
      EncodePhase s₀ s d (if s.acfg.ctrl then [⟨257, s.acfg.widthOf (s.dsize + 1)⟩] else [])
  | flush (hp : s.phase = .encFlush) (hpos : s.srcPos = s.srcLen) : EncodePhase s₀ s d []

/-- `s` is a state of ENCODE, written in `s₀`, between its start check and its end. -/
def State.Encoding (s₀ s : State) : Prop :=
  ∃ d es l, s₀.Encoded s d es ∧ s₀.EncodePhase s d l ∧ s₀.emissions = es ++ l

/-- How ENCODE, written in `s₀` and past its start check, can end: its whole stream emitted and flushed, or with OutputOverflow,
and then the stream is longer than DST_CAP (R126, R129). -/
inductive State.EncodeEnd (s₀ : State) : State → Prop
  | completed {s u : State} {d : List (List Byte)} (h : s₀.Encoded s d s₀.emissions) (hpos : s.srcPos = s.srcLen)
      (hu : s.packFlush = .ok u) : EncodeEnd s₀ u.complete
  | overflowed {s : State} {d : List (List Byte)} {es : List Emission} {e : Err} (h : s₀.Encoded s d es)
      (he : e.kind = .outputOverflow) (hbig : 8 * s₀.dstCap.toNat < (streamBits s₀.emissions).length) :
      EncodeEnd s₀ (s.raise e)

/-- A step of ENCODE leads on or ends the command. -/
def State.EncodeGoes (s₀ t : State) : Prop := s₀.Encoding t ∨ s₀.EncodeEnd t

section
variable {s₀ s : State} {d : List (List Byte)} {es l : List Emission}

theorem State.Encoding.started (hl : s₀.cfg.legal = true) : s₀.Encoding s₀.started := by
  refine ⟨[], [], s₀.emissions, .started hl, ?_, rfl⟩
  by_cases hsrc : s₀.srcLen = 0
  · have hnone : s₀.emissions = [] := by rw [State.emissions, hsrc]; rfl
    rw [hnone]
    exact .flush (if_pos hsrc) hsrc.symm
  · rw [State.emissions, ← State.sourceFrom_zero]
    exact .first (if_neg hsrc) rfl hsrc rfl

/-- The string of a byte is a match of its own, so the encoder goes on from it at ENC_NEXT. -/
theorem State.Encoded.next_of_byte (h : s₀.Encoded s d es) (hp : s.phase = .encNext) {b : Byte}
    (hcur : s.cur = b.setWidth 16)
    (heq : s₀.emissions = es ++ Textbook.encodeFrom s.acfg d [b] (s₀.sourceFrom s.srcPos)) : s₀.Encoding s := by
  have hb := b.isLt
  have hk : s.cur.toNat = b.toNat := by rw [hcur]; exact BitVec.toNat_setWidth_of_le (by decide)
  refine ⟨d, es, _, h, .next hp (.inl (by omega)), ?_⟩
  rw [hcur, Textbook.stringOf_byte]
  exact heq

/-- A row that emits one code goes on after it, or ends the command with the overflow. -/
theorem State.Encoded.goOn_packWrite (h : s₀.Encoded s d es) {v : Code} {w : Nat} {p : Phase}
    (heq : s₀.emissions = es ++ ⟨v.toNat, w⟩ :: l)
    (hphase : ∀ m a n o c,
      s₀.EncodePhase { s with mem := m, pacc := a, pnb := n, outLen := o, codeCount := c, phase := p } d l) :
    s₀.EncodeGoes (s.goOn p (s.packWrite v w)) := by
  rcases State.goOn_cases s p (s.packWrite v w) with ⟨t, ht, hgo⟩ | ⟨e, he, hgo⟩ <;> rw [hgo]
  · have henc := h.packWrite ht
    obtain ⟨-, -, m, a, n, o, rfl⟩ := State.packWrite_ok ht
    refine .inl ⟨d, _, l, { henc with }, hphase m a n o _, ?_⟩
    rw [heq, List.append_assoc]
    rfl
  · refine .inr (.overflowed h ?_ (heq ▸ h.packWrite_error he l))
    rw [(State.packWrite_error he).1]
    rfl

theorem State.Encoded.encFirst (h : s₀.Encoded s d es) (hfit : s₀.RegionsFit s₀.dstCap) (hpos : s.srcPos = 0)
    (hne : s.srcLen ≠ 0) (hd : d = []) (heq : s₀.emissions = es ++ Textbook.encode s.acfg (s₀.sourceFrom s.srcPos)) :
    s₀.EncodeGoes s.encFirstStep := by
  have hlen : 0 < s.srcLen.toNat := by bv_omega
  have hread : s.memRead s.srcAddr = s₀.memRead (s₀.srcAddr + 0) := by
    rw [← h.memRead_src hfit (p := 0) hlen]
    simp
  refine .inl (State.Encoded.next_of_byte (d := d) (es := es) { h with srcPos := hlen } rfl rfl ?_)
  rw [hpos, State.sourceFrom_cons (by rw [← h.srcLen]; exact hne.symm), ← hread] at heq
  subst hd
  exact heq

theorem State.Encoded.encNext (h : s₀.Encoded s d es) (hfit : s₀.RegionsFit s₀.dstCap)
    (hcur : Allocated s.acfg d s.cur.toNat)
    (heq : s₀.emissions = es ++
      Textbook.encodeFrom s.acfg d (stringOf s.acfg d s.cur.toNat) (s₀.sourceFrom s.srcPos)) :
    s₀.EncodeGoes s.encNextStep := by
  have hle := h.srcPos
  unfold State.encNextStep
  split
  · rename_i hend
    rw [hend, h.srcLen, State.sourceFrom_end] at heq
    exact .inl ⟨d, es, _, { h with }, .final rfl hcur hend, heq⟩
  · rename_i hmore
    have hlt : s.srcPos.toNat < s.srcLen.toNat := by bv_omega
    have hsucc : (s.srcPos + 1).toNat ≤ s.srcLen.toNat := by bv_omega
    rw [State.sourceFrom_cons (by rw [← h.srcLen]; exact hmore), ← h.memRead_src hfit hlt] at heq
    exact .inl ⟨d, es, _, { h with srcPos := hsucc }, .lookup rfl hcur, heq⟩

/-- A hit of the table answers the code of the longer string (R123). -/
theorem State.Encoded.lookup_some (h : s₀.Encoded s d es) (hl : s₀.cfg.legal = true) {p r : Code} {y : Byte}
    (hr : s.lookup p y = some r) :
    Allocated s.acfg d r.toNat ∧ stringOf s.acfg d r.toNat = stringOf s.acfg d p.toNat ++ [y] ∧
      stringOf s.acfg d p.toNat ++ [y] ∈ d := by
  obtain ⟨n, hf, rfl⟩ := Option.map_eq_some_iff.1 hr
  obtain ⟨hstr, hmem, hn⟩ := h.spells.of_findPair_some hf
  have hmax := CfgFields.maxSize_bounds (h.acfg.symm ▸ hl)
  have hsize := h.size
  rw [h.dsize, Textbook.sizeOf] at hsize
  have hcode : (BitVec.ofNat 16 (s.acfg.firstFree + n)).toNat = s.acfg.firstFree + n := Nat.mod_eq_of_lt (by omega)
  rw [hcode]
  exact ⟨.inr ⟨Nat.le_add_right _ _, Nat.add_lt_add_left hn _⟩, hstr, hmem⟩

theorem State.Encoded.encLookup (h : s₀.Encoded s d es) (hl : s₀.cfg.legal = true) (hcur : Allocated s.acfg d s.cur.toNat)
    (heq : s₀.emissions = es ++
      Textbook.encodeFrom s.acfg d (stringOf s.acfg d s.cur.toNat) (s.b :: s₀.sourceFrom s.srcPos)) :
    s₀.EncodeGoes s.encLookupStep := by
  unfold State.encLookupStep
  split
  · rename_i r hr
    obtain ⟨halloc, hstr, hmem⟩ := h.lookup_some hl hr
    rw [Textbook.encodeFrom_hit _ hmem, ← hstr] at heq
    exact .inl ⟨d, es, _, { h with }, .next rfl halloc, heq⟩
  · rename_i hnone
    have hmiss := h.spells.of_findPair_none hcur (Option.map_eq_none_iff.1 hnone)
    exact .inl ⟨d, es, _, { h with }, .emit rfl hcur hmiss, heq⟩

theorem State.Encoded.encEmit (h : s₀.Encoded s d es) (hcur : Allocated s.acfg d s.cur.toNat)
    (hmiss : stringOf s.acfg d s.cur.toNat ++ [s.b] ∉ d)
    (heq : s₀.emissions = es ++
      Textbook.encodeFrom s.acfg d (stringOf s.acfg d s.cur.toNat) (s.b :: s₀.sourceFrom s.srcPos)) :
    s₀.EncodeGoes s.encEmitStep := by
  rw [Textbook.encodeFrom_miss _ hmiss, h.spells.codeOf_stringOf hcur, ← h.dsize] at heq
  exact h.goOn_packWrite heq fun m a n o c => .grow rfl hcur hmiss

theorem State.Encoded.encFinal (h : s₀.Encoded s d es) (hcur : Allocated s.acfg d s.cur.toNat) (hpos : s.srcPos = s.srcLen)
    (heq : s₀.emissions = es ++ Textbook.encodeFrom s.acfg d (stringOf s.acfg d s.cur.toNat) []) :
    s₀.EncodeGoes s.encFinalStep := by
  rw [Textbook.encodeFrom, h.spells.codeOf_stringOf hcur, ← h.dsize] at heq
  exact h.goOn_packWrite heq fun m a n o c => .last rfl hpos

theorem State.Encoded.encEnd (h : s₀.Encoded s d es) (hpos : s.srcPos = s.srcLen)
    (heq : s₀.emissions = es ++ if s.acfg.ctrl then [⟨257, s.acfg.widthOf (s.dsize + 1)⟩] else []) :
    s₀.EncodeGoes s.encEndStep := by
  unfold State.encEndStep
  cases hc : s.acfg.ctrl with
  | true =>
    rw [hc] at heq
    exact h.goOn_packWrite (v := endCode) heq fun m a n o c => .flush rfl hpos
  | false =>
    rw [hc] at heq
    exact .inl ⟨d, es, [], { h with }, .flush rfl hpos, heq⟩

/-- With room in the table the longer string enters it (R92 item 1). -/
theorem State.Encoded.insert (h : s₀.Encoded s d es) (hcur : Allocated s.acfg d s.cur.toNat)
    (hmiss : stringOf s.acfg d s.cur.toNat ++ [s.b] ∉ d) (hroom : s.dsize < s.acfg.maxSize) :
    s₀.Encoded (s.insert s.cur s.b) (d ++ [stringOf s.acfg d s.cur.toNat ++ [s.b]]) es :=
  { h with
    spells := h.spells.insert hcur hmiss
    size := by rw [State.insert_dsize]; exact hroom }

theorem State.Encoded.dictInit (h : s₀.Encoded s d es) : s₀.Encoded s.dictInit [] es :=
  { h with
    spells := Spells.nil _
    size := (Nat.le_add_right _ _).trans h.size }

theorem State.Encoded.encGrow (h : s₀.Encoded s d es) (hcur : Allocated s.acfg d s.cur.toNat)
    (hmiss : stringOf s.acfg d s.cur.toNat ++ [s.b] ∉ d)
    (heq : s₀.emissions = es ++
      Textbook.afterMiss s.acfg d (stringOf s.acfg d s.cur.toNat) s.b (s₀.sourceFrom s.srcPos)) :
    s₀.EncodeGoes s.encGrowStep := by
  rw [Textbook.afterMiss, ← h.dsize] at heq
  unfold State.encGrowStep State.growTable
  by_cases hroom : s.dsize < s.acfg.maxSize
  · rw [if_pos hroom] at heq ⊢
    exact .inl (State.Encoded.next_of_byte { h.insert hcur hmiss hroom with } rfl rfl heq)
  · rw [if_neg hroom] at heq ⊢
    cases hc : s.acfg.ctrl with
    | false =>
      rw [hc] at heq
      exact .inl (State.Encoded.next_of_byte { h.dictInit with } rfl rfl heq)
    | true =>
      rw [hc, if_pos rfl] at heq
      cases hw : s.emit clearCode s.dsize with
      | error e =>
        refine .inr (.overflowed h ?_ (heq ▸ h.packWrite_error (v := clearCode) hw _))
        rw [(State.packWrite_error hw).1]
        rfl
      | ok t =>
        have henc := (h.packWrite hw).dictInit
        obtain ⟨-, -, m, a, n, o, rfl⟩ := State.packWrite_ok hw
        refine .inl (State.Encoded.next_of_byte { henc with } rfl rfl ?_)
        rw [heq, List.append_assoc]
        rfl

theorem State.Encoded.encFlush (h : s₀.Encoded s d s₀.emissions) (hpos : s.srcPos = s.srcLen) :
    s₀.EncodeEnd s.encFlushStep := by
  rw [State.encFlushStep]
  rcases State.finish_cases s s.packFlush with ⟨u, hu, hend⟩ | ⟨e, he, hend⟩ <;> rw [hend]
  · exact .completed h hpos hu
  · obtain ⟨rfl, hp, hover⟩ := State.packFlush_error he
    have hpending := State.pnb_pos hp
    have hbits := h.bitsOut
    refine .overflowed h rfl ?_
    rw [← h.dstCap, ← hbits, State.bitsOut]
    omega

end

/-- Every row of R128 past ENC_START leads on or ends the command. -/
theorem State.Encoding.engineStep {s₀ s : State} (hl : s₀.cfg.legal = true) (hfit : s₀.RegionsFit s₀.dstCap)
    (h : s₀.Encoding s) : s₀.EncodeGoes s.engineStep := by
  obtain ⟨d, es, l, henc, hphase, heq⟩ := h
  cases hphase with
  | first hp hpos hne hd => rw [State.engineStep_encFirst hp]; exact henc.encFirst hfit hpos hne hd heq
  | next hp hcur => rw [State.engineStep_encNext hp]; exact henc.encNext hfit hcur heq
  | lookup hp hcur => rw [State.engineStep_encLookup hp]; exact henc.encLookup hl hcur heq
  | emit hp hcur hmiss => rw [State.engineStep_encEmit hp]; exact henc.encEmit hcur hmiss heq
  | grow hp hcur hmiss => rw [State.engineStep_encGrow hp]; exact henc.encGrow hcur hmiss heq
  | final hp hcur hpos => rw [State.engineStep_encFinal hp]; exact henc.encFinal hcur hpos heq
  | last hp hpos => rw [State.engineStep_encEnd hp]; exact henc.encEnd hpos heq
  | flush hp hpos =>
    rw [List.append_nil] at heq
    subst heq
    rw [State.engineStep_encFlush hp]
    exact .inr (henc.encFlush hpos)

theorem State.Encoding.phase_ne_idle {s₀ s : State} (h : s₀.Encoding s) : s.phase ≠ .idle := by
  obtain ⟨d, es, l, -, hphase, -⟩ := h
  cases hphase <;> simp_all

theorem State.EncodeEnd.phase {s₀ t : State} (h : s₀.EncodeEnd t) : t.phase = .idle := by
  cases h <;> rfl

/-- A run of ENCODE that answers a state has ended in one of the ways of R126. -/
theorem State.Encoding.runEngine {s₀ : State} (hl : s₀.cfg.legal = true) (hfit : s₀.RegionsFit s₀.dstCap) :
    ∀ (n : Nat) {s t : State}, s₀.Encoding s → s.runEngine n = .next t → s₀.EncodeEnd t
  | 0, s, t, h, ht => by
    rw [State.runEngine, if_neg h.phase_ne_idle] at ht
    cases ht
  | n + 1, s, t, h, ht => by
    rw [State.runEngine_busy h.phase_ne_idle] at ht
    rcases h.engineStep hl hfit with hgo | hend
    · exact hgo.runEngine hl hfit n ht
    · rw [State.runEngine_idle hend.phase] at ht
      cases ht
      exact hend

theorem State.EncodeEnd.of_exec {s t : State} (h : s.phase = .idle) (hl : s.cfg.legal = true)
    (hfit : s.RegionsFit s.dstCap) (ht : exec .encode s = .next t) : s.EncodeEnd t := by
  rw [exec_encode_started h (State.startCheck_of_fit hl hfit)] at ht
  exact (State.Encoding.started hl).runEngine hl hfit _ ht

/-! ### The state that ENCODE leaves (R126, R129) -/

/-- With no pending bits PACC is 0 (10_state.md R42 item 4). -/
theorem State.PadZero.pacc_eq_zero {s : State} (h : s.PadZero) (hp : s.pnb = 0) : s.pacc = 0 := by
  refine BitVec.eq_of_getLsbD_eq fun i hi => (h i ?_).trans BitVec.getLsbD_zero.symm
  rw [hp]
  exact hi

/-- ENC_FLUSH empties the packer, and writes at most one byte, within DST_CAP. -/
theorem State.Encoded.packFlush {s₀ s u : State} {d : List (List Byte)} {es : List Emission} (h : s₀.Encoded s d es)
    (hu : s.packFlush = .ok u) :
    (∃ m o, u = { s with mem := m, pacc := 0, pnb := 0, outLen := o }) ∧ u.outLen.toNat ≤ s.dstCap.toNat ∧
      SameMemoryBut s₀ u 0 u.outLen.toNat := by
  obtain ⟨hp, rfl⟩ | ⟨-, hroom, rfl⟩ := State.packFlush_ok hu
  · refine ⟨⟨u.mem, u.outLen, ?_⟩, h.room, h.memBut⟩
    rw [← hp, ← h.pad.pacc_eq_zero hp]
  · have hcap := s.dstCap.isLt
    have hsucc : (s.outLen + 1).toNat = s.outLen.toNat + 1 := State.outLen_succ (by omega)
    refine ⟨⟨_, _, rfl⟩, hsucc.trans_le hroom, ?_⟩
    refine h.memBut.trans (mid := s.outLen.toNat) (fun a ha => ?_) h.dstAddr (Nat.zero_le _) ?_
    · refine Memory.read_write_other ?_ _
      rw [← regionAddr_toNat]
      exact ha _ le_rfl (Nat.lt_succ_self _ |>.trans_eq hsucc.symm)
    · exact (Nat.le_succ _).trans_eq hsucc.symm

/-- What every ending of ENCODE past its start check leaves alone, and the bounds on what it writes. -/
structure State.EncodeFrame (s₀ t : State) : Prop where
  acfg : t.acfg = s₀.cfg
  hit : t.hit = false
  srcBit : t.srcBit = 0
  decoder : SameDecoderWork s₀ t
  size : t.dsize ≤ t.acfg.maxSize
  room : t.outLen.toNat ≤ s₀.dstCap.toNat
  memBut : SameMemoryBut s₀ t 0 t.outLen.toNat
  spells : ∃ d, Spells t.acfg t.dict d

theorem State.Encoded.frame {s₀ s : State} {d : List (List Byte)} {es : List Emission} (h : s₀.Encoded s d es) :
    s₀.EncodeFrame s where
  acfg := h.acfg
  hit := (congrArg State.hit h.beside :)
  srcBit := (congrArg State.srcBit h.beside :)
  decoder := ⟨(congrArg State.prev h.beside :), (congrArg State.prevValid h.beside :), (congrArg State.code h.beside :),
    (congrArg State.seq h.beside :)⟩
  size := h.size
  room := h.dstCap ▸ h.room
  memBut := h.memBut
  spells := ⟨d, h.spells⟩

theorem State.EncodeEnd.frame {s₀ t : State} (h : s₀.EncodeEnd t) : s₀.EncodeFrame t := by
  cases h with
  | overflowed h he hbig => exact { h.frame with }
  | completed h hpos hu =>
    obtain ⟨⟨m, o, rfl⟩, hroom, hmem⟩ := h.packFlush hu
    exact { h.frame with room := h.dstCap ▸ hroom, memBut := hmem }

theorem State.startCheck_errorKind {s : State} {n : Word} {e : Err} (h : s.startCheck n = .error e) :
    e.kind = .invalidConfiguration := by
  unfold State.startCheck at h
  split at h
  · cases h
    rename_i hc
    rcases (s.cfgCheck_eq_error_iff e).1 hc with ⟨-, rfl⟩ | ⟨-, -, rfl⟩ <;> rfl
  · unfold State.regionsOk at h
    split at h
    · cases h
      rfl
    · split at h
      · cases h
        rfl
      · split at h <;> cases h
        rfl

/-- However ENCODE ends: InvalidConfiguration with nothing changed, or an ending past the start check. -/
theorem exec_encode_cases {s t : State} (h : s.phase = .idle) (ht : exec .encode s = .next t) :
    (∃ e : Err, e.kind = .invalidConfiguration ∧ t = s.failed .encode e) ∨
    (t.err ≠ some .invalidConfiguration ∧ s.EncodeEnd t) := by
  have hchecks : s.ChecksStart .encode s.dstCap := .inl ⟨rfl, rfl⟩
  cases hc : s.startCheck s.dstCap with
  | error e =>
    rw [hchecks.exec_error h hc] at ht
    cases ht
    exact .inl ⟨e, State.startCheck_errorKind hc, rfl⟩
  | ok u =>
    obtain ⟨hl, hr⟩ := (s.startCheck_eq_ok_iff _).1 hc
    exact .inr ⟨hchecks.exec_ok hc h ht, .of_exec h hl ((s.regionsOk_eq_ok_iff _).1 hr) ht⟩

/-- Settles O30: the frame of every ending past the start check, and before it nothing is written. -/
theorem encodeWritesOnlyItsOutput : Obligations.EncodeWritesOnlyItsOutput := by
  intro s t h ht
  obtain ⟨hops, hhost⟩ := noCommandWritesAnOperand .encode s t ht
  have hres := (exec_keeps h ht).2.1 rfl
  rcases exec_encode_cases h ht with ⟨e, he, rfl⟩ | ⟨herr, hend⟩
  · exact ⟨fun _ => ⟨fun _ => rfl, ⟨rfl, rfl, rfl⟩, rfl, rfl⟩, fun hne => absurd (congrArg some he) hne, hops, hres, rfl,
      ⟨rfl, rfl, rfl, rfl⟩, hhost⟩
  · have hframe := hend.frame
    exact ⟨fun hinv => absurd hinv herr, fun _ => ⟨hframe.room, hframe.memBut, hframe.acfg⟩, hops, hres, hframe.hit,
      hframe.decoder, hhost⟩

/-! ### The strings of the table that ENCODE leaves (R124) -/

theorem State.allocated_iff {s : State} {d : List (List Byte)} (h : Spells s.acfg s.dict d) (k : Nat) :
    s.isEntry k = true ↔ Allocated s.acfg d k := by
  rw [State.isEntry_iff, State.dsize, h.length, Allocated, Textbook.sizeOf]

/-- The walk of 45_decoder.md R140 finds the string that the dictionary has for the code. -/
theorem State.walk_spells {s : State} {d : List (List Byte)} (h : Spells s.acfg s.dict d) : ∀ (fuel k : Nat),
    Allocated s.acfg d k → k < s.acfg.firstFree + fuel → s.walk k [] fuel = some (stringOf s.acfg d k) := by
  have hff := s.acfg.firstFree_cases
  intro fuel
  induction fuel with
  | zero =>
    intro k hk hlt
    have hsmall : k ≤ 255 := by
      unfold Allocated at hk
      omega
    rw [State.walk_singleton s (by omega), Textbook.stringOf_singleton _ _ hsmall]
  | succ fuel ih =>
    intro k hk hlt
    rcases hk with hsmall | ⟨hge, hsize⟩
    · rw [State.walk_singleton s (by omega), Textbook.stringOf_singleton _ _ hsmall]
    · obtain ⟨n, rfl⟩ := Nat.exists_eq_add_of_le hge
      obtain ⟨e, he⟩ := h.exists_entry (Nat.lt_of_add_lt_add_left hsize)
      have hlink := (h.links n e he).1
      rw [State.walk_entry ((s.entry?_firstFree_add n).trans he), State.walk_append,
        ih _ (h.pre_allocated he) (by omega), h.stringOf_entry he]
      rfl

theorem State.expand_spells {s : State} {d : List (List Byte)} (h : Spells s.acfg s.dict d) (hsize : s.dsize ≤ s.acfg.maxSize)
    {c : Code} (hc : s.isEntry c.toNat = true) : s.expand c = .ok (stringOf s.acfg d c.toNat) := by
  have hff := s.acfg.firstFree_cases
  refine State.expand_of_walk (State.walk_spells h _ _ ((State.allocated_iff h _).1 hc) ?_)
  rw [State.isEntry_iff] at hc
  omega

/-- Settles O32: the table spells a dictionary without repetition, and expansion gives its strings. -/
theorem encodeLeavesDistinctStrings : Obligations.EncodeLeavesDistinctStrings := by
  intro s t h _ ht herr c c' hc hc' heq
  rcases exec_encode_cases h ht with ⟨e, he, rfl⟩ | ⟨-, hend⟩
  · exact absurd (congrArg some he) herr
  · obtain ⟨d, hspells⟩ := hend.frame.spells
    have hsize := hend.frame.size
    rw [State.expand_spells hspells hsize hc, State.expand_spells hspells hsize hc'] at heq
    exact BitVec.eq_of_toNat_eq (hspells.stringOf_injective ((State.allocated_iff hspells _).1 hc)
      ((State.allocated_iff hspells _).1 hc') (Except.ok.inj heq))

/-! ### A stream that fits (R127, R131) -/

/-- ENCODE whose stream fits in DST_CAP completes, with the whole stream emitted and flushed. -/
theorem exec_encode_of_fits {s : State} (h : s.phase = .idle) (hl : s.cfg.legal = true) (hfit : s.RegionsFit s.dstCap)
    (hlen : (streamBits s.emissions).length ≤ 8 * s.dstCap.toNat) :
    ∃ r u d, exec .encode s = .next u.complete ∧ s.Encoded r d s.emissions ∧ r.srcPos = r.srcLen ∧ r.packFlush = .ok u := by
  obtain ⟨t, ht, -⟩ := everyCommandTerminates .encode s h
  cases State.EncodeEnd.of_exec h hl hfit ht with
  | overflowed _ _ hbig => exact absurd hbig (Nat.not_lt.2 hlen)
  | completed henc hpos hu => exact ⟨_, _, _, ht, henc, hpos, hu⟩

/-- The completed command's flags: those of acceptance, which the rows of ENCODE leave, and DONE (R75, R76). -/
theorem State.Encoded.completed {s₀ s u : State} {d : List (List Byte)} {es : List Emission} (h : s₀.Encoded s d es)
    (hu : s.packFlush = .ok u) : Completed .encode u.complete := by
  obtain ⟨⟨m, o, rfl⟩, -⟩ := h.packFlush hu
  exact ⟨rfl, rfl, (congrArg State.hit h.beside :), (congrArg State.err h.beside :), (congrArg State.errInfo h.beside :),
    (congrArg State.cmd h.beside :)⟩

theorem State.emissions_length (s : State) : s.emissions.length ≤ 2 * s.srcLen.toNat := by
  have hlen := Textbook.encode_length s.cfg (s.memReadList s.srcAddr s.srcLen.toNat)
  rwa [State.memReadList_length] at hlen

/-- R131: at most two codes for each source byte, of at most MAXW bits each. -/
theorem State.emissions_bits (s : State) : (streamBits s.emissions).length ≤ 2 * s.srcLen.toNat * s.cfg.maxw :=
  (Textbook.streamBits_length_le (Textbook.encode_width _ _)).trans (Nat.mul_le_mul_right _ s.emissions_length)

/-- Settles O28: the size bound of R131 rules the overflow out. -/
theorem encodeCompletesWithRoom : Obligations.EncodeCompletesWithRoom := by
  intro s h hl hfit hcap
  have hlen : (streamBits s.emissions).length ≤ 8 * s.dstCap.toNat := by
    have hbits := s.emissions_bits
    by_cases hsrc : s.srcLen = 0
    · rw [hsrc] at hbits
      simp at hbits
      simp [hbits]
    · have hroom : ((2 * s.srcLen.toNat + 1) * s.cfg.maxw + 7) / 8 ≤ s.dstCap.toNat := hcap hsrc
      rw [Nat.succ_mul] at hroom
      omega
  obtain ⟨r, u, d, ht, henc, hpos, hu⟩ := exec_encode_of_fits h hl hfit hlen
  obtain ⟨hops, hhost⟩ := noCommandWritesAnOperand .encode s _ ht
  have hres := (exec_keeps h ht).2.1 rfl
  have hframe := (State.EncodeEnd.completed henc hpos hu).frame
  have hcount : r.codeCount.toNat ≤ 2 * s.srcLen.toNat + 1 := by
    rw [henc.codeCount, BitVec.toNat_ofNat]
    have hcodes := s.emissions_length
    exact (Nat.mod_le _ _).trans (by omega)
  have hdone := henc.completed hu
  obtain ⟨⟨m, o, rfl⟩, -⟩ := henc.packFlush hu
  exact ⟨_, ht, hdone, hframe.acfg, hframe.size, hpos.trans henc.srcLen, hframe.srcBit, rfl, rfl, hframe.room,
    hcount, hops, hres, hframe.decoder, hhost, hframe.memBut⟩

/-- Settles O29: the emissions of the run are those of the encoder over strings, and the flush closes their stream. -/
theorem encodeWritesTheGreedyLzwStream : Obligations.EncodeWritesTheGreedyLzwStream := by
  intro s h hm hl hfit hroom
  have hlen : (Textbook.compress s.cfg (s.memReadList s.srcAddr s.srcLen.toNat)).length =
      ((streamBits s.emissions).length + 7) / 8 := Textbook.compress_length _ _
  obtain ⟨r, u, d, ht, henc, hpos, hu⟩ := exec_encode_of_fits h hl hfit (by omega)
  obtain ⟨hwf, hbits⟩ := henc.stream hm
  have hflush := State.Flushed.of_packFlush hwf henc.pad hu
  have hout : u.outLen.toNat = ((streamBits s.emissions).length + 7) / 8 := henc.bitsOut ▸ hflush.outLen
  have hstream : u.complete.memReadList u.dstAddr u.outLen.toNat = Textbook.bytesOf (streamBits s.emissions) := by
    refine State.memReadList_eq_bytesOf (s := u.complete) hout fun k (hk : k < 8 * u.outLen.toNat) => ?_
    show u.outBit k = _
    rcases Nat.lt_or_ge k r.bitsOut with hlt | hge
    · rw [hflush.kept k hlt, hbits k hlt]
    · rw [hflush.padded k hk hge, List.getD_eq_default _ _ (henc.bitsOut ▸ hge)]
  rw [hflush.dstAddr, henc.dstAddr] at hstream
  exact ⟨_, ht, henc.completed hu, hout.trans hlen.symm, hstream, hflush.codeCount.trans henc.codeCount,
    (State.EncodeEnd.completed henc hpos hu).frame.memBut⟩

end Sys2Proof.Machine
end

section
/-! PROOFS. Obligations of 45_decoder.md: ENCODE is a function of its input, DECODE writes only its output, its rows and its
refusals, and DECODE gives back the string whose greedy stream it reads. -/

namespace Sys2Proof.Machine

open Textbook (Emission streamBits stringOf Allocated Spells)

/-! ### Runs of a whole-buffer command (40_command.md R77) -/

/-- A run that answers a state has ended as its steps can end: each of them leads on within `P` or ends the command in `Q`. -/
theorem State.runEngine_ends {P Q : State → Prop} (hbusy : ∀ {s : State}, P s → s.phase ≠ .idle)
    (hidle : ∀ {t : State}, Q t → t.phase = .idle) (hstep : ∀ {s : State}, P s → P s.engineStep ∨ Q s.engineStep) :
    ∀ (n : Nat) {s t : State}, P s → s.runEngine n = .next t → Q t
  | 0, s, t, h, ht => by
    rw [State.runEngine, if_neg (hbusy h)] at ht
    cases ht
  | n + 1, s, t, h, ht => by
    rw [State.runEngine_busy (hbusy h)] at ht
    rcases hstep h with hgo | hend
    · exact State.runEngine_ends hbusy hidle hstep n hgo ht
    · rw [State.runEngine_idle (hidle hend)] at ht
      cases ht
      exact hend

/-! ### Two runs of ENCODE on the same input (R153 item 5) -/

/-- What decides the course of ENCODE, its working registers aside, with all else at its reset value. -/
def State.encodeView (s : State) : State :=
  { State.reset with
    err := s.err, acfg := s.acfg, srcLen := s.srcLen, dstCap := s.dstCap, dict := s.dict, pacc := s.pacc, pnb := s.pnb,
    outLen := s.outLen, srcPos := s.srcPos, codeCount := s.codeCount, errInfo := s.errInfo, phase := s.phase }

/-- The phases in which ENCODE has a current match. -/
def Phase.hasMatch (p : Phase) : Bool :=
  match p with
  | .encNext | .encLookup | .encEmit | .encGrow | .encFinal => true
  | .encFirst | .encEnd | .encFlush | .idle | .exec | .encStart => false
  | .decStart | .decTest | .decRead | .decClassify | .decWrite | .decGrow => false

/-- The phases in which ENCODE has a source byte in hand. -/
def Phase.hasByte (p : Phase) : Bool :=
  match p with
  | .encLookup | .encEmit | .encGrow => true
  | .encFirst | .encNext | .encFinal | .encEnd | .encFlush | .idle | .exec | .encStart => false
  | .decStart | .decTest | .decRead | .decClassify | .decWrite | .decGrow => false

/-- ENCODE stands alike in `s` and `s'`: only what it has read and written, and what it does not use, can differ. -/
structure State.EncodesAlike (s s' : State) : Prop where
  view : s.encodeView = s'.encodeView
  cur : s.phase.hasMatch = true → s.cur = s'.cur
  b : s.phase.hasByte = true → s.b = s'.b

section
variable {s s' : State}

theorem State.EncodesAlike.raise (h : s.encodeView = s'.encodeView) (e : Err) : (s.raise e).EncodesAlike (s'.raise e) :=
  ⟨congrArg (fun v : State => { v with err := some e.kind, errInfo := e.info, phase := .idle }) h, nofun, nofun⟩

theorem State.packBit_encodeView (h : s.encodeView = s'.encodeView) (b : Bool) :
    (s.packBit b).encodeView = (s'.packBit b).encodeView := by
  have hpnb : s.pnb = s'.pnb := (congrArg State.pnb h :)
  by_cases hf : s.pnb.toNat + 1 = 8
  · rw [State.packBit_full b hf, State.packBit_full b (hpnb ▸ hf)]
    exact (congrArg (fun v : State => { v with pacc := 0, pnb := 0, outLen := v.outLen + 1 }) h :)
  · rw [State.packBit_part b hf, State.packBit_part b (hpnb ▸ hf)]
    exact (congrArg (fun v : State => { v with pacc := setBit v.pacc (7 - v.pnb.toNat) b, pnb := v.pnb + 1 }) h :)

theorem State.packBits_encodeView (v : Code) : ∀ (w : Nat) {s s' : State}, s.encodeView = s'.encodeView →
    (s.packBits v w).encodeView = (s'.packBits v w).encodeView
  | 0, _, _, h => h
  | w + 1, _, _, h => State.packBits_encodeView v w (State.packBit_encodeView h _)

/-- One more code goes out in both runs, with the same registers after it, or overflows in both. -/
theorem State.packWrite_encodeView (h : s.encodeView = s'.encodeView) (v : Code) (w : Nat) :
    (∃ m m' a n o c, s.packWrite v w = .ok { s with mem := m, pacc := a, pnb := n, outLen := o, codeCount := c } ∧
      s'.packWrite v w = .ok { s' with mem := m', pacc := a, pnb := n, outLen := o, codeCount := c }) ∨
    ∃ e, s.packWrite v w = .error e ∧ s'.packWrite v w = .error e := by
  have hpnb : s.pnb = s'.pnb := (congrArg State.pnb h :)
  have hout : s.outLen = s'.outLen := (congrArg State.outLen h :)
  have hcap : s.dstCap = s'.dstCap := (congrArg State.dstCap h :)
  have hcount : s.codeCount = s'.codeCount := (congrArg State.codeCount h :)
  rcases Nat.lt_or_ge s.dstCap.toNat (s.outLen.toNat + (s.pnb.toNat + w) / 8) with hroom | hroom
  · refine .inr ⟨_, State.packWrite_of_noRoom hroom, State.packWrite_of_noRoom ?_⟩
    rwa [← hpnb, ← hout, ← hcap]
  · have hbits := State.packBits_encodeView v w h
    obtain ⟨m, a, n, o, hf⟩ := State.packBits_frame v w s
    obtain ⟨m', a', n', o', hf'⟩ := State.packBits_frame v w s'
    rw [hf, hf'] at hbits
    obtain rfl : a = a' := (congrArg State.pacc hbits :)
    obtain rfl : n = n' := (congrArg State.pnb hbits :)
    obtain rfl : o = o' := (congrArg State.outLen hbits :)
    refine .inl ⟨m, m', a, n, o, s.codeCount + 1, ?_, ?_⟩
    · rw [State.packWrite_of_room hroom, hf]
    · rw [State.packWrite_of_room (by rwa [← hpnb, ← hout, ← hcap]), hf', hcount]

theorem State.EncodesAlike.goOn_packWrite (h : s.encodeView = s'.encodeView) (v : Code) (w : Nat) {p : Phase}
    (hcur : p.hasMatch = true → s.cur = s'.cur) (hb : p.hasByte = true → s.b = s'.b) :
    (s.goOn p (s.packWrite v w)).EncodesAlike (s'.goOn p (s'.packWrite v w)) := by
  obtain ⟨m, m', a, n, o, c, ht, ht'⟩ | ⟨e, he, he'⟩ := State.packWrite_encodeView h v w
  · rw [ht, ht']
    exact ⟨congrArg (fun v : State => { v with pacc := a, pnb := n, outLen := o, codeCount := c, phase := p }) h, hcur, hb⟩
  · rw [he, he']
    exact State.EncodesAlike.raise h e

theorem State.encodeView_dsize (h : s.encodeView = s'.encodeView) : s.dsize = s'.dsize := (congrArg State.dsize h :)
theorem State.encodeView_acfg (h : s.encodeView = s'.encodeView) : s.acfg = s'.acfg := (congrArg State.acfg h :)
theorem State.encodeView_lookup (h : s.encodeView = s'.encodeView) (p : Code) (y : Byte) : s.lookup p y = s'.lookup p y :=
  (congrArg (State.lookup · p y) h :)

theorem State.EncodesAlike.encFirst (h : s.encodeView = s'.encodeView) (hread : s.memRead s.srcAddr = s'.memRead s'.srcAddr) :
    s.encFirstStep.EncodesAlike s'.encFirstStep :=
  ⟨congrArg (fun v : State => { v with srcPos := 1, phase := .encNext }) h, fun _ => congrArg (BitVec.setWidth 16) hread, nofun⟩

theorem State.EncodesAlike.encNext (h : s.encodeView = s'.encodeView) (hcur : s.cur = s'.cur)
    (hread : s.srcPos ≠ s.srcLen → s.memRead (s.srcAddr + s.srcPos) = s'.memRead (s'.srcAddr + s'.srcPos)) :
    s.encNextStep.EncodesAlike s'.encNextStep := by
  have hpos : s.srcPos = s'.srcPos := (congrArg State.srcPos h :)
  have hlen : s.srcLen = s'.srcLen := (congrArg State.srcLen h :)
  unfold State.encNextStep
  by_cases hend : s.srcPos = s.srcLen
  · rw [if_pos hend, if_pos (by rwa [← hpos, ← hlen])]
    exact ⟨congrArg (fun v : State => { v with phase := .encFinal }) h, fun _ => hcur, nofun⟩
  · rw [if_neg hend, if_neg (by rwa [← hpos, ← hlen])]
    exact ⟨congrArg (fun v : State => { v with srcPos := v.srcPos + 1, phase := .encLookup }) h, fun _ => hcur,
      fun _ => hread hend⟩

theorem State.EncodesAlike.encLookup (h : s.encodeView = s'.encodeView) (hcur : s.cur = s'.cur) (hb : s.b = s'.b) :
    s.encLookupStep.EncodesAlike s'.encLookupStep := by
  have hlook : s.lookup s.cur s.b = s'.lookup s'.cur s'.b := by rw [State.encodeView_lookup h, hcur, hb]
  unfold State.encLookupStep
  rw [← hlook]
  cases s.lookup s.cur s.b with
  | some r => exact ⟨congrArg (fun v : State => { v with phase := .encNext }) h, fun _ => rfl, nofun⟩
  | none => exact ⟨congrArg (fun v : State => { v with phase := .encEmit }) h, fun _ => hcur, fun _ => hb⟩

theorem State.EncodesAlike.encGrow (h : s.encodeView = s'.encodeView) (hcur : s.cur = s'.cur) (hb : s.b = s'.b) :
    s.encGrowStep.EncodesAlike s'.encGrowStep := by
  have hacfg := State.encodeView_acfg h
  unfold State.encGrowStep State.growTable State.emit
  rw [← hacfg, ← State.encodeView_dsize h]
  by_cases hroom : s.dsize < s.acfg.maxSize
  · rw [if_pos hroom, if_pos hroom, ← hcur, ← hb]
    exact ⟨congrArg (fun v : State => { v with dict := v.dict ++ [Entry.mk s.cur s.b], phase := .encNext }) h,
      fun _ => rfl, nofun⟩
  · rw [if_neg hroom, if_neg hroom]
    cases s.acfg.ctrl with
    | false =>
      exact ⟨congrArg (fun v : State => { v with dict := [], phase := .encNext }) h,
        fun _ => congrArg (BitVec.setWidth 16) hb, nofun⟩
    | true =>
      rw [if_pos rfl, if_pos rfl]
      obtain ⟨m, m', a, n, o, c, ht, ht'⟩ | ⟨e, he, he'⟩ := State.packWrite_encodeView h clearCode (s.acfg.widthOf s.dsize)
      · rw [ht, ht']
        exact ⟨congrArg (fun v : State =>
            { v with pacc := a, pnb := n, outLen := o, codeCount := c, dict := [], phase := .encNext }) h,
          fun _ => congrArg (BitVec.setWidth 16) hb, nofun⟩
      · rw [he, he']
        exact State.EncodesAlike.raise h e

theorem State.EncodesAlike.encEnd (h : s.encodeView = s'.encodeView) : s.encEndStep.EncodesAlike s'.encEndStep := by
  unfold State.encEndStep State.emit
  rw [← State.encodeView_acfg h, ← State.encodeView_dsize h]
  cases s.acfg.ctrl with
  | true => exact State.EncodesAlike.goOn_packWrite h endCode _ nofun nofun
  | false => exact ⟨congrArg (fun v : State => { v with phase := .encFlush }) h, nofun, nofun⟩

theorem State.EncodesAlike.encFlush (h : s.encodeView = s'.encodeView) : s.encFlushStep.EncodesAlike s'.encFlushStep := by
  have hpnb : s.pnb = s'.pnb := (congrArg State.pnb h :)
  have hout : s.outLen = s'.outLen := (congrArg State.outLen h :)
  have hcap : s.dstCap = s'.dstCap := (congrArg State.dstCap h :)
  unfold State.encFlushStep State.packFlush
  rw [← hpnb, ← hout, ← hcap]
  by_cases hp : s.pnb = 0
  · rw [if_pos hp, if_pos hp]
    exact ⟨congrArg (fun v : State => { v with phase := .idle }) h, nofun, nofun⟩
  · rw [if_neg hp, if_neg hp]
    by_cases hroom : s.outLen.toNat + 1 > s.dstCap.toNat
    · rw [if_pos hroom, if_pos hroom]
      exact State.EncodesAlike.raise h _
    · rw [if_neg hroom, if_neg hroom]
      exact ⟨congrArg (fun v : State => { v with pacc := 0, pnb := 0, outLen := v.outLen + 1, phase := .idle }) h, nofun, nofun⟩
end

/-- `s₀` and `s₀'` ask ENCODE for the same work, wherever their regions are. -/
structure State.SameTask (s₀ s₀' : State) : Prop where
  cfg : s₀.cfg = s₀'.cfg
  legal : s₀.cfg.legal = true
  dstCap : s₀.dstCap = s₀'.dstCap
  fit : s₀.RegionsFit s₀.dstCap
  fit' : s₀'.RegionsFit s₀'.dstCap
  srcLen : s₀.srcLen = s₀'.srcLen
  source : s₀.memReadList s₀.srcAddr s₀.srcLen.toNat = s₀'.memReadList s₀'.srcAddr s₀'.srcLen.toNat

section
variable {s₀ s₀' s s' t t' : State}

theorem State.SameTask.legal' (h : s₀.SameTask s₀') : s₀'.cfg.legal = true := h.cfg ▸ h.legal

theorem State.SameTask.memRead (h : s₀.SameTask s₀') {p : Word} (hp : p.toNat < s₀.srcLen.toNat) :
    s₀.memRead (s₀.srcAddr + p) = s₀'.memRead (s₀'.srcAddr + p) := by
  have hbyte := congrArg (·[p.toNat]?) h.source
  rw [State.memReadList_getElem? _ _ _ _ hp, State.memReadList_getElem? _ _ _ _ (h.srcLen ▸ hp), BitVec.ofNat_toNat,
    BitVec.setWidth_eq] at hbyte
  exact Option.some.inj hbyte

theorem State.EncodesAlike.started (h : s₀.SameTask s₀') : s₀.started.EncodesAlike s₀'.started := by
  have hphase : s₀.started.phase.hasMatch = false ∧ s₀.started.phase.hasByte = false := by
    have hstart : s₀.started.phase = if s₀.srcLen = 0 then .encFlush else .encFirst := rfl
    rw [hstart]
    split <;> exact ⟨rfl, rfl⟩
  refine ⟨?_, fun h => absurd (hphase.1.symm.trans h) Bool.noConfusion, fun h => absurd (hphase.2.symm.trans h) Bool.noConfusion⟩
  simp [State.encodeView, State.started, State.accept, State.latchAndInit, State.packInit, h.cfg, h.dstCap, h.srcLen]

/-- Every row of R128 past ENC_START keeps two runs on the same source alike. -/
theorem State.EncodesAlike.engineStep (h : s.EncodesAlike s') (htask : s₀.SameTask s₀') (henc : s₀.Encoding s)
    (henc' : s₀'.Encoding s') :
    s.engineStep.EncodesAlike s'.engineStep := by
  obtain ⟨hv, hcur, hb⟩ := h
  obtain ⟨d, es, l, hes, hphase, -⟩ := henc
  obtain ⟨d', es', l', hes', -, -⟩ := henc'
  have hp' : s'.phase = s.phase := (congrArg State.phase hv :).symm
  have hpos : s.srcPos = s'.srcPos := (congrArg State.srcPos hv :)
  have hread : s.srcPos ≠ s.srcLen → s.memRead (s.srcAddr + s.srcPos) = s'.memRead (s'.srcAddr + s'.srcPos) := by
    intro hne
    have hle := hes.srcPos
    have hlt : s.srcPos.toNat < s.srcLen.toNat := by bv_omega
    have hlt₀ : s.srcPos.toNat < s₀.srcLen.toNat := hes.srcLen ▸ hlt
    rw [hes.memRead_src htask.fit hlt, ← hpos, hes'.memRead_src htask.fit' (by rwa [hes'.srcLen, ← htask.srcLen]),
      htask.memRead hlt₀]
  cases hphase with
  | first hp hz hne _ =>
    rw [State.engineStep_encFirst hp, State.engineStep_encFirst (hp'.trans hp)]
    exact .encFirst hv (by simpa [← hpos, hz] using hread (by rw [hz]; exact hne.symm))
  | next hp =>
    rw [State.engineStep_encNext hp, State.engineStep_encNext (hp'.trans hp)]
    exact .encNext hv (hcur (by rw [hp]; rfl)) hread
  | lookup hp =>
    rw [State.engineStep_encLookup hp, State.engineStep_encLookup (hp'.trans hp)]
    exact .encLookup hv (hcur (by rw [hp]; rfl)) (hb (by rw [hp]; rfl))
  | emit hp =>
    rw [State.engineStep_encEmit hp, State.engineStep_encEmit (hp'.trans hp), State.encEmitStep, State.encEmitStep,
      State.emit, State.emit, ← State.encodeView_acfg hv, ← State.encodeView_dsize hv, ← hcur (by rw [hp]; rfl)]
    exact .goOn_packWrite hv _ _ (fun _ => hcur (by rw [hp]; rfl)) fun _ => hb (by rw [hp]; rfl)
  | grow hp =>
    rw [State.engineStep_encGrow hp, State.engineStep_encGrow (hp'.trans hp)]
    exact .encGrow hv (hcur (by rw [hp]; rfl)) (hb (by rw [hp]; rfl))
  | final hp =>
    rw [State.engineStep_encFinal hp, State.engineStep_encFinal (hp'.trans hp), State.encFinalStep, State.encFinalStep,
      State.emit, State.emit, ← State.encodeView_acfg hv, ← State.encodeView_dsize hv, ← hcur (by rw [hp]; rfl)]
    exact .goOn_packWrite hv _ _ nofun nofun
  | last hp =>
    rw [State.engineStep_encEnd hp, State.engineStep_encEnd (hp'.trans hp)]
    exact .encEnd hv
  | flush hp =>
    rw [State.engineStep_encFlush hp, State.engineStep_encFlush (hp'.trans hp)]
    exact .encFlush hv

/-- Two runs of ENCODE on the same source end alike. -/
theorem State.EncodesAlike.runEngine (htask : s₀.SameTask s₀') :
    ∀ (n : Nat) {s s' t t' : State}, s.EncodesAlike s' → s₀.Encoding s → s₀'.Encoding s' →
      s.runEngine n = .next t → s'.runEngine n = .next t' → t.encodeView = t'.encodeView
  | 0, s, _, _, _, _, henc, _, ht, _ => by
    rw [State.runEngine, if_neg henc.phase_ne_idle] at ht
    cases ht
  | n + 1, s, s', t, t', h, henc, henc', ht, ht' => by
    have hstep := h.engineStep htask henc henc'
    have hphase : s.engineStep.phase = s'.engineStep.phase := (congrArg State.phase hstep.view :)
    rw [State.runEngine_busy henc.phase_ne_idle] at ht
    rw [State.runEngine_busy henc'.phase_ne_idle] at ht'
    rcases henc.engineStep htask.legal htask.fit with hgo | hend
    · rcases henc'.engineStep htask.legal' htask.fit' with hgo' | hend'
      · exact hstep.runEngine htask n hgo hgo' ht ht'
      · exact absurd (hphase.trans hend'.phase) hgo.phase_ne_idle
    · rw [State.runEngine_idle hend.phase] at ht
      rw [State.runEngine_idle (hphase.symm.trans hend.phase)] at ht'
      cases ht
      cases ht'
      exact hstep.view

/-! ### The bytes that ENCODE has written, however it ends (R126, R129) -/

/-- The stream so far is the beginning of the whole one. -/
theorem State.Encoding.outBit (h : s₀.Encoding s) (hm : s₀.mem.wf = true) {k : Nat} (hk : k < s.bitsOut) :
    s.outBit k = (streamBits s₀.emissions).getD k false := by
  obtain ⟨d, es, l, henc, -, heq⟩ := h
  rw [(henc.stream hm).2 k hk, heq, Textbook.streamBits_append, List.getD_append _ _ _ _ (henc.bitsOut ▸ hk)]

theorem State.goOn_idle {p : Phase} (hp : p ≠ .idle) {r : Except Err State} (hi : (s.goOn p r).phase = .idle) :
    ∃ e, s.goOn p r = s.raise e := by
  cases r with
  | ok t => exact absurd hi hp
  | error e => exact ⟨e, rfl⟩

/-- The row that ends ENCODE raises an error, or is ENC_FLUSH after the whole stream. -/
theorem State.Encoding.engineStep_ends (h : s₀.Encoding s) (hi : s.engineStep.phase = .idle) :
    (∃ e, s.engineStep = s.raise e) ∨
      ∃ d u, s₀.Encoded s d s₀.emissions ∧ s.packFlush = .ok u ∧ s.engineStep = u.complete := by
  obtain ⟨d, es, l, henc, hphase, heq⟩ := h
  cases hphase with
  | first hp => rw [State.engineStep_encFirst hp] at hi; cases hi
  | next hp =>
    rw [State.engineStep_encNext hp, State.encNextStep] at hi
    split at hi <;> cases hi
  | lookup hp =>
    rw [State.engineStep_encLookup hp, State.encLookupStep] at hi
    split at hi <;> cases hi
  | emit hp => rw [State.engineStep_encEmit hp] at hi ⊢; exact .inl (State.goOn_idle (by decide) hi)
  | grow hp => rw [State.engineStep_encGrow hp] at hi ⊢; exact .inl (State.goOn_idle (by decide) hi)
  | final hp => rw [State.engineStep_encFinal hp] at hi ⊢; exact .inl (State.goOn_idle (by decide) hi)
  | last hp => rw [State.engineStep_encEnd hp] at hi ⊢; exact .inl (State.goOn_idle (by decide) hi)
  | flush hp =>
    rw [List.append_nil] at heq
    subst heq
    rw [State.engineStep_encFlush hp]
    rcases State.finish_cases s s.packFlush with ⟨u, hu, hend⟩ | ⟨e, -, hend⟩
    · exact .inr ⟨d, u, henc, hu, hend⟩
    · exact .inl ⟨e, hend⟩

/-- The first `n` bytes of a stream of bits. -/
def bytesOfStream (bs : List Bool) (n : Nat) : List Byte := Textbook.bytesOf ((List.range (8 * n)).map (bs.getD · false))

theorem State.memReadList_eq_bytesOfStream {bs : List Bool} (h : ∀ k < 8 * s.outLen.toNat, s.outBit k = bs.getD k false) :
    s.memReadList s.dstAddr s.outLen.toNat = bytesOfStream bs s.outLen.toNat := by
  refine State.memReadList_eq_bytesOf ?_ fun k hk => ?_
  · rw [List.length_map, List.length_range]
    omega
  · rw [h k hk]
    simp [hk]

theorem State.Encoding.engineStep_output (h : s₀.Encoding s) (hm : s₀.mem.wf = true) (hi : s.engineStep.phase = .idle) :
    s.engineStep.memReadList s.engineStep.dstAddr s.engineStep.outLen.toNat =
      bytesOfStream (streamBits s₀.emissions) s.engineStep.outLen.toNat := by
  refine State.memReadList_eq_bytesOfStream fun k hk => ?_
  obtain ⟨e, hend⟩ | ⟨d, u, henc, hu, hend⟩ := h.engineStep_ends hi <;> rw [hend] at hk ⊢
  · exact h.outBit hm (Nat.lt_add_right _ hk)
  · have hflush := State.Flushed.of_packFlush (henc.stream hm).1 henc.pad hu
    show u.outBit k = _
    rcases Nat.lt_or_ge k s.bitsOut with hlt | hge
    · rw [hflush.kept k hlt, h.outBit hm hlt]
    · rw [hflush.padded k hk hge, List.getD_eq_default _ _ (henc.bitsOut ▸ hge)]

/-- However ENCODE ends past its start check, the OUT_LEN bytes at DST_ADDR are the first of its whole stream. -/
theorem exec_encode_output (h : s.phase = .idle) (hm : s.mem.wf = true) (hl : s.cfg.legal = true)
    (hfit : s.RegionsFit s.dstCap) (ht : exec .encode s = .next t) :
    t.memReadList s.dstAddr t.outLen.toNat = bytesOfStream (streamBits s.emissions) t.outLen.toNat := by
  obtain ⟨⟨-, -, -, -, -, -, hdst, -, -⟩, -⟩ := noCommandWritesAnOperand .encode s t ht
  rw [exec_encode_started h (State.startCheck_of_fit hl hfit)] at ht
  rw [← hdst]
  refine (State.runEngine_ends (P := s.Encoding) (Q := fun u => u.phase = .idle ∧ u.memReadList u.dstAddr u.outLen.toNat =
    bytesOfStream (streamBits s.emissions) u.outLen.toNat) State.Encoding.phase_ne_idle And.left (fun henc => ?_) _
    (.started hl) ht).2
  exact (henc.engineStep hl hfit).imp_right fun hend => ⟨hend.phase, henc.engineStep_output hm hend.phase⟩

end

/-- Settles O31: the two runs stand alike in every row, and what each has written is the beginning of the same stream. -/
theorem encodeDependsOnlyOnItsInput : Obligations.EncodeDependsOnlyOnItsInput := by
  intro s s' t t' h h' hm hm' hcfg hl hcap hfit hfit' hlen hsrc ht ht'
  have htask : s.SameTask s' := ⟨hcfg, hl, hcap, hfit, hfit', hlen, hsrc⟩
  have hout := exec_encode_output h hm hl hfit ht
  have hout' := exec_encode_output h' hm' htask.legal' hfit' ht'
  have hemit : s.emissions = s'.emissions := by rw [State.emissions, State.emissions, hcfg, hsrc]
  rw [exec_encode_started h (State.startCheck_of_fit hl hfit)] at ht
  rw [exec_encode_started h' (State.startCheck_of_fit htask.legal' hfit'), ← hlen] at ht'
  have hview := (State.EncodesAlike.started htask).runEngine htask _ (.started hl) (.started htask.legal') ht ht'
  have hlen' : t.outLen = t'.outLen := (congrArg State.outLen hview :)
  refine ⟨(congrArg State.err hview :), (congrArg State.errInfo hview :), hlen', (congrArg State.codeCount hview :),
    (congrArg State.pacc hview :), (congrArg State.pnb hview :), (congrArg State.dict hview :),
    (congrArg State.srcPos hview :), ?_⟩
  rw [hout, hout', hemit, hlen']

/-! ### The rows of DECODE (R151) -/

/-- DEC_TEST ends the command exactly at the target (R150). -/
theorem State.decTestStep_end {s : State} (h : s.outLen = s.targetLen) : s.decTestStep = s.complete := if_pos h

theorem State.decTestStep_more {s : State} (h : s.outLen ≠ s.targetLen) : s.decTestStep = { s with phase := .decRead } :=
  if_neg h

theorem State.decReadStep_ok {s t : State} {c : Code} (h : s.unpackRead s.readWidth = .ok (c, t)) :
    s.decReadStep = { t with code := c, phase := .decClassify } := by
  rw [State.decReadStep, h]

theorem State.decReadStep_truncated {s : State} (h : 8 * s.srcLen.toNat < s.bitsIn + s.readWidth) :
    s.decReadStep = s.raise (Err.truncated s.readWidth) := by
  rw [State.decReadStep, State.unpackRead_truncated h]

/-- Everything DEC_READ can do. -/
theorem State.decReadStep_cases (s : State) :
    (∃ e, s.decReadStep = s.raise e) ∨
      ∃ c p q, s.decReadStep =
        { s with code := c, srcPos := p, srcBit := q, codeCount := s.codeCount + 1, phase := .decClassify } := by
  cases h : s.unpackRead s.readWidth with
  | error e => exact .inl ⟨e, by rw [State.decReadStep, h]⟩
  | ok r =>
    obtain ⟨-, -, p, q, hframe⟩ := State.unpackRead_ok h
    exact .inr ⟨r.1, p, q, by rw [State.decReadStep_ok h, hframe]⟩

theorem State.decClassifyStep_clear {s : State} (hctrl : s.acfg.ctrl = true) (hc : s.code = clearCode) :
    s.decClassifyStep = { s with dict := [], prevValid := false, phase := .decTest } :=
  if_pos ⟨hctrl, hc⟩

theorem State.decClassifyStep_end {s : State} (hctrl : s.acfg.ctrl = true) (hc : s.code = endCode) :
    s.decClassifyStep = s.raise (Err.length s.code) := by
  rw [State.decClassifyStep, if_neg (by rw [hc]; exact fun h => absurd h.2 (by decide)), if_pos ⟨hctrl, hc⟩]

/-- The code in hand is no control code, so it is a data code (R143). -/
def State.HasData (s : State) : Prop := s.acfg.ctrl = true → s.code ≠ clearCode ∧ s.code ≠ endCode

theorem State.HasData.decClassifyStep_full {s : State} (h : s.HasData) (hctrl : s.acfg.ctrl = true)
    (hfull : s.dsize = s.acfg.maxSize) : s.decClassifyStep = s.raise (Err.corrupt s.code) := by
  rw [State.decClassifyStep, if_neg fun hx => (h hx.1).1 hx.2, if_neg fun hx => (h hx.1).2 hx.2,
    if_pos ⟨hctrl, decide_eq_true hfull⟩]

/-- A data code that has no string ends the command, whether the table is full or not. -/
theorem State.HasData.decClassifyStep_error {s : State} (h : s.HasData) (hstr : s.codeString = .error (Err.corrupt s.code)) :
    s.decClassifyStep = s.raise (Err.corrupt s.code) := by
  rw [State.decClassifyStep, if_neg fun hx => (h hx.1).1 hx.2, if_neg fun hx => (h hx.1).2 hx.2, hstr]
  split <;> rfl

theorem State.HasData.decClassifyStep_ok {s : State} (h : s.HasData) (hroom : s.dsize < s.acfg.maxSize) {str : List Byte}
    (hstr : s.codeString = .ok str) : s.decClassifyStep = { s with seq := str, phase := .decWrite } := by
  rw [State.decClassifyStep, if_neg fun hx => (h hx.1).1 hx.2, if_neg fun hx => (h hx.1).2 hx.2,
    if_neg (by rw [State.isFull_eq_false hroom.ne]; exact fun hx => Bool.noConfusion hx.2), hstr]

/-- Everything DEC_CLASSIFY can do. -/
theorem State.decClassifyStep_cases (s : State) :
    (∃ e, s.decClassifyStep = s.raise e) ∨
      ∃ d v str p, s.decClassifyStep = { s with dict := d, prevValid := v, seq := str, phase := p } ∧
        (p = .decTest ∨ p = .decWrite) := by
  unfold State.decClassifyStep
  split
  · exact .inr ⟨_, _, _, _, rfl, .inl rfl⟩
  · split
    · exact .inl ⟨_, rfl⟩
    · split
      · exact .inl ⟨_, rfl⟩
      · split
        · exact .inl ⟨_, rfl⟩
        · exact .inr ⟨_, _, _, _, rfl, .inr rfl⟩

theorem State.decWriteStep_past {s : State} (h : s.targetLen.toNat < s.outLen.toNat + s.seq.length) :
    s.decWriteStep = s.raise (Err.length s.code) := if_pos h

theorem State.decWriteStep_fits {s : State} (h : s.outLen.toNat + s.seq.length ≤ s.targetLen.toNat) :
    s.decWriteStep = { s.putBytes s.seq with phase := .decGrow } := if_neg (Nat.not_lt.2 h)

theorem State.decInsert_room {s : State} (hv : s.prevValid = true) (h : s.dsize < s.acfg.maxSize) :
    s.decInsert = s.insert s.prev (s.seq.headD 0) := if_pos ⟨hv, h⟩

theorem State.decInsert_first {s : State} (hv : s.prevValid = false) : s.decInsert = s :=
  if_neg fun h => by rw [hv] at h; exact Bool.noConfusion h.1

/-- The insertion of R149 changes only the table. -/
theorem State.decInsert_frame (s : State) : ∃ d, s.decInsert = { s with dict := d } := by
  unfold State.decInsert
  split
  · exact ⟨_, rfl⟩
  · exact ⟨s.dict, rfl⟩

/-- DEC_GROW whose insertion fills the table under CTRL = 0 mirrors the encoder's reset (R149). -/
theorem State.decGrowStep_reset {s : State} {d : List Entry} (hins : s.decInsert = { s with dict := d })
    (hctrl : s.acfg.ctrl = false) (hfull : s.acfg.firstFree + d.length = s.acfg.maxSize) :
    s.decGrowStep = { s with dict := [], prev := s.code, prevValid := false, phase := .decTest } := by
  rw [State.decGrowStep, hins]
  exact if_pos ⟨hctrl, decide_eq_true hfull⟩

/-- Any other DEC_GROW keeps the table it has grown, and the code in hand becomes the previous one. -/
theorem State.decGrowStep_keep {s : State} {d : List Entry} (hins : s.decInsert = { s with dict := d })
    (h : s.acfg.ctrl = true ∨ s.acfg.firstFree + d.length ≠ s.acfg.maxSize) :
    s.decGrowStep = { s with dict := d, prev := s.code, prevValid := true, phase := .decTest } := by
  rw [State.decGrowStep, hins]
  refine if_neg fun hx => ?_
  rcases h with h | h
  · exact Bool.noConfusion (h.symm.trans hx.1)
  · exact h (of_decide_eq_true hx.2)

/-- Everything DEC_GROW can do. -/
theorem State.decGrowStep_cases (s : State) :
    ∃ d v, s.decGrowStep = { s with dict := d, prev := s.code, prevValid := v, phase := .decTest } := by
  obtain ⟨d, hd⟩ := s.decInsert_frame
  rw [State.decGrowStep, hd]
  dsimp only
  split <;> exact ⟨_, _, rfl⟩

/-! ### The state past DEC_START (R141) -/

/-- DECODE after a start check that passes. -/
def State.decodeStarted (s : State) : State :=
  { (s.accept (encode .decode) .decStart).latchAndInit.packInit.unpackInit with prevValid := false, phase := .decTest }

theorem State.decStartStep_started {s : State} (h : s.startCheck s.targetLen = .ok ()) :
    (s.accept (encode .decode) .decStart).decStartStep = s.decodeStarted := by
  have hc : (s.accept (encode .decode) .decStart).startCheck s.targetLen = .ok () := h
  simp only [State.decStartStep, State.accept_targetLen, hc]
  rfl

/-- DECODE past its start check is the run of the engine from the started state. -/
theorem exec_decode_started {s : State} (h : s.phase = .idle) (hc : s.startCheck s.targetLen = .ok ()) :
    exec .decode s = s.decodeStarted.runEngine (5 * s.srcLen.toNat + 7) := by
  rw [exec_decode h, State.decodeBound, State.runEngine_busy (by decide : Phase.decStart ≠ .idle),
    State.engineStep_decStart (State.accept_phase _ _ _), State.decStartStep_started hc]

/-- Settles O33: with nothing to write the first DEC_TEST ends the command. -/
theorem decodeToNothingReadsNothing : Obligations.DecodeToNothingReadsNothing := by
  intro s h hl hfit htarget
  have hend : s.decodeStarted.engineStep = s.decodeStarted.complete := by
    rw [State.engineStep_decTest rfl, State.decTestStep_end htarget.symm]
  rw [exec_decode_started h (State.startCheck_of_fit hl hfit), State.runEngine_busy (by decide : Phase.decTest ≠ .idle), hend,
    State.runEngine_idle rfl]
  simp [State.complete, State.decodeStarted, State.ended, State.accept, State.packInit, State.unpackInit, State.latchAndInit, h]

/-! ### What DECODE leaves alone, however it ends (R148, R152) -/

/-- What DECODE past DEC_START leaves alone, with all else at its reset value. -/
def State.besideDecode (s : State) : State :=
  { State.reset with
    ie := s.ie, done := s.done, hit := s.hit, err := s.err, cfg := s.cfg, acfg := s.acfg, cmd := s.cmd, arg0 := s.arg0,
    arg1 := s.arg1, res := s.res, srcAddr := s.srcAddr, srcLen := s.srcLen, dstAddr := s.dstAddr, dstCap := s.dstCap,
    targetLen := s.targetLen, pacc := s.pacc, pnb := s.pnb, errInfo := s.errInfo, cur := s.cur, b := s.b, host := s.host,
    obs := s.obs, draws := s.draws }

/-- DECODE, written in `s₀`, has come to `s`, within its target. -/
structure State.Decoded (s₀ s : State) : Prop where
  beside : s.besideDecode = s₀.decodeStarted.besideDecode
  room : s.outLen.toNat ≤ s.targetLen.toNat
  memBut : SameMemoryBut s₀ s 0 s.outLen.toNat

/-- The phases of DECODE after its start: the target is not yet reached from DEC_READ to DEC_WRITE. -/
inductive State.DecodePhase (s : State) : Prop
  | test (hp : s.phase = .decTest)
  | read (hp : s.phase = .decRead) (hmore : s.outLen ≠ s.targetLen)
  | classify (hp : s.phase = .decClassify) (hmore : s.outLen ≠ s.targetLen)
  | write (hp : s.phase = .decWrite) (hmore : s.outLen ≠ s.targetLen)
  | grow (hp : s.phase = .decGrow)

/-- How DECODE, written in `s₀` and past its start check, can end: at its target, or with an error before it. -/
inductive State.DecodeEnd (s₀ : State) : State → Prop
  | completed {s : State} (h : s₀.Decoded s) (hend : s.outLen = s.targetLen) : DecodeEnd s₀ s.complete
  | failed {s : State} (h : s₀.Decoded s) (hmore : s.outLen ≠ s.targetLen) (e : Err) : DecodeEnd s₀ (s.raise e)

theorem State.Decoded.started (s : State) : s.Decoded s.decodeStarted where
  beside := rfl
  room := Nat.zero_le _
  memBut _ _ := rfl

section
variable {s₀ s t : State}

theorem State.Decoded.acfg (h : s₀.Decoded s) : s.acfg = s₀.cfg := (congrArg State.acfg h.beside :)
theorem State.Decoded.srcAddr (h : s₀.Decoded s) : s.srcAddr = s₀.srcAddr := (congrArg State.srcAddr h.beside :)
theorem State.Decoded.srcLen (h : s₀.Decoded s) : s.srcLen = s₀.srcLen := (congrArg State.srcLen h.beside :)
theorem State.Decoded.dstAddr (h : s₀.Decoded s) : s.dstAddr = s₀.dstAddr := (congrArg State.dstAddr h.beside :)
theorem State.Decoded.targetLen (h : s₀.Decoded s) : s.targetLen = s₀.targetLen := (congrArg State.targetLen h.beside :)
theorem State.Decoded.err (h : s₀.Decoded s) : s.err = none := (congrArg State.err h.beside :)

theorem State.putByte_memBut (s : State) (v : Byte) : SameMemoryBut s (s.putByte v) s.outLen.toNat (s.outLen.toNat + 1) := by
  intro a ha
  refine Memory.read_write_other ?_ _
  rw [← regionAddr_toNat]
  exact ha _ le_rfl (Nat.lt_succ_self _)

/-- Bytes appended to the DST region change no other byte, in any memory. -/
theorem State.putBytes_memBut : ∀ (l : List Byte) {s : State}, s.outLen.toNat + l.length < 2 ^ 32 →
    (s.putBytes l).outLen.toNat = s.outLen.toNat + l.length ∧
      SameMemoryBut s (s.putBytes l) s.outLen.toNat (s.outLen.toNat + l.length)
  | [], _, _ => ⟨rfl, fun _ _ => rfl⟩
  | v :: l, s, h => by
    rw [List.length_cons] at h ⊢
    have ho : (s.putByte v).outLen.toNat = s.outLen.toNat + 1 := State.outLen_succ (by omega)
    obtain ⟨hlen, hmem⟩ := State.putBytes_memBut l (s := s.putByte v) (by omega)
    rw [ho] at hlen hmem
    rw [Nat.add_comm l.length 1, ← Nat.add_assoc]
    exact ⟨hlen, (s.putByte_memBut v).trans hmem rfl (Nat.le_succ _) (Nat.le_add_right _ _)⟩

theorem State.Decoded.decWrite (h : s₀.Decoded s) (hfits : s.outLen.toNat + s.seq.length ≤ s.targetLen.toNat) :
    s₀.Decoded s.decWriteStep := by
  have hlt := s.targetLen.isLt
  obtain ⟨hlen, hmem⟩ := State.putBytes_memBut s.seq (s := s) (by omega)
  have hbut := h.memBut.trans hmem h.dstAddr (Nat.zero_le _) (Nat.le_add_right _ _)
  rw [← hlen] at hbut hfits
  rw [State.decWriteStep_fits (hlen ▸ hfits)]
  obtain ⟨m, o, hf⟩ := State.putBytes_frame s.seq s
  rw [hf] at hfits hbut ⊢
  exact ⟨h.beside, hfits, hbut⟩

/-- Every row of R151 past DEC_START leads on or ends the command. -/
theorem State.Decoded.engineStep (h : s₀.Decoded s) (hphase : s.DecodePhase) :
    (s₀.Decoded s.engineStep ∧ s.engineStep.DecodePhase) ∨ s₀.DecodeEnd s.engineStep := by
  cases hphase with
  | test hp =>
    rw [State.engineStep_decTest hp]
    by_cases hend : s.outLen = s.targetLen
    · rw [State.decTestStep_end hend]
      exact .inr (.completed h hend)
    · rw [State.decTestStep_more hend]
      exact .inl ⟨{ h with }, .read rfl hend⟩
  | read hp hmore =>
    rw [State.engineStep_decRead hp]
    rcases s.decReadStep_cases with ⟨e, hr⟩ | ⟨c, p, q, hr⟩ <;> rw [hr]
    · exact .inr (.failed h hmore e)
    · exact .inl ⟨{ h with }, .classify rfl hmore⟩
  | classify hp hmore =>
    rw [State.engineStep_decClassify hp]
    rcases s.decClassifyStep_cases with ⟨e, hr⟩ | ⟨d, v, str, p, hr, rfl | rfl⟩ <;> rw [hr]
    · exact .inr (.failed h hmore e)
    · exact .inl ⟨{ h with }, .test rfl⟩
    · exact .inl ⟨{ h with }, .write rfl hmore⟩
  | write hp hmore =>
    rw [State.engineStep_decWrite hp]
    rcases Nat.lt_or_ge s.targetLen.toNat (s.outLen.toNat + s.seq.length) with hpast | hfits
    · rw [State.decWriteStep_past hpast]
      exact .inr (.failed h hmore _)
    · exact .inl ⟨h.decWrite hfits, .grow (by rw [State.decWriteStep_fits hfits])⟩
  | grow hp =>
    rw [State.engineStep_decGrow hp]
    obtain ⟨d, v, hr⟩ := s.decGrowStep_cases
    rw [hr]
    exact .inl ⟨{ h with }, .test rfl⟩

theorem State.DecodePhase.phase_ne_idle (h : s.DecodePhase) : s.phase ≠ .idle := by
  cases h <;> simp_all

theorem State.DecodeEnd.phase (h : s₀.DecodeEnd t) : t.phase = .idle := by
  cases h <;> rfl

end

/-- However DECODE ends: InvalidConfiguration with nothing changed, or an ending past the start check. -/
theorem exec_decode_cases {s t : State} (h : s.phase = .idle) (ht : exec .decode s = .next t) :
    (∃ e : Err, e.kind = .invalidConfiguration ∧ t = s.failed .decode e) ∨
    (t.err ≠ some .invalidConfiguration ∧ s.DecodeEnd t) := by
  have hchecks : s.ChecksStart .decode s.targetLen := .inr ⟨rfl, rfl⟩
  cases hc : s.startCheck s.targetLen with
  | error e =>
    rw [hchecks.exec_error h hc] at ht
    cases ht
    exact .inl ⟨e, State.startCheck_errorKind hc, rfl⟩
  | ok u =>
    refine .inr ⟨hchecks.exec_ok hc h ht, ?_⟩
    rw [exec_decode_started h hc] at ht
    exact State.runEngine_ends (P := fun u => s.Decoded u ∧ u.DecodePhase) (fun hu => hu.2.phase_ne_idle)
      State.DecodeEnd.phase (fun hu => hu.1.engineStep hu.2) _ ⟨.started s, .test rfl⟩ ht

/-- What every ending of DECODE past its start check leaves alone, and the bound on what it writes. -/
structure State.DecodeFrame (s₀ t : State) : Prop where
  acfg : t.acfg = s₀.cfg
  hit : t.hit = false
  pacc : t.pacc = 0
  pnb : t.pnb = 0
  encoder : SameEncoderWork s₀ t
  room : t.outLen.toNat ≤ s₀.targetLen.toNat
  memBut : SameMemoryBut s₀ t 0 t.outLen.toNat

theorem State.Decoded.frame {s₀ s : State} (h : s₀.Decoded s) : s₀.DecodeFrame s where
  acfg := h.acfg
  hit := (congrArg State.hit h.beside :)
  pacc := (congrArg State.pacc h.beside :)
  pnb := (congrArg State.pnb h.beside :)
  encoder := ⟨(congrArg State.cur h.beside :), (congrArg State.b h.beside :)⟩
  room := h.targetLen ▸ h.room
  memBut := h.memBut

theorem State.DecodeEnd.frame {s₀ t : State} (h : s₀.DecodeEnd t) : s₀.DecodeFrame t := by
  cases h with
  | completed h _ => exact { h.frame with }
  | failed h _ e => exact { h.frame with }

/-- An ending past the start check is without an error exactly at the target (R150, R152). -/
theorem State.DecodeEnd.err_eq_none_iff {s₀ t : State} (h : s₀.DecodeEnd t) : t.err = none ↔ t.outLen = s₀.targetLen := by
  cases h with
  | completed h hend => exact iff_of_true h.err (hend.trans h.targetLen)
  | failed h hmore e => exact iff_of_false nofun fun hend => hmore (hend.trans h.targetLen.symm)

/-- Settles O36: the frame of every ending past the start check, and before it nothing is written. -/
theorem decodeWritesOnlyItsOutput : Obligations.DecodeWritesOnlyItsOutput := by
  intro s t h ht
  obtain ⟨hops, hhost⟩ := noCommandWritesAnOperand .decode s t ht
  have hres := (exec_keeps h ht).2.1 rfl
  rcases exec_decode_cases h ht with ⟨e, he, rfl⟩ | ⟨herr, hend⟩
  · have hinv : (s.failed .decode e).err = some .invalidConfiguration := congrArg some he
    exact ⟨fun _ => ⟨fun _ => rfl, ⟨rfl, rfl, rfl⟩, ⟨rfl, rfl⟩, rfl, rfl⟩, fun hne => absurd hinv hne,
      iff_of_false nofun fun hx => hx.1 hinv, hops, hres, rfl, ⟨rfl, rfl⟩, hhost⟩
  · have hframe := hend.frame
    exact ⟨fun hinv => absurd hinv herr, fun _ => ⟨hframe.room, hframe.memBut, hframe.acfg, hframe.pnb, hframe.pacc⟩,
      hend.err_eq_none_iff.trans (and_iff_right herr).symm, hops, hres, hframe.hit, hframe.encoder, hhost⟩

/-! ### The string of a code (R144 to R147) -/

section
variable {s : State}

theorem State.codeString_first (hv : s.prevValid = false) (hc : s.code.toNat ≤ 255) : s.codeString = .ok [s.code.setWidth 8] := by
  rw [State.codeString, if_pos hv, if_neg (Nat.not_lt.2 hc)]

theorem State.codeString_firstBad (hv : s.prevValid = false) (hc : 255 < s.code.toNat) :
    s.codeString = .error (Err.corrupt s.code) := by
  rw [State.codeString, if_pos hv, if_pos hc]

theorem State.codeString_known (hv : s.prevValid = true) (hc : s.code.toNat < s.dsize) : s.codeString = s.expand s.code := by
  rw [State.codeString, if_neg (by simp [hv]), if_pos hc]

theorem State.codeString_kwkwk (hv : s.prevValid = true) (hc : s.code.toNat = s.dsize) {str : List Byte}
    (hstr : s.expand s.prev = .ok str) : s.codeString = .ok (str ++ str.take 1) := by
  rw [State.codeString, if_neg (by simp [hv]), if_neg hc.not_lt, if_pos hc, hstr]

theorem State.codeString_beyond (hv : s.prevValid = true) (hc : s.dsize < s.code.toNat) :
    s.codeString = .error (Err.corrupt s.code) := by
  rw [State.codeString, if_neg (by simp [hv]), if_neg hc.not_gt, if_neg hc.ne']

theorem State.readWidth_eq (s : State) : s.readWidth =
    min s.acfg.maxWidth.toNat (max s.acfg.initWidth.toNat (bitlen (s.dsize + if s.prevValid = true then 1 else 0))) := by
  unfold State.readWidth
  cases s.prevValid <;> rfl

end

/-- Settles O37: each row's refusals and what it does else, by the row's own equations. -/
theorem decoderRefusesBadCodes : Obligations.DecoderRefusesBadCodes := by
  intro s
  refine ⟨fun hp => ?_, fun hp hl w hw => ?_, fun hp hm => ?_⟩
  · rw [State.engineStep_decClassify hp]
    refine ⟨State.decClassifyStep_clear, fun hctrl hc => ?_, fun hctrl h1 h2 hfull => ?_, fun hd hv hc => ?_, fun hd hv hc => ?_⟩
    · have herr : Err.length s.code = ⟨.lengthMismatch, 257⟩ := by rw [hc]; rfl
      rw [State.decClassifyStep_end hctrl hc, herr]
      rfl
    · exact State.HasData.decClassifyStep_full (fun _ => ⟨h1, h2⟩) hctrl hfull
    · exact State.HasData.decClassifyStep_error hd (State.codeString_firstBad hv hc)
    · exact State.HasData.decClassifyStep_error hd (State.codeString_beyond hv hc)
  · rw [← s.readWidth_eq] at hw
    subst hw
    rw [State.engineStep_decRead hp]
    refine ⟨State.decReadStep_truncated, fun hfits => ?_⟩
    obtain ⟨c, t, hr⟩ := State.unpackRead_ok_of_le hfits
    obtain ⟨hlt, hbits⟩ := State.unpackRead_bits (CfgFields.widthOf_bounds hl _).2 hr
    have hpos := State.unpackRead_bitsIn hr
    have hstep := State.decReadStep_ok hr
    obtain ⟨-, -, p, q, rfl⟩ := State.unpackRead_ok hr
    exact ⟨c, p, q, _, rfl, hstep, hpos, hlt, hbits⟩
  · rw [State.engineStep_decWrite hp]
    refine ⟨State.decWriteStep_past, fun hfits => ?_⟩
    have htarget := s.targetLen.isLt
    obtain ⟨m, o, hput, hspec⟩ := State.putBytes_spec s.seq s hm (by omega)
    exact ⟨m, o, by rw [State.decWriteStep_fits hfits, hput], hspec⟩

/-! ### The KwKwK code (R146, R149) -/

/-- A longer table finds the strings that a shorter one found. -/
theorem State.walk_of_longer {s t : State} (hacfg : t.acfg = s.acfg) {l : List Entry} (hdict : t.dict = s.dict ++ l) :
    ∀ (fuel : Nat) {k : Nat} {out str : List Byte}, s.walk k out fuel = some str → t.walk k out fuel = some str
  | 0, k, out, str, h => h
  | fuel + 1, k, out, str, h => by
    by_cases hk : k < 256
    · rwa [State.walk_singleton t hk, ← State.walk_singleton s hk]
    · cases he : s.entry? k with
      | none => rw [State.walk, if_neg hk, he] at h; cases h
      | some e =>
        obtain ⟨hff, -, hplace⟩ := State.entry?_eq_some he
        have het : t.entry? k = some e := by
          rw [State.entry?, hacfg, if_neg (Nat.not_lt.2 hff), hdict,
            List.getElem?_append_left (List.getElem?_eq_some_iff.1 hplace).1, hplace]
        rw [State.walk_entry he] at h
        rw [State.walk_entry het]
        exact State.walk_of_longer hacfg hdict fuel h

section
variable {s : State} {str : List Byte}

theorem State.entry?_last {l : List Entry} {e : Entry} (h : s.dict = l ++ [e]) :
    s.entry? (s.acfg.firstFree + l.length) = some e := by
  rw [State.entry?_firstFree_add, h, List.getElem?_concat_length]

/-- The control codes are neither singletons nor entries (R9). -/
theorem State.hasData_of_singleton_or_ge (hc : s.code.toNat ≤ 255 ∨ s.acfg.firstFree ≤ s.code.toNat) : s.HasData := by
  intro hctrl
  have hff : s.acfg.firstFree = 258 := by rw [CfgFields.firstFree, hctrl]; rfl
  rw [hff] at hc
  constructor <;> intro hx <;> rw [hx] at hc <;> exact absurd hc (by decide)

/-- What the rest of the round of a data code with a previous code leaves, when its string fits: the string is written, and the
entry of R149 stands in the table, unless the reset mirror has emptied it. -/
theorem State.HasData.engineSteps_three (h : s.HasData) (hp : s.phase = .decClassify) (hv : s.prevValid = true)
    (hroom : s.dsize < s.acfg.maxSize) (hstr : s.codeString = .ok str)
    (hfits : s.outLen.toNat + str.length ≤ s.targetLen.toNat) :
    ∃ m o d v, o.toNat = s.outLen.toNat + str.length ∧
      s.engineSteps 3 = { s with
        seq := str, mem := m, outLen := o, dict := d, prev := s.code, prevValid := v, phase := .decTest } ∧
      (s.acfg.ctrl = true ∨ s.dsize + 1 ≠ s.acfg.maxSize → d = s.dict ++ [⟨s.prev, str.headD 0⟩] ∧ v = true) ∧
      (s.acfg.ctrl = false → s.dsize + 1 = s.acfg.maxSize → d = [] ∧ v = false) := by
  have htarget := s.targetLen.isLt
  obtain ⟨hlen, -⟩ := State.putBytes_memBut str (s := { s with seq := str, phase := .decWrite }) (by dsimp only; omega)
  obtain ⟨m, o, hput⟩ := State.putBytes_frame str { s with seq := str, phase := .decWrite }
  rw [hput] at hlen
  have hins := State.decInsert_room (s := { s with seq := str, mem := m, outLen := o, phase := .decGrow }) hv hroom
  have hsize : s.acfg.firstFree + (s.dict ++ [(⟨s.prev, str.headD 0⟩ : Entry)]).length = s.dsize + 1 := by
    simp [State.dsize, Nat.add_assoc]
  rw [State.engineSteps_succ, State.engineStep_decClassify hp, h.decClassifyStep_ok hroom hstr, State.engineSteps_succ,
    State.engineStep_decWrite rfl, State.decWriteStep_fits hfits, hput, State.engineSteps_succ, State.engineStep_decGrow rfl,
    State.engineSteps_zero]
  by_cases hreset : s.acfg.ctrl = false ∧ s.dsize + 1 = s.acfg.maxSize
  · obtain ⟨hctrl, hfull⟩ := hreset
    refine ⟨m, o, [], false, hlen, State.decGrowStep_reset hins hctrl (hsize.trans hfull), fun hx => ?_, fun _ _ => ⟨rfl, rfl⟩⟩
    simp [hctrl, hfull] at hx
  · have hkeep : s.acfg.ctrl = true ∨ s.dsize + 1 ≠ s.acfg.maxSize := by
      rwa [not_and_or, Bool.not_eq_false] at hreset
    exact ⟨m, o, _, true, hlen, State.decGrowStep_keep hins (by rwa [hsize]), fun _ => ⟨rfl, rfl⟩,
      fun hctrl hfull => absurd ⟨hctrl, hfull⟩ hreset⟩

end

/-- Settles O38: the previous code has a string because it is an entry; the entry inserted for the code spells it. -/
theorem kwKwKCodeGetsItsString : Obligations.KwKwKCodeGetsItsString := by
  intro s h hp hv hc hroom
  have hwork := h.work
  unfold State.WorkOk at hwork
  rw [hp] at hwork
  obtain ⟨str, hwalk, hpos, -⟩ := h.walk_finds (hwork hv).1
  obtain ⟨x, l, rfl⟩ := List.exists_cons_of_length_pos hpos
  have hexp : s.expand s.prev = .ok (x :: l) := State.expand_of_walk hwalk
  have hdata : s.HasData := State.hasData_of_singleton_or_ge (.inr (by rw [hc]; exact Nat.le_add_right _ _))
  have hstr := State.codeString_kwkwk hv hc hexp
  refine ⟨x :: l, hexp, (State.engineStep_decClassify hp).trans (hdata.decClassifyStep_ok hroom hstr), fun hfits => ?_⟩
  obtain ⟨m, o, d, v, ho, h3, hkeep, hreset⟩ := hdata.engineSteps_three hp hv hroom hstr (by simpa using hfits)
  refine ⟨by rw [h3], by rw [h3], by rw [h3]; simpa using ho, fun hx => ?_, fun hfull hctrl => ?_⟩
  · obtain ⟨rfl, rfl⟩ := hkeep (hx.symm.imp_right Nat.ne_of_lt)
    have hacfg : (s.engineSteps 3).acfg = s.acfg := by rw [h3]
    have hdict : (s.engineSteps 3).dict = s.dict ++ [⟨s.prev, x⟩] := by rw [h3]; rfl
    have hentry : (s.engineSteps 3).entry? s.code.toNat = some ⟨s.prev, x⟩ := by
      rw [hc, State.dsize, ← hacfg]
      exact State.entry?_last hdict
    obtain ⟨front, hfront, hcode⟩ := (h.engineSteps 3).expand_entry hentry
    have hprev : (s.engineSteps 3).expand s.prev = .ok (x :: l) :=
      State.expand_of_walk (State.walk_of_longer hacfg hdict _ (hacfg ▸ hwalk))
    rw [hprev] at hfront
    cases hfront
    refine ⟨by rw [h3], ?_, hentry, hcode⟩
    rw [State.dsize, hacfg, hdict, List.length_append]
    rfl
  · obtain ⟨rfl, rfl⟩ := hreset hctrl hfull
    refine ⟨by rw [h3], by rw [h3], ?_⟩
    rw [h3]
    show s.acfg.firstFree + 0 = 256
    rw [CfgFields.firstFree, hctrl]
    rfl

end Sys2Proof.Machine

namespace Sys2Proof.Textbook

open Sys2Proof.Machine

/-! ### The next emission of the greedy encoder (44_encoder.md R123, R126) -/

/-- With the code of `w` just emitted over the dictionary `d`: the input still to be matched, and the emissions to come for it. -/
inductive Follows (c : CfgFields) (d : List (List Byte)) (w : List Byte) : List Byte → List Emission → Prop
  | last (l : List Emission) : Follows c d w [] l
  | miss {b : Byte} {rest : List Byte} (h : w ++ [b] ∉ d) : Follows c d w (b :: rest) (afterMiss c d w b rest)

/-- A string of the dictionary is the string of an allocated code. -/
theorem exists_allocated_of_mem {c : CfgFields} {d : List (List Byte)} {w : List Byte} (h : w ∈ d) :
    ∃ k, Allocated c d k ∧ stringOf c d k = w := by
  obtain ⟨n, hn, rfl⟩ := List.mem_iff_getElem.1 h
  refine ⟨c.firstFree + n, .inr ⟨Nat.le_add_right _ _, Nat.add_lt_add_left hn _⟩, ?_⟩
  rw [stringOf_place, List.getD_eq_getElem _ _ hn]

/-- R124: from a match on, the encoder's next emission is the code of a longest match. -/
theorem Spells.encodeFrom_emits {c : CfgFields} {es : List Entry} {d : List (List Byte)} (h : Spells c es d) :
    ∀ (rest : List Byte) {k : Nat}, Allocated c d k → ∃ k' r l,
      encodeFrom c d (stringOf c d k) rest = ⟨k', c.widthOf (sizeOf c d)⟩ :: l ∧
      Allocated c d k' ∧ stringOf c d k ++ rest = stringOf c d k' ++ r ∧ Follows c d (stringOf c d k') r l
  | [], k, hk => ⟨k, [], _, by rw [encodeFrom, h.codeOf_stringOf hk], hk, rfl, .last _⟩
  | b :: rest, k, hk => by
    by_cases hmem : stringOf c d k ++ [b] ∈ d
    · obtain ⟨k₂, hk₂, hstr⟩ := exists_allocated_of_mem (c := c) hmem
      obtain ⟨k', r, l, hemit, hk', hin, hfollows⟩ := h.encodeFrom_emits rest hk₂
      rw [hstr] at hemit hin
      refine ⟨k', r, l, ?_, hk', ?_, hfollows⟩
      · rw [encodeFrom_hit rest hmem, hemit]
      · rw [← hin, List.append_assoc]
        rfl
    · exact ⟨k, b :: rest, _, by rw [encodeFrom_miss rest hmem, h.codeOf_stringOf hk], hk, rfl, .miss hmem⟩

theorem Allocated.lt_sizeOf {c : CfgFields} {d : List (List Byte)} {k : Nat} (hk : Allocated c d k) : k < sizeOf c d := by
  have hff := c.firstFree_cases
  unfold Allocated at hk
  unfold sizeOf at hk ⊢
  omega

theorem stringOf_last (c : CfgFields) (d : List (List Byte)) (w : List Byte) :
    stringOf c (d ++ [w]) (c.firstFree + d.length) = w := by
  rw [stringOf_place, List.getD_eq_getElem?_getD, List.getElem?_concat_length, Option.getD_some]

end Sys2Proof.Textbook

namespace Sys2Proof.Machine

open Textbook (Emission streamBits stringOf Allocated Spells Follows)

/-! ### The decoder's dictionary behind the encoder's (R142, R149) -/

/-- From a full table on, every width is MAXW (R85). -/
theorem CfgFields.widthOf_full {c : CfgFields} {n : Nat} (h : c.maxSize ≤ n) : c.widthOf n = c.maxw := by
  have hlen : ¬ bitlen n ≤ c.maxw := fun hle => absurd ((bitlen_le_iff n _).1 hle) (Nat.not_lt.2 h)
  unfold CfgFields.widthOf
  omega

/-- The decoder's dictionary `d` against the dictionary `e` that the encoder had when it emitted the next code, at a match that
began with the byte `b`: both are empty, or `e` has one string more, that of the previous code followed by `b`. -/
def State.Behind (s : State) (d e : List (List Byte)) (b : Byte) : Prop :=
  (s.prevValid = false ∧ d = [] ∧ e = []) ∨
  (s.prevValid = true ∧ Allocated s.acfg d s.prev.toNat ∧ stringOf s.acfg d s.prev.toNat ++ [b] ∉ d ∧
    s.dsize < s.acfg.maxSize ∧ e = d ++ [stringOf s.acfg d s.prev.toNat ++ [b]])

/-- The table with the entry of R149 for a string that begins with `b`. -/
def State.grownDict (s : State) (b : Byte) : List Entry := if s.prevValid then s.dict ++ [⟨s.prev, b⟩] else s.dict

section
variable {s : State} {d e : List (List Byte)} {b : Byte}

theorem State.grownDict_first (hv : s.prevValid = false) (b : Byte) : s.grownDict b = s.dict := by simp [State.grownDict, hv]

theorem State.grownDict_next (hv : s.prevValid = true) (b : Byte) : s.grownDict b = s.dict ++ [⟨s.prev, b⟩] := by
  simp [State.grownDict, hv]

theorem State.dsize_of_spells (h : Spells s.acfg s.dict d) : s.dsize = Textbook.sizeOf s.acfg d :=
  congrArg (s.acfg.firstFree + ·) h.length

theorem State.Behind.room (h : s.Behind d e b) (hl : s.acfg.legal = true) (hs : Spells s.acfg s.dict d) :
    s.dsize < s.acfg.maxSize := by
  obtain ⟨-, rfl, -⟩ | ⟨-, -, -, hroom, -⟩ := h
  · rw [State.dsize_of_spells hs]
    exact CfgFields.firstFree_lt_maxSize hl
  · exact hroom

/-- R142: the encoder's size at the emission is `D.size + prev_valid`. -/
theorem State.Behind.sizeOf_eq (h : s.Behind d e b) (hs : Spells s.acfg s.dict d) :
    Textbook.sizeOf s.acfg e = s.dsize + bitOf s.prevValid := by
  rw [State.dsize_of_spells hs]
  obtain ⟨hv, rfl, rfl⟩ | ⟨hv, -, -, -, rfl⟩ := h <;> rw [hv]
  · rfl
  · rw [Textbook.sizeOf, List.length_append, ← Nat.add_assoc]
    rfl

theorem State.Behind.sizeOf_le (h : s.Behind d e b) (hl : s.acfg.legal = true) (hs : Spells s.acfg s.dict d) :
    Textbook.sizeOf s.acfg e ≤ s.acfg.maxSize := by
  have hroom := h.room hl hs
  have hbit := bitOf_le_one s.prevValid
  rw [h.sizeOf_eq hs]
  omega

/-- The entry of R149 brings the decoder's table up to the encoder's. -/
theorem State.Behind.spells (h : s.Behind d e b) (hs : Spells s.acfg s.dict d) : Spells s.acfg (s.grownDict b) e := by
  obtain ⟨hv, rfl, rfl⟩ | ⟨hv, hprev, hnew, -, rfl⟩ := h
  · rw [State.grownDict_first hv]
    exact hs
  · rw [State.grownDict_next hv]
    exact hs.insert hprev hnew

theorem State.Behind.decInsert (h : s.Behind d e b) (hseq : s.seq.headD 0 = b) :
    s.decInsert = { s with dict := s.grownDict b } := by
  obtain ⟨hv, -⟩ | ⟨hv, -, -, hroom, -⟩ := h
  · rw [State.decInsert_first hv, State.grownDict_first hv]
  · rw [State.decInsert_room hv hroom, State.grownDict_next hv, hseq]
    rfl

/-- The first code after an initialisation is its own string (R144). -/
theorem State.codeString_of_empty (hv : s.prevValid = false) (hcode : Allocated s.acfg [] s.code.toNat) :
    s.codeString = .ok (stringOf s.acfg [] s.code.toNat) := by
  have hsmall : s.code.toNat ≤ 255 := by
    unfold Allocated Textbook.sizeOf at hcode
    rw [List.length_nil] at hcode
    omega
  rw [State.codeString_first hv hsmall, Textbook.stringOf_singleton _ _ hsmall, BitVec.ofNat_toNat]

/-- R144 to R146: the string that DEC_CLASSIFY finds for a code is the encoder's. In the KwKwK case the match begins with `b`, so
the previous string does, too. -/
theorem State.Behind.codeString (h : s.Behind d e b) (hs : Spells s.acfg s.dict d) (hcode : Allocated s.acfg e s.code.toNat)
    (hw : ∃ w, stringOf s.acfg e s.code.toNat = b :: w) : s.codeString = .ok (stringOf s.acfg e s.code.toNat) := by
  have hlt := hcode.lt_sizeOf
  rw [h.sizeOf_eq hs] at hlt
  obtain ⟨hv, rfl, rfl⟩ | ⟨hv, hprev, -, hroom, rfl⟩ := h
  · exact State.codeString_of_empty hv hcode
  · have hexpand := fun {c : Code} (hc : Allocated s.acfg d c.toNat) =>
      State.expand_spells hs hroom.le ((State.allocated_iff hs _).2 hc)
    rw [hv] at hlt
    rcases Nat.lt_succ_iff_lt_or_eq.1 hlt with hknown | hlast
    · have hcode' : Allocated s.acfg d s.code.toNat :=
        hcode.imp_right fun hx => ⟨hx.1, State.dsize_of_spells hs ▸ hknown⟩
      rw [State.codeString_known hv hknown, hexpand hcode', Textbook.stringOf_append _ hcode']
    · obtain ⟨w, hw⟩ := hw
      rw [hlast, State.dsize, hs.length, Textbook.stringOf_last] at hw ⊢
      rw [State.codeString_kwkwk hv hlast (hexpand hprev)]
      cases hpre : stringOf s.acfg d s.prev.toNat with
      | nil => exact absurd hpre (hs.stringOf_ne_nil hprev)
      | cons x u =>
        rw [hpre] at hw
        cases hw
        rfl

theorem State.hasData_of_allocated (h : Allocated s.acfg e s.code.toNat) : s.HasData :=
  State.hasData_of_singleton_or_ge (h.imp_right And.left)

end

/-! ### DECODE on a greedy stream (R153) -/

/-- What DECODE still expects at DEC_TEST and DEC_READ: the bytes still to come out, and the emissions the source holds for them.
A full table with CTRL = 1 is followed by CLEAR (44_encoder.md R126). -/
inductive State.Expects (s : State) (d : List (List Byte)) : List Byte → List Emission → Prop
  | nothing (l : List Emission) : Expects s d [] l
  | data {e : List (List Byte)} {b : Byte} {rest : List Byte} (h : s.Behind d e b) :
      Expects s d (b :: rest) (Textbook.encodeFrom s.acfg e [b] rest)
  | clear {b : Byte} {rest : List Byte} (hctrl : s.acfg.ctrl = true) (hfull : s.dsize = s.acfg.maxSize)
      (hv : s.prevValid = true) :
      Expects s d (b :: rest) (⟨256, s.acfg.widthOf s.dsize⟩ :: Textbook.encodeFrom s.acfg [] [b] rest)

/-- A data code in hand, over the encoder's dictionary `e`: its string begins with `b`, and `r` and `l` follow it. -/
structure State.InHand (s : State) (d e : List (List Byte)) (b : Byte) (r : List Byte) (l : List Emission) : Prop where
  behind : s.Behind d e b
  code : Allocated s.acfg e s.code.toNat
  starts : ∃ w, stringOf s.acfg e s.code.toNat = b :: w
  follows : Follows s.acfg e (stringOf s.acfg e s.code.toNat) r l

/-- What each phase of DECODE holds, the bytes still to come out from it, and the emissions the source still holds. -/
inductive State.DecodeStage (s : State) (d : List (List Byte)) : List Byte → List Emission → Prop
  | test {r : List Byte} {l : List Emission} (hp : s.phase = .decTest) (h : s.Expects d r l) : DecodeStage s d r l
  | read {r : List Byte} {l : List Emission} (hp : s.phase = .decRead) (h : s.Expects d r l) (hr : r ≠ []) : DecodeStage s d r l
  | clear {b : Byte} {rest : List Byte} (hp : s.phase = .decClassify) (hctrl : s.acfg.ctrl = true) (hc : s.code = clearCode) :
      DecodeStage s d (b :: rest) (Textbook.encodeFrom s.acfg [] [b] rest)
  | data {e : List (List Byte)} {b : Byte} {r : List Byte} {l : List Emission} (hp : s.phase = .decClassify)
      (h : s.InHand d e b r l) : DecodeStage s d (stringOf s.acfg e s.code.toNat ++ r) l
  | write {e : List (List Byte)} {b : Byte} {r : List Byte} {l : List Emission} (hp : s.phase = .decWrite)
      (h : s.InHand d e b r l) (hseq : s.seq = stringOf s.acfg e s.code.toNat) : DecodeStage s d (s.seq ++ r) l
  | grow {e : List (List Byte)} {b : Byte} {r : List Byte} {l : List Emission} (hp : s.phase = .decGrow)
      (h : s.InHand d e b r l) (hseq : s.seq = stringOf s.acfg e s.code.toNat) : DecodeStage s d r l

/-- DECODE, written in `s₀`, has come to `s` with a table that spells `d`, has written `out`, and its source goes on with the
emissions `l` and then the bits `tail`. -/
structure State.Decompressed (s₀ s : State) (d : List (List Byte)) (out : List Byte) (l : List Emission) (tail : List Bool) :
    Prop where
  decoded : s₀.Decoded s
  spells : Spells s.acfg s.dict d
  size : s.dsize ≤ s.acfg.maxSize
  wf : s.mem.wf = true
  outLen : s.outLen.toNat = out.length
  output : ∀ j < out.length, out[j]? = some (s.mem.read (s.dstAddr + BitVec.ofNat 32 j).toNat)
  ahead : s.Ahead (streamBits l ++ tail)

/-- `s` is a state of a DECODE, written in `s₀`, that is to give `x`. -/
def State.Decompressing (s₀ : State) (x : List Byte) (tail : List Bool) (s : State) : Prop :=
  ∃ d out r l, s₀.Decompressed s d out l tail ∧ s.DecodeStage d r l ∧ out ++ r = x

/-- DECODE, written in `s₀`, has completed with the output `x`. -/
def State.DecompressEnd (s₀ : State) (x : List Byte) (t : State) : Prop :=
  ∃ s, s₀.Decoded s ∧ t = s.complete ∧ s.outLen = s.targetLen ∧
    ∀ j < x.length, x[j]? = some (s.mem.read (s.dstAddr + BitVec.ofNat 32 j).toNat)

section
variable {s₀ s : State} {d e : List (List Byte)} {x out r : List Byte} {l : List Emission} {tail : List Bool} {b : Byte}

theorem State.Decompressed.legal (h : s₀.Decompressed s d out l tail) (hl : s₀.cfg.legal = true) : s.acfg.legal = true :=
  h.decoded.acfg ▸ hl

theorem State.Expects.setPhase (h : s.Expects d r l) (p : Phase) : ({ s with phase := p } : State).Expects d r l := by
  cases h with
  | nothing => exact .nothing _
  | data hb => exact .data hb
  | clear hctrl hfull hv => exact .clear hctrl hfull hv

/-- DEC_TEST stops exactly when nothing is left to come out (R150). -/
theorem State.Decompressed.decTest (h : s₀.Decompressed s d out l tail) (hx : s₀.targetLen.toNat = x.length)
    (hexp : s.Expects d r l) (heq : out ++ r = x) :
    s₀.Decompressing x tail s.decTestStep ∨ s₀.DecompressEnd x s.decTestStep := by
  have hlen : out.length + r.length = s.targetLen.toNat := by
    rw [h.decoded.targetLen, hx, ← heq, List.length_append]
  have hout := h.outLen
  by_cases hend : s.outLen = s.targetLen
  · have hr : r = [] := List.eq_nil_of_length_eq_zero (by rw [hend] at hout; omega)
    rw [hr, List.append_nil] at heq
    exact .inr ⟨s, h.decoded, State.decTestStep_end hend, hend, heq ▸ h.output⟩
  · have hr : r ≠ [] := by
      rintro rfl
      exact hend (BitVec.eq_of_toNat_eq (by rw [hout, ← hlen]; rfl))
    rw [State.decTestStep_more hend]
    exact .inl ⟨d, out, r, l, { h with decoded := { h.decoded with }, ahead := { h.ahead with } },
      .read rfl (hexp.setPhase _) hr, heq⟩

/-- DEC_READ takes the next emission, if it reads at that emission's width. -/
theorem State.Decompressed.readCode {k w : Nat} (h : s₀.Decompressed s d out (⟨k, w⟩ :: l) tail) (hl : s₀.cfg.legal = true)
    (hw : w = s.readWidth) (hk : k < 2 ^ w) :
    ∃ (c : Code) (p : Word) (q : BitVec 3), c.toNat = k ∧
      s.decReadStep = { s with code := c, srcPos := p, srcBit := q, codeCount := s.codeCount + 1, phase := .decClassify } ∧
      s₀.Decompressed s.decReadStep d out l tail := by
  have hw16 : w ≤ 16 := hw ▸ (CfgFields.widthOf_bounds (h.legal hl) _).2
  have hcode : (BitVec.ofNat 16 k).toNat = k :=
    Nat.mod_eq_of_lt (hk.trans_le (Nat.pow_le_pow_right Nat.two_pos hw16))
  have hahead := h.ahead
  rw [Textbook.streamBits_cons, List.append_assoc, ← hcode] at hahead
  obtain ⟨t, ht, hnext, -⟩ := State.Ahead.unpackRead hahead hw16 (by rwa [hcode])
  have hstep := State.decReadStep_ok (hw ▸ ht)
  obtain ⟨-, -, p, q, rfl⟩ := State.unpackRead_ok ht
  refine ⟨_, p, q, hcode, hstep, ?_⟩
  rw [hstep]
  exact { h with decoded := { h.decoded with }, ahead := { hnext with } }

/-- R142: the width that DEC_READ reads at is the one that the next code was written at, and the code is CLEAR or in hand. -/
theorem State.Decompressed.decRead (h : s₀.Decompressed s d out l tail) (hl : s₀.cfg.legal = true) (hexp : s.Expects d r l)
    (hr : r ≠ []) (heq : out ++ r = x) : s₀.Decompressing x tail s.decReadStep := by
  have hlegal := h.legal hl
  cases hexp with
  | nothing => exact absurd rfl hr
  | @data e b rest hb =>
    have hbyte := b.isLt
    have hk : (b.setWidth 16).toNat = b.toNat := BitVec.toNat_setWidth_of_le (by decide)
    have hspells := hb.spells h.spells
    obtain ⟨k, r, l', hemit, hcode, hin, hfollows⟩ :=
      hspells.encodeFrom_emits rest (k := (b.setWidth 16).toNat) (.inl (by omega))
    rw [Textbook.stringOf_byte] at hemit hin
    rw [hemit] at h
    obtain ⟨c, p, q, rfl, hstep, hnext⟩ := h.readCode hl (congrArg s.acfg.widthOf (hb.sizeOf_eq h.spells))
      (CfgFields.lt_two_pow_widthOf (hb.sizeOf_le hlegal h.spells) hcode.lt_sizeOf)
    have hstarts : ∃ w, stringOf s.acfg e c.toNat = b :: w := by
      cases hs : stringOf s.acfg e c.toNat with
      | nil => exact absurd hs (hspells.stringOf_ne_nil hcode)
      | cons y w =>
        rw [hs] at hin
        cases hin
        exact ⟨w, rfl⟩
    rw [hstep] at hnext ⊢
    refine ⟨d, out, stringOf s.acfg e c.toNat ++ r, l', hnext, .data (b := b) rfl ⟨hb, hcode, hstarts, hfollows⟩, ?_⟩
    rw [← hin]
    exact heq
  | clear hctrl hfull hv =>
    have hmax := ((CfgFields.legal_iff _).1 hlegal).1
    have hwidth : s.acfg.widthOf s.dsize = s.acfg.maxw := CfgFields.widthOf_full hfull.ge
    obtain ⟨c, p, q, hc, hstep, hnext⟩ := h.readCode hl
      (hwidth.trans (CfgFields.widthOf_full (hfull.ge.trans (Nat.le_add_right _ _))).symm)
      (by rw [hwidth]; exact (Nat.pow_le_pow_right Nat.two_pos hmax).trans_lt' (by decide))
    rw [hstep] at hnext ⊢
    exact ⟨d, out, _, _, hnext, .clear rfl hctrl (BitVec.eq_of_toNat_eq hc), heq⟩

/-- DEC_CLASSIFY on CLEAR empties the table, as the encoder has emptied its own (R143). -/
theorem State.Decompressed.decClassify_clear {rest : List Byte}
    (h : s₀.Decompressed s d out (Textbook.encodeFrom s.acfg [] [b] rest) tail) (hctrl : s.acfg.ctrl = true)
    (hc : s.code = clearCode) (heq : out ++ b :: rest = x) : s₀.Decompressing x tail s.decClassifyStep := by
  rw [State.decClassifyStep_clear hctrl hc]
  refine ⟨[], out, _, _, { h with
    decoded := { h.decoded with }, ahead := { h.ahead with }, spells := Spells.nil _, size := ?_ },
    .test rfl (.data (.inl ⟨rfl, rfl, rfl⟩)), heq⟩
  exact (Nat.le_add_right _ _).trans h.size

theorem State.Decompressed.decClassify_data (h : s₀.Decompressed s d out l tail) (hl : s₀.cfg.legal = true)
    (hin : s.InHand d e b r l) (heq : out ++ (stringOf s.acfg e s.code.toNat ++ r) = x) :
    s₀.Decompressing x tail s.decClassifyStep := by
  have hroom := hin.behind.room (h.legal hl) h.spells
  have hstr := hin.behind.codeString h.spells hin.code hin.starts
  rw [(State.hasData_of_allocated hin.code).decClassifyStep_ok hroom hstr]
  exact ⟨d, out, _, l, { h with decoded := { h.decoded with }, ahead := { h.ahead with } },
    .write (e := e) (b := b) rfl { hin with } rfl, heq⟩

/-- The source is apart from the output, so its bits are as they were (20_memory.md R48). -/
theorem State.Decoded.inBit (h : s₀.Decoded s) (hfit : s₀.RegionsFit s₀.targetLen) {k : Nat} (hk : k < 8 * s₀.srcLen.toNat) :
    s.inBit k = s₀.inBit k := by
  obtain ⟨hsrc, hdst, hapart⟩ := hfit
  have hroom := h.room
  have htarget := s₀.targetLen.isLt
  have hlen := s₀.srcLen.isLt
  rw [h.targetLen] at hroom
  unfold State.inBit
  rw [h.srcAddr, h.memBut]
  intro i _ hi
  rw [BitVec.toNat_add, BitVec.toNat_add, BitVec.toNat_ofNat, BitVec.toNat_ofNat]
  omega

theorem State.Ahead.of_inBit {s t : State} {bs : List Bool} (h : s.Ahead bs) (hpos : t.bitsIn = s.bitsIn)
    (hlen : t.srcLen = s.srcLen) (hin : ∀ k < 8 * s.srcLen.toNat, t.inBit k = s.inBit k) : t.Ahead bs where
  fits := by rw [hpos, hlen]; exact h.fits
  bit k hk := by
    rw [hpos, hlen] at hk
    rw [hpos, hin _ hk, h.bit k hk]

/-- DEC_WRITE appends the string of the code in hand to the output (R148). -/
theorem State.Decompressed.decWrite (h : s₀.Decompressed s d out l tail) (hfit : s₀.RegionsFit s₀.targetLen)
    (hx : s₀.targetLen.toNat = x.length) (hin : s.InHand d e b r l) (hseq : s.seq = stringOf s.acfg e s.code.toNat)
    (heq : out ++ (s.seq ++ r) = x) : s₀.Decompressing x tail s.decWriteStep := by
  have hlen : out.length + (s.seq.length + r.length) = s.targetLen.toNat := by
    rw [h.decoded.targetLen, hx, ← heq, List.length_append, List.length_append]
  have hout := h.outLen
  have htarget := s.targetLen.isLt
  have hfits : s.outLen.toNat + s.seq.length ≤ s.targetLen.toNat := by omega
  have hdec := h.decoded.decWrite hfits
  have hwf := State.putBytes_wf s.seq h.wf
  obtain ⟨m, o, hput, ho, hbytes, hother⟩ := State.putBytes_spec s.seq s h.wf (by omega)
  have haddr : ∀ j, s.outLen + BitVec.ofNat 32 j = BitVec.ofNat 32 (out.length + j) := fun j => by
    rw [BitVec.ofNat_add, ← hout, BitVec.ofNat_toNat, BitVec.setWidth_eq]
  simp only [haddr] at hbytes hother
  rw [State.decWriteStep_fits hfits] at hdec ⊢
  rw [hput] at hdec hwf ⊢
  refine ⟨d, out ++ s.seq, r, l, { h with
    decoded := hdec, wf := hwf, outLen := ?_, output := fun j hj => ?_, ahead := ?_ },
    .grow (e := e) (b := b) rfl { hin with } hseq, by rw [List.append_assoc]; exact heq⟩
  · rw [List.length_append, ← hout]
    exact ho
  · rw [List.length_append] at hj
    rcases Nat.lt_or_ge j out.length with hlt | hge
    · rw [List.getElem?_append_left hlt, h.output j hlt, hother]
      exact fun i hi => regionAddr_ne _ (by omega) (by omega) (by omega)
    · obtain ⟨i, rfl⟩ := Nat.exists_eq_add_of_le hge
      rw [List.getElem?_append_right hge, Nat.add_sub_cancel_left, hbytes i (by omega)]
  · refine h.ahead.of_inBit rfl rfl fun k hk => ?_
    rw [h.decoded.srcLen] at hk
    rw [hdec.inBit hfit hk, h.decoded.inBit hfit hk]

/-- What follows the code in hand, once its entry stands in the table `e` and the code is the previous one. -/
theorem State.Expects.of_follows (hf : Follows s.acfg e (stringOf s.acfg e s.prev.toNat) r l) (hv : s.prevValid = true)
    (hs : Spells s.acfg s.dict e) (hsize : s.dsize ≤ s.acfg.maxSize) (hprev : Allocated s.acfg e s.prev.toNat)
    (hkeep : s.acfg.ctrl = true ∨ s.dsize ≠ s.acfg.maxSize) : s.Expects e r l := by
  cases hf with
  | last l => exact .nothing l
  | miss hnew =>
    rw [Textbook.afterMiss, ← State.dsize_of_spells hs]
    by_cases hroom : s.dsize < s.acfg.maxSize
    · rw [if_pos hroom]
      exact .data (.inr ⟨hv, hprev, hnew, hroom, rfl⟩)
    · have hfull : s.dsize = s.acfg.maxSize := by omega
      have hctrl : s.acfg.ctrl = true := hkeep.resolve_right (not_not_intro hfull)
      rw [if_neg hroom, if_pos hctrl]
      exact .clear hctrl hfull hv

/-- What follows the code in hand after the reset mirror, with CTRL = 0: the encoder, too, starts again from nothing. -/
theorem State.Expects.of_follows_reset {w : List Byte} (hf : Follows s.acfg e w r l) (hv : s.prevValid = false)
    (hctrl : s.acfg.ctrl = false) (hfull : Textbook.sizeOf s.acfg e = s.acfg.maxSize) : s.Expects [] r l := by
  cases hf with
  | last l => exact .nothing l
  | miss hnew =>
    rw [Textbook.afterMiss, if_neg hfull.not_lt, if_neg (by rw [hctrl]; exact Bool.noConfusion)]
    exact .data (.inl ⟨hv, rfl, rfl⟩)

/-- DEC_GROW brings the table up to the encoder's, and resets it when the encoder does (R149). -/
theorem State.Decompressed.decGrow (h : s₀.Decompressed s d out l tail) (hl : s₀.cfg.legal = true) (hin : s.InHand d e b r l)
    (hseq : s.seq = stringOf s.acfg e s.code.toNat) (heq : out ++ r = x) : s₀.Decompressing x tail s.decGrowStep := by
  obtain ⟨w, hw⟩ := hin.starts
  have hins := hin.behind.decInsert (by rw [hseq, hw]; rfl)
  have hspells := hin.behind.spells h.spells
  have hsize : s.acfg.firstFree + (s.grownDict b).length = Textbook.sizeOf s.acfg e :=
    congrArg (s.acfg.firstFree + ·) hspells.length
  have hle := hin.behind.sizeOf_le (h.legal hl) h.spells
  by_cases hreset : s.acfg.ctrl = false ∧ Textbook.sizeOf s.acfg e = s.acfg.maxSize
  · obtain ⟨hctrl, hfull⟩ := hreset
    rw [State.decGrowStep_reset hins hctrl (hsize.trans hfull)]
    exact ⟨[], out, r, l, { h with
      decoded := { h.decoded with }, ahead := { h.ahead with }, spells := Spells.nil _,
      size := (Nat.le_add_right _ _).trans h.size }, .test rfl (.of_follows_reset hin.follows rfl hctrl hfull), heq⟩
  · have hkeep : s.acfg.ctrl = true ∨ s.acfg.firstFree + (s.grownDict b).length ≠ s.acfg.maxSize := by
      rwa [not_and_or, Bool.not_eq_false, ← hsize] at hreset
    rw [State.decGrowStep_keep hins hkeep]
    exact ⟨e, out, r, l, { h with
      decoded := { h.decoded with }, ahead := { h.ahead with }, spells := hspells, size := hsize.trans_le hle },
      .test rfl (.of_follows hin.follows rfl hspells (hsize.trans_le hle) hin.code hkeep), heq⟩

/-- Every row of R151 past DEC_START leads on towards `x` or completes with it. -/
theorem State.Decompressing.engineStep (h : s₀.Decompressing x tail s) (hl : s₀.cfg.legal = true)
    (hfit : s₀.RegionsFit s₀.targetLen) (hx : s₀.targetLen.toNat = x.length) :
    s₀.Decompressing x tail s.engineStep ∨ s₀.DecompressEnd x s.engineStep := by
  obtain ⟨d, out, r, l, hdec, hstage, heq⟩ := h
  cases hstage with
  | test hp hexp => rw [State.engineStep_decTest hp]; exact hdec.decTest hx hexp heq
  | read hp hexp hr => rw [State.engineStep_decRead hp]; exact .inl (hdec.decRead hl hexp hr heq)
  | clear hp hctrl hc => rw [State.engineStep_decClassify hp]; exact .inl (hdec.decClassify_clear hctrl hc heq)
  | data hp hin => rw [State.engineStep_decClassify hp]; exact .inl (hdec.decClassify_data hl hin heq)
  | write hp hin hseq => rw [State.engineStep_decWrite hp]; exact .inl (hdec.decWrite hfit hx hin hseq heq)
  | grow hp hin hseq => rw [State.engineStep_decGrow hp]; exact .inl (hdec.decGrow hl hin hseq heq)

theorem State.Decompressing.phase_ne_idle (h : s₀.Decompressing x tail s) : s.phase ≠ .idle := by
  obtain ⟨d, out, r, l, -, hstage, -⟩ := h
  cases hstage <;> simp_all

theorem State.DecompressEnd.phase {t : State} (h : s₀.DecompressEnd x t) : t.phase = .idle := by
  obtain ⟨s, -, rfl, -⟩ := h
  rfl

end

/-! ### The stream in the source (30_encoding.md R66) -/

/-- The bytes of a bit string in memory read as its bits. -/
theorem State.inBit_of_bytesOf {s : State} {bs : List Bool}
    (h : s.memReadList s.srcAddr (Textbook.bytesOf bs).length = Textbook.bytesOf bs) {k : Nat} (hk : k < bs.length) :
    s.inBit k = bs.getD k false := by
  have hlen : (Textbook.bytesOf bs).length = (bs.length + 7) / 8 := by simp [Textbook.bytesOf]
  have hbyte := congrArg (·[k / 8]?) h
  rw [State.memReadList_getElem? _ _ _ _ (by omega), Textbook.bytesOf, List.getElem?_map,
    List.getElem?_range (by omega)] at hbyte
  have hread : s.memRead (s.srcAddr + BitVec.ofNat 32 (k / 8)) = Textbook.byteOf (bs.drop (8 * (k / 8))) :=
    Option.some.inj hbyte
  show (s.memRead (s.srcAddr + BitVec.ofNat 32 (k / 8))).getLsbD (7 - k % 8) = _
  rw [hread, Textbook.byteOf_getLsbD _ (by omega), List.getD_eq_getElem?_getD, List.getElem?_drop,
    ← List.getD_eq_getElem?_getD]
  congr 1
  omega

/-- A bit string at the start of the source lies ahead of a fresh unpacker, with some bits after it. -/
theorem State.Ahead.of_source {s : State} {bs : List Bool} (hpos : s.bitsIn = 0) (hlen : bs.length ≤ 8 * s.srcLen.toNat)
    (h : ∀ k < bs.length, s.inBit k = bs.getD k false) : ∃ tail, s.Ahead (bs ++ tail) := by
  have hrest : (((List.range (8 * s.srcLen.toNat)).map s.inBit).drop bs.length).length = 8 * s.srcLen.toNat - bs.length := by simp
  refine ⟨((List.range (8 * s.srcLen.toNat)).map s.inBit).drop bs.length, ⟨?_, fun k hk => ?_⟩⟩
  · rw [hpos, List.length_append, hrest]
    omega
  · rw [hpos, Nat.zero_add] at hk ⊢
    rcases Nat.lt_or_ge k bs.length with hlt | hge
    · rw [List.getD_append _ _ _ _ hlt, h k hlt]
    · rw [List.getD_append_right _ _ _ _ hge, List.getD_eq_getElem?_getD, List.getElem?_drop, Nat.add_sub_cancel' hge,
        List.getElem?_map, List.getElem?_range hk]
      rfl

theorem State.Decompressing.started {s : State} {x : List Byte} (hm : s.mem.wf = true) (hl : s.cfg.legal = true)
    (hlen : (Textbook.compress s.cfg x).length ≤ s.srcLen.toNat)
    (hsrc : s.memReadList s.srcAddr (Textbook.compress s.cfg x).length = Textbook.compress s.cfg x) :
    ∃ tail, s.Decompressing x tail s.decodeStarted := by
  have hbits : (streamBits (Textbook.encode s.cfg x)).length ≤ 8 * s.srcLen.toNat := by
    rw [Textbook.compress_length] at hlen
    omega
  obtain ⟨tail, hahead⟩ := State.Ahead.of_source (s := s.decodeStarted) rfl hbits
    fun k hk => State.inBit_of_bytesOf (s := s) hsrc hk
  refine ⟨tail, [], [], x, _, {
    decoded := .started s
    spells := Spells.nil _
    size := (CfgFields.firstFree_lt_maxSize hl).le
    wf := hm
    outLen := rfl
    output := fun j hj => absurd hj (Nat.not_lt_zero j)
    ahead := hahead }, .test rfl ?_, rfl⟩
  cases x with
  | nil => exact .nothing _
  | cons b rest => exact .data (.inl ⟨rfl, rfl, rfl⟩)

/-- Settles O34: in each row the decoder stands where the encoder stood, one entry behind; the frame is that of every ending of
DECODE. -/
theorem decodeInvertsTheGreedyLzwStream : Obligations.DecodeInvertsTheGreedyLzwStream := by
  intro s x h hm hl hfit hx hlen hsrc
  obtain ⟨t, ht, hidle, hdone⟩ := everyCommandTerminates .decode s h
  obtain ⟨hops, hhost⟩ := noCommandWritesAnOperand .decode s t ht
  have hres := (exec_keeps h ht).2.1 rfl
  obtain ⟨tail, hstart⟩ := State.Decompressing.started hm hl hlen hsrc
  have hrun := ht
  rw [exec_decode_started h (State.startCheck_of_fit hl hfit)] at hrun
  obtain ⟨u, hdec, rfl, hend, hbytes⟩ := State.runEngine_ends (P := s.Decompressing x tail) State.Decompressing.phase_ne_idle
    State.DecompressEnd.phase (fun hgo => hgo.engineStep hl hfit hx) _ hstart hrun
  have hframe := hdec.frame
  have hout : u.complete.memReadList s.dstAddr x.length = x := by
    refine List.ext_getElem? fun j => ?_
    rcases Nat.lt_or_ge j x.length with hlt | hge
    · rw [State.memReadList_getElem? _ _ _ _ hlt, hbytes j hlt, hdec.dstAddr]
      rfl
    · rw [List.getElem?_eq_none (by simpa using hge), List.getElem?_eq_none hge]
  exact ⟨_, ht, ⟨rfl, rfl, hframe.hit, hdec.err, (congrArg State.errInfo hdec.beside :), (congrArg State.cmd hdec.beside :)⟩,
    hframe.acfg, hend.trans hdec.targetLen, hout, hframe.pnb, hframe.pacc, hops, hres, hframe.encoder, hhost, hframe.memBut⟩

/-! ### ENCODE, then DECODE (R153 item 4) -/

/-- ENCODE that ends without an error has closed a stream that fits in DST_CAP, and leaves canonical memory. -/
theorem exec_encode_fits {s t : State} (h : s.phase = .idle) (hm : s.mem.wf = true) (hl : s.cfg.legal = true)
    (hfit : s.RegionsFit s.dstCap) (ht : exec .encode s = .next t) (herr : t.err = none) :
    t.phase = .idle ∧ t.mem.wf = true ∧
      (Textbook.compress s.cfg (s.memReadList s.srcAddr s.srcLen.toNat)).length ≤ s.dstCap.toNat := by
  have hend := State.EncodeEnd.of_exec h hl hfit ht
  have hroom := hend.frame.room
  cases hend with
  | overflowed _ _ _ => cases herr
  | completed henc _ hu =>
    obtain ⟨hwf, -⟩ := henc.stream hm
    have hflush := State.Flushed.of_packFlush hwf henc.pad hu
    refine ⟨rfl, (State.packFlush_pad_wf hu henc.pad hwf).2, ?_⟩
    rw [Textbook.compress_length]
    exact (henc.bitsOut ▸ hflush.outLen).ge.trans hroom

/-- Settles O35: ENCODE has written the greedy stream of its source, and DECODE inverts that stream. -/
theorem encodeThenDecodeGivesTheInputBack : Obligations.EncodeThenDecodeGivesTheInputBack := by
  intro s t d h hm hl hfit ht herr hfit'
  obtain ⟨⟨-, hcfg, -, -, -, -, hdst, -, -⟩, -⟩ := noCommandWritesAnOperand .encode s t ht
  obtain ⟨hidle, hwf, hfits⟩ := exec_encode_fits h hm hl hfit ht herr
  obtain ⟨t', ht', -, hlen, hstream, -⟩ := encodeWritesTheGreedyLzwStream s h hm hl hfit hfits
  rw [ht] at ht'
  cases ht'
  rw [← hcfg] at hl hlen hstream
  rw [← hdst, hlen] at hstream
  obtain ⟨u, hu, hdone, -, hout, hbytes, -⟩ := decodeInvertsTheGreedyLzwStream
    { t with srcAddr := t.dstAddr, srcLen := t.outLen, dstAddr := d, targetLen := s.srcLen }
    (s.memReadList s.srcAddr s.srcLen.toNat) hidle hwf hl hfit' (State.memReadList_length _ _ s).symm hlen.ge
    (Eq.trans (State.memReadList_congr _ _ _ t fun _ _ => rfl) hstream)
  obtain ⟨-, -, -, hnone, -⟩ := hdone
  rw [State.memReadList_length] at hbytes
  exact ⟨u, hu, hnone, hout, hbytes⟩

end Sys2Proof.Machine
end

section
/-! PROOFS. Obligations of 60_exceptions.md: the error kinds of each command, what a command that fails leaves alone, and IRQ. -/

namespace Sys2Proof.Machine

theorem firstPhase_primitive {i : Instr} (he : i ≠ .encode) (hd : i ≠ .decode) : firstPhase i = .exec := by
  rw [firstPhase_eq, if_neg he, if_neg hd]

/-! ### A primitive command that fails (R168, R169) -/

/-- A one-step command that ends with an error has done no work: acceptance and the error ending are all that it leaves. -/
theorem EndsWork.eq_failed {i : Instr} {s t : State} (h : s.phase = .idle) (hend : EndsWork i (s.accept (encode i) .exec) t)
    {k : ErrKind} (hk : t.err = some k) : t = s.failed i ⟨k, t.errInfo⟩ := by
  rcases hend with ⟨e, rfl⟩ | ⟨u, hu, rfl⟩
  · have hkind : e.kind = k := Option.some.inj hk
    rw [State.accept_raise h, ← hkind]
    rfl
  · have hnone : u.err = none := hu.err
    exact absurd (hnone.symm.trans hk) nofun

/-- Settles O40: the one step of a primitive command ends it with its work done and no error, or with the error ending alone. -/
theorem failingPrimitivesChangeNothingElse : Obligations.FailingPrimitivesChangeNothingElse := by
  intro i s t k h he hd hexec hk
  have hi := firstPhase_primitive he hd
  rw [exec_primitive h hi, State.engineStep_exec (State.accept_phase _ _ _)] at hexec
  cases hexec
  exact (State.execStep_endsWork (s := s.accept (encode i) .exec) (decode_encode i) hi).eq_failed h hk

/-! ### The interrupt output (R172, R173) -/

theorem State.irq_iff (s : State) : s.irq = true ↔ s.ie = true ∧ s.done = true := Bool.and_eq_true_iff

theorem State.irq_of_done {s : State} (h : s.done = true) : s.irq = s.ie := by rw [State.irq, h, Bool.and_true]

theorem State.irq_of_not_done {s : State} (h : s.done = false) : s.irq = false := by rw [State.irq, h, Bool.and_false]

/-- A write of CTRL without SRST, idle or busy, writes IE alone (10_state.md R25, R40). -/
theorem State.csrWrite_ctrl_ie (s : State) {v : Word} (hv : v.getLsbD 1 = false) :
    s.csrWrite 0x04 v = .next { s with ie := v.getLsbD 0 } := by
  show Host.Outcome.next (s.writeCtrl v) = _
  rw [State.writeCtrl, hv, cond_false]

/-- Settles O48: every command ends with DONE set and IE kept, and the two writes are those of STATUS and CTRL. -/
theorem interruptFollowsDoneAndEnable : Obligations.InterruptFollowsDoneAndEnable := by
  refine fun s => ⟨s.irq_iff, fun h i => ?_, fun v hv => ?_, fun v => s.csrWrite_ctrl_ie⟩
  · obtain ⟨t, ht, -, hdone⟩ := everyCommandTerminates i s h
    obtain ⟨⟨hie, -⟩, -⟩ := noCommandWritesAnOperand i s t ht
    exact ⟨t, ht, (State.irq_of_done hdone).trans hie⟩
  · refine ⟨{ s with done := false }, ?_, State.irq_of_not_done rfl⟩
    rw [State.csrWrite_status, if_pos hv]

/-! ### The error kinds of each command (R166) -/

/-- The rows of R166: the kinds of error that a well-formed command may raise. -/
def ErrKind.RaisedBy (k : ErrKind) (i : Instr) : Prop :=
  match k with
  | .invalidConfiguration => i = .dinit ∨ i = .encode ∨ i = .decode
  | .truncatedStream => i = .uread ∨ i = .decode
  | .corruptStream => i = .decode
  | .lengthMismatch => i = .decode
  | .outputOverflow => i = .pwrite ∨ i = .pflush ∨ i = .encode
  | .illegalCommand => i = .dinsert ∨ i = .dread ∨ i = .pwrite ∨ i = .uread

/-- ERR is clear, or holds a kind that command `i` may raise. -/
def State.ErrFrom (i : Instr) (s : State) : Prop := ∀ k, s.err = some k → k.RaisedBy i

theorem State.ErrFrom.of_none {i : Instr} {s : State} (h : s.err = none) : s.ErrFrom i :=
  fun _ hk => absurd (h.symm.trans hk) nofun

theorem State.ErrFrom.raise (s : State) {i : Instr} {e : Err} (h : e.kind.RaisedBy i) : (s.raise e).ErrFrom i :=
  fun _ hk => Option.some.inj hk ▸ h

/-- The work of command `i` succeeds with ERR clear, or raises an error of a row of `i`. -/
def OwnErrors (i : Instr) (r : Except Err State) : Prop :=
  match r with
  | .ok t => t.err = none
  | .error e => e.kind.RaisedBy i

theorem OwnErrors.finish {i : Instr} {r : Except Err State} (h : OwnErrors i r) (s : State) : (s.finish r).ErrFrom i := by
  cases r with
  | ok t => exact .of_none h
  | error e => exact .raise s h

/-- R87's check raises InvalidConfiguration only, as the start check that it is a part of. -/
theorem State.cfgCheck_errorKind {s : State} {e : Err} (h : s.cfgCheck = .error e) : e.kind = .invalidConfiguration :=
  State.startCheck_errorKind (State.startCheck_of_cfgCheck_error h 0)

theorem State.packFlush_err {s t : State} (h : s.packFlush = .ok t) : t.err = s.err := by
  rcases State.packFlush_ok h with ⟨-, rfl⟩ | ⟨-, -, rfl⟩ <;> rfl

theorem State.unpackRead_err {s t : State} {v : Code} {w : Nat} (h : s.unpackRead w = .ok (v, t)) : t.err = s.err := by
  obtain ⟨-, -, p, q, rfl⟩ := State.unpackRead_ok h
  rfl

/-! #### The one step of a primitive command -/

/-- The one step of a primitive command raises an error of its own rows only. -/
theorem State.execStep_errFrom {s : State} {i : Instr} (hd : decode s.cmd = .ok i) (hi : firstPhase i = .exec)
    (h : s.err = none) : s.execStep.ErrFrom i := by
  unfold State.execStep
  rw [hd]
  cases i with
  | encode | decode => cases hi
  | nop | pinit | uinit => exact .of_none h
  | dinit =>
    refine OwnErrors.finish ?_ s
    split
    · rename_i e he
      show e.kind.RaisedBy .dinit
      rw [State.cfgCheck_errorKind he]
      exact .inl rfl
    · exact h
  | dlookup =>
    simp only [State.dlookupBody]
    split <;> exact .of_none h
  | dinsert =>
    refine OwnErrors.finish ?_ s
    split
    · exact .inl rfl
    · split
      · exact .inl rfl
      · exact h
  | dread =>
    refine OwnErrors.finish ?_ s
    split
    · exact h
    · split
      · exact h
      · exact .inr (.inl rfl)
  | pwrite =>
    refine OwnErrors.finish ?_ s
    split
    · exact .inr (.inr (.inl rfl))
    · cases hr : s.packWrite s.codeArg s.widthArg.toNat with
      | ok t => exact (State.packWrite_err hr).trans h
      | error e => exact (State.packWrite_error hr).1 ▸ .inl rfl
  | pflush =>
    refine OwnErrors.finish ?_ s
    cases hr : s.packFlush with
    | ok t => exact (State.packFlush_err hr).trans h
    | error e => exact (State.packFlush_error hr).1 ▸ .inr (.inl rfl)
  | uread =>
    refine OwnErrors.finish ?_ s
    split
    · exact .inr (.inr (.inr rfl))
    · split
      · rename_i hr
        exact (State.unpackRead_error hr).1 ▸ .inl rfl
      · rename_i hr
        exact (State.unpackRead_err hr).trans h

/-! #### ENCODE and DECODE -/

/-- ENCODE past its start check ends without an error or with OutputOverflow (R129). -/
theorem State.EncodeEnd.errFrom {s t : State} (h : s.EncodeEnd t) : t.ErrFrom .encode := by
  cases h with
  | completed h _ hu =>
    have hnone := (congrArg State.err h.beside :)
    exact .of_none ((State.packFlush_err hu).trans hnone)
  | overflowed _ he _ => exact .raise _ (he ▸ .inr (.inr rfl))

theorem exec_encode_errFrom {s t : State} (h : s.phase = .idle) (ht : exec .encode s = .next t) : t.ErrFrom .encode := by
  rcases exec_encode_cases h ht with ⟨e, he, rfl⟩ | ⟨-, hend⟩
  · exact fun k hk => Option.some.inj hk ▸ he ▸ .inr (.inl rfl)
  · exact hend.errFrom

/-- DECODE is under way, and has raised nothing. -/
structure State.CleanDecode (s : State) : Prop where
  phase : s.phase.isDecode = true
  err : s.err = none

theorem State.CleanDecode.phase_ne_idle {s : State} (h : s.CleanDecode) : s.phase ≠ .idle := by
  intro hidle
  have hphase := h.phase
  rw [hidle] at hphase
  cases hphase

/-- A step of DECODE leads on without an error, or ends the command, by an error of DECODE's rows if by one. -/
def State.DecodeGoes (t : State) : Prop := t.CleanDecode ∨ (t.phase = .idle ∧ t.ErrFrom .decode)

theorem State.DecodeGoes.raise (s : State) {e : Err} (h : e.kind.RaisedBy .decode) : (s.raise e).DecodeGoes :=
  .inr ⟨rfl, .raise s h⟩

/-- Every row of R151: the start check, the read, the cases of a code and the overshoot check are all that can raise. -/
theorem State.CleanDecode.engineStep {s : State} (h : s.CleanDecode) : s.engineStep.DecodeGoes := by
  obtain ⟨hphase, herr⟩ := h
  cases hp : s.phase with
  | decStart =>
    rw [State.engineStep_decStart hp, State.decStartStep]
    split
    · rename_i hc
      exact .raise s (State.startCheck_errorKind hc ▸ .inr (.inr rfl))
    · exact .inl ⟨rfl, herr⟩
  | decTest =>
    rw [State.engineStep_decTest hp, State.decTestStep]
    split
    · exact .inr ⟨rfl, .of_none herr⟩
    · exact .inl ⟨rfl, herr⟩
  | decRead =>
    rw [State.engineStep_decRead hp, State.decReadStep]
    split
    · rename_i hr
      exact .raise s ((State.unpackRead_error hr).1 ▸ .inr rfl)
    · rename_i hr
      exact .inl ⟨rfl, (State.unpackRead_err hr).trans herr⟩
  | decClassify =>
    rw [State.engineStep_decClassify hp, State.decClassifyStep]
    split
    · exact .inl ⟨rfl, herr⟩
    · split
      · exact .raise s rfl
      · split
        · exact .raise s rfl
        · split
          · rename_i hc
            exact .raise s (State.codeString_error hc ▸ rfl)
          · exact .inl ⟨rfl, herr⟩
  | decWrite =>
    rw [State.engineStep_decWrite hp]
    rcases Nat.lt_or_ge s.targetLen.toNat (s.outLen.toNat + s.seq.length) with hpast | hfits
    · rw [State.decWriteStep_past hpast]
      exact .raise s rfl
    · obtain ⟨m, o, hf⟩ := State.putBytes_frame s.seq s
      rw [State.decWriteStep_fits hfits, hf]
      exact .inl ⟨rfl, herr⟩
  | decGrow =>
    obtain ⟨d, v, hr⟩ := s.decGrowStep_cases
    rw [State.engineStep_decGrow hp, hr]
    exact .inl ⟨rfl, herr⟩
  | _ =>
    rw [hp] at hphase
    cases hphase

theorem exec_decode_errFrom {s t : State} (h : s.phase = .idle) (ht : exec .decode s = .next t) : t.ErrFrom .decode := by
  rw [exec_decode h] at ht
  exact (State.runEngine_ends (P := State.CleanDecode) (Q := fun u => u.phase = .idle ∧ u.ErrFrom .decode)
    State.CleanDecode.phase_ne_idle And.left State.CleanDecode.engineStep _ ⟨rfl, rfl⟩ ht).2

/-! #### Every command -/

/-- Every command run from an idle state ends with ERR clear or of a kind in its rows of R166. -/
theorem exec_errFrom {i : Instr} {s t : State} (h : s.phase = .idle) (ht : exec i s = .next t) : t.ErrFrom i := by
  by_cases hi : firstPhase i = .exec
  · rw [exec_primitive h hi, State.engineStep_exec (State.accept_phase _ _ _)] at ht
    cases ht
    exact State.execStep_errFrom (s := s.accept (encode i) .exec) (decode_encode i) hi (State.accept_err _ _ _)
  · cases i with
    | encode => exact exec_encode_errFrom h ht
    | decode => exact exec_decode_errFrom h ht
    | _ => exact absurd rfl hi

/-- Settles O39: `ErrKind.RaisedBy` is R166 read by kind, and every command keeps to it. -/
theorem commandsRaiseOnlyTheirErrors : Obligations.CommandsRaiseOnlyTheirErrors := by
  intro i s t h ht
  have hrows := exec_errFrom h ht
  exact ⟨hrows _, hrows _, hrows _, hrows _, hrows _, hrows _⟩

end Sys2Proof.Machine
end

section
/-! PROOFS. Obligations of 70_reset_and_hazards.md: a reset, idle or busy, and the bytes that an aborted command has written. -/

namespace Sys2Proof.Machine

/-! ### The two sources of a reset (R190, R199) -/

/-- A write of CTRL with SRST set is a reset, whatever its bit 0 (R199). -/
theorem State.csrWrite_ctrl_srst (s : State) {v : Word} (hv : v.getLsbD 1 = true) : s.csrWrite 0x04 v = .next s.doReset := by
  show Host.Outcome.next (s.writeCtrl v) = _
  rw [State.writeCtrl, hv, cond_true]

theorem State.hostAccess_hardReset (s : State) : s.hostAccess .hardReset = .next s.doReset := rfl

/-! ### The memory of an aborted command (R50, R192)

The bytes of the step under way are written one by one, each with the value that the whole step leaves at its address. -/

/-- The last of `k + 1` bytes goes one past the `k` before it. -/
theorem State.read_partialMem_succ {s : State} (hm : s.mem.wf = true) (k a : Nat) :
    (s.partialMem (k + 1)).read a =
      if a = (s.dstAddr + (s.outLen + BitVec.ofNat 32 k)).toNat then s.engineStep.mem.read a else (s.partialMem k).read a := by
  rw [State.partialMem, Memory.read_write (State.partialMem_wf hm k), BitVec.add_assoc]
  split
  · subst a
    rfl
  · rfl

/-- A byte already written holds what the whole step would leave there. -/
theorem State.read_partialMem_written {s : State} (hm : s.mem.wf = true) {j k : Nat} (hj : j < k) :
    (s.partialMem k).read (s.dstAddr + (s.outLen + BitVec.ofNat 32 j)).toNat =
      s.engineStep.mem.read (s.dstAddr + (s.outLen + BitVec.ofNat 32 j)).toNat := by
  induction k with
  | zero => exact absurd hj (Nat.not_lt_zero j)
  | succ k ih =>
    rw [State.read_partialMem_succ hm]
    split
    · rfl
    · rcases Nat.lt_succ_iff_lt_or_eq.1 hj with hbefore | rfl
      · exact ih hbefore
      · exact absurd rfl ‹_›

/-- Every address but those of the bytes already written reads as before the step. -/
theorem State.read_partialMem_other {s : State} (hm : s.mem.wf = true) {a k : Nat}
    (ha : ∀ j < k, a ≠ (s.dstAddr + (s.outLen + BitVec.ofNat 32 j)).toNat) : (s.partialMem k).read a = s.mem.read a := by
  induction k with
  | zero => rfl
  | succ k ih =>
    rw [State.read_partialMem_succ hm, if_neg (ha k (Nat.lt_succ_self k))]
    exact ih fun j hj => ha j (Nat.lt_succ_of_lt hj)

/-! ### A reset (R191, R192) -/

/-- Settles O55: both sources are one reset, which while idle keeps the memory it finds. -/
theorem idleResetGivesTheResetState : Obligations.IdleResetGivesTheResetState := by
  intro s v h hv
  have hreset : s.doReset = s.resetTo s.mem := by
    rcases s.doReset_cases with ⟨-, he⟩ | ⟨hbusy, -⟩
    · exact he
    · exact absurd h hbusy
  rw [s.csrWrite_ctrl_srst hv, s.hostAccess_hardReset, hreset, State.resetTo_eq]
  exact ⟨rfl, rfl⟩

/-- Settles O56: both sources are one reset, which while busy keeps the first `k` bytes of the step under way. -/
theorem busyResetAbortsTheCommand : Obligations.BusyResetAbortsTheCommand := by
  intro s v h hm hv
  obtain ⟨hidle, -⟩ | ⟨-, k, hk, hreset⟩ := s.doReset_cases
  · exact absurd hidle h
  · rw [s.csrWrite_ctrl_srst hv, s.hostAccess_hardReset, hreset, State.resetTo_eq]
    exact ⟨s.partialMem k, k, hk, rfl, rfl, fun j hj => State.read_partialMem_written hm hj,
      fun a ha => State.read_partialMem_other hm ha⟩

end Sys2Proof.Machine
end
